-- ==== Sys2Proof/Word.lean ====
section
/-! DEFINITION. The word types of the block: a command byte, a TXT cell and STATUS are 8 bits wide
(spec/30_encoding.md R70, spec/20_memory.md R51, spec/10_state.md R25), a register number is 4 bits
wide (spec/20_memory.md R52). The integer registers hold mathematical integers within the range of
spec/00_scope.md R7 and are `Int`, since XLEN is open and may be infinite. -/

namespace Sys2Proof

/-- A TXT cell, a command code, or the STATUS image. -/
abbrev Byte := BitVec 8

/-- A register number of the REG space (R52). -/
abbrev RegNum := BitVec 4

end Sys2Proof
end

