-- ==== Sys2Proof/Config.lean ====
section
/-! DEFINITION. What an implementation fixes (the open parameters XLEN and LENW, spec/00_scope.md
R7 and R8) and the free values of the model (the answers of the RNG oracle, spec/43_miller_rabin.md
R143). -/

namespace Sys2Proof

/-- The open parameters. `unbounded` is XLEN = LENW = infinity; `bounded x l` is XLEN = 8 + x and
LENW = 3 + l. The constraints XLEN >= 8 and LENW >= 3 of R7 and R8 hold of every value of the type,
and a finite XLEN beside an infinite LENW (or the reverse) cannot be written down, which is the
treatment spec/93_implementation_defined.md U3 asks for. -/
inductive Params where
  | unbounded
  | bounded (xlenOver8 lenwOver3 : Nat)
  deriving DecidableEq, Repr

/-- FREE VALUE (log entry 5). The answer of the RNG oracle to draw number `k` when the environment
has fixed none: R143 treats each draw as a free value. It has no body, so no proof can know it. -/
opaque Config.freeDraw : Nat → Int

end Sys2Proof
end

