-- ==== Sys2Proof/Machine/Arith.lean ====
section
/-! DEFINITION. The arithmetic primitives of spec/00_scope.md R10 to R13, the ranges of R7 and R8,
the letters of spec/44_codec.md R171 and the range of a draw (R14, spec/43_miller_rabin.md R143).
Every value is an exact integer (R10). `%` and `/` on `Int` with a positive divisor are the floor
`mod` and `div` of R11. -/

namespace Sys2Proof.Machine

/-- `mulmod(a, b, n)`: the exact product, reduced (R12). -/
def mulmod (a b n : Int) : Int := (a * b) % n

/-- `bitlen(c)`: 0 for c = 0, else the L with 2^(L-1) <= c < 2^L (R13). -/
def bitlen (c : Int) : Nat := if c ≤ 0 then 0 else Nat.log2 c.toNat + 1

/-- `bit(c, i)` (R13). -/
def bit (c : Int) (i : Nat) : Int := (c / 2 ^ i) % 2

/-- `fits(v)`: v lies in the range of an XLEN-bit two's-complement register (R7, R13). -/
def fits (p : Params) (v : Int) : Bool :=
  match p with
  | .unbounded => true
  | .bounded x _ => decide (-(2 ^ (x + 7) : Int) ≤ v) && decide (v < 2 ^ (x + 7))

/-- `n <= LMAX` with LMAX = 2^LENW - 1 (R8): n is a value LEN can hold and a cell index TXT has. -/
def upToLmax (p : Params) (n : Nat) : Bool :=
  match p with
  | .unbounded => true
  | .bounded _ l => decide (n < 2 ^ (l + 3))

/-- What a host write of `v` leaves in LEN: the low LENW bits (spec/10_state.md R28,
spec/20_memory.md R54); `v` itself when LENW is infinite. -/
def lenImage (p : Params) (v : Int) : Nat :=
  match p with
  | .unbounded => v.toNat
  | .bounded _ l => (v % 2 ^ (l + 3)).toNat

/-- A cell value is a lowercase letter exactly when 0x61 <= ch <= 0x7A (R171). -/
def isLower (ch : Byte) : Bool := decide (0x61 ≤ ch.toNat) && decide (ch.toNat ≤ 0x7A)

/-- `index(ch) = ch - 0x61` (R171). -/
def letterIndex (ch : Byte) : Int := (ch.toNat : Int) - 0x61

/-- `chr(d) = 0x61 + d` for 0 <= d <= 25 (R171). -/
def chr (d : Int) : Byte := BitVec.ofNat 8 (0x61 + d.toNat)

/-- The value `Draw(lo, hi)` takes from an answer `v` of the oracle, for lo < hi: `v` itself when
lo <= v < hi, and always a value in [lo, hi) (R143). -/
def drawIn (lo hi v : Int) : Int := lo + (v - lo) % (hi - lo)

end Sys2Proof.Machine
end

