-- ==== Sys2Proof/Machine/Flags.lean ====
section
/-! DEFINITION. The only flags of the block: the fields of STATUS (spec/10_state.md R25 to R27) and
the codes of the error kinds (spec/60_exceptions.md R241). There is no carry, zero, sign or overflow
flag (R27). -/

namespace Sys2Proof.Machine

/-- The error kinds (R241). -/
inductive ErrKind where
  | domainError
  | noInverseError
  | invalidCharacterError
  | capacityError
  | illegalCommand
  deriving DecidableEq, Repr

/-- The code of a kind in STATUS.ERR (R241). -/
def errCode (k : ErrKind) : BitVec 3 :=
  match k with
  | .domainError => 1#3
  | .noInverseError => 2#3
  | .invalidCharacterError => 3#3
  | .capacityError => 4#3
  | .illegalCommand => 5#3

/-- The kind a code of STATUS.ERR stands for; 0 is no error, 6 and 7 never occur (R25, R241). -/
def errOfCode (c : BitVec 3) : Option ErrKind :=
  match c with
  | 1#3 => some .domainError
  | 2#3 => some .noInverseError
  | 3#3 => some .invalidCharacterError
  | 4#3 => some .capacityError
  | 5#3 => some .illegalCommand
  | _ => none

/-- The STATUS image of the three fields; bits 7:5 are 0 (R25). -/
def statusOf (busy done : Bool) (err : BitVec 3) : Byte :=
  0#3 ++ err ++ BitVec.ofBool done ++ BitVec.ofBool busy

/-- STATUS.BUSY, bit 0. -/
def statusBusy (st : Byte) : Bool := st.getLsbD 0

/-- STATUS.DONE, bit 1. -/
def statusDone (st : Byte) : Bool := st.getLsbD 1

/-- STATUS.ERR, bits 4:2. -/
def statusErr (st : Byte) : BitVec 3 := st.extractLsb' 2 3

/-- STATUS bits 7:5, reserved. -/
def statusReserved (st : Byte) : BitVec 3 := st.extractLsb' 5 3

end Sys2Proof.Machine
end

