-- ==== Sys2Proof/Machine/HostOp.lean ====
section
/-! DEFINITION. The steps of the agents other than SEQ (spec/00_scope.md R6): the host's accesses of
spec/20_memory.md R53 to R56 and the reset event of spec/70_reset_and_hazards.md R270. -/

namespace Sys2Proof.Machine

/-- One host access. -/
inductive HostOp where
  /-- `HostRead(r)` (R53). -/
  | readReg (r : RegNum)
  /-- `HostWrite(r, v)` (R54). -/
  | writeReg (r : RegNum) (v : Int)
  /-- `HostTxtRead(i)` (R56). -/
  | readTxt (i : Nat)
  /-- `HostTxtWrite(i, v)` (R56). -/
  | writeTxt (i : Nat) (v : Int)
  deriving DecidableEq, Repr

/-- The integer of a `HostWrite` fits, and is not negative when it goes to an unbounded LEN (R54). -/
def HostOp.valueOk (p : Params) (r : RegNum) (v : Int) : Bool :=
  fits p v && (decide (0 ≤ v) || decide (r ≠ 0xA#4) || decide (p ≠ .unbounded))

/-- Whose step comes next in the total order of all steps (R62). -/
inductive Turn where
  /-- SEQ takes a step, if it has one. -/
  | seq
  /-- HOST makes this access. -/
  | host (op : HostOp)
  /-- The reset event. -/
  | reset
  deriving DecidableEq, Repr

end Sys2Proof.Machine
end

