-- ==== Sys2Proof/Machine/State.lean ====
section
/-! DEFINITION. The whole state of one block instance (spec/10_state.md R20 to R33), its value after
reset (R40), and the reasons a step can stop. -/

namespace Sys2Proof.Machine

/-- The sequencer's control state (R33). -/
inductive Phase where
  | idle
  | start
  | pmLoop
  | xgLoop
  | miLoop
  | mrDecomp
  | mrTrial
  | mrExp
  | mrCheck
  | enScan
  | enAcc
  | deLoop
  deriving DecidableEq, Repr

/-- The working registers w.* (R30), each under the spec's own name. The counts i, k, j and l are
never negative under the rules and are naturals (log entry 13). -/
structure Working where
  cmd : Byte
  x : Int
  c : Int
  n : Int
  z : Int
  i : Nat
  r0 : Int
  r1 : Int
  s0 : Int
  s1 : Int
  t0 : Int
  t1 : Int
  k : Nat
  m : Int
  a : Int
  b : Int
  j : Nat
  rem : Int
  hostbase : Bool
  v : Int
  l : Nat
  s : List Byte
  deriving DecidableEq, Repr

/-- Every working register 0, w.hostbase false, w.s empty (spec/45_system.md R200). -/
def Working.zero : Working :=
  { cmd := 0#8, x := 0, c := 0, n := 0, z := 0, i := 0, r0 := 0, r1 := 0, s0 := 0, s1 := 0,
    t0 := 0, t1 := 0, k := 0, m := 0, a := 0, b := 0, j := 0, rem := 0, hostbase := false,
    v := 0, l := 0, s := [] }

/-- The text space TXT (R29, spec/20_memory.md R51). A cell that `cells` does not list reads as
`fill`: no value after reset (nothing has written it, log entry 4), 0 after WIPE (R200). `cells` has
one canonical form (`Text.wf`): indices strictly rise and no entry equals `fill`. -/
structure Text where
  fill : Option Byte
  cells : List Host.Cell
  deriving DecidableEq, Repr

/-- Which argument and result registers have been written since reset (R40,
spec/70_reset_and_hazards.md R273). The model's own record: no step reads it (log entry 2). -/
structure Written where
  a0 : Bool
  a1 : Bool
  a2 : Bool
  r0 : Bool
  r1 : Bool
  r2 : Bool
  deriving DecidableEq, Repr

/-- Nothing written. -/
def Written.none : Written :=
  { a0 := false, a1 := false, a2 := false, r0 := false, r1 := false, r2 := false }

/-- Everything written. -/
def Written.all : Written :=
  { a0 := true, a1 := true, a2 := true, r0 := true, r1 := true, r2 := true }

/-- The state. `params`, `written`, `turns`, `draws` and `drawCount` are the model's own fields (log
entries 1, 2, 5 and 6); the others are the spec's (R20). CMD holds no value (R24) and has no field. -/
structure State where
  params : Params
  a0 : Int
  a1 : Int
  a2 : Int
  r0 : Int
  r1 : Int
  r2 : Int
  len : Nat
  txt : Text
  status : Byte
  phase : Phase
  w : Working
  written : Written
  turns : List Turn
  draws : List Int
  drawCount : Nat
  deriving DecidableEq, Repr

/-- Why the machine stops with a fault. -/
inductive Fault where
  /-- Raised by an ENCODE step that reads a TXT cell nothing has written since reset
  (spec/93_implementation_defined.md U1), and named by the host's `rdtxt` that would yield such a cell
  (U2). Safe: the spec gives no value to go on with. -/
  | unwrittenText (index : Nat)
  /-- Raised by an access to a TXT cell with index above LMAX, which does not exist (R51); in a
  state that a run reaches only a host access can raise it. Safe: no such access can be expressed. -/
  | noSuchCell (index : Nat)
  /-- Raised by a draw from an empty range (U8: the drawing agent is stuck). Safe: it cannot happen in
  a state that a run reaches. -/
  | emptyDraw
  deriving DecidableEq, Repr

/-- Why a step has no meaning. -/
inductive Refusal where
  /-- Raised by exec's arm of a command that has no meaning yet; no command is in that case. Safe. -/
  | notModelled (mnemonic : String)
  /-- Raised by a host write whose integer does not fit the register (spec/20_memory.md R54: a host
  cannot write such a value). Safe: the block is never offered it. -/
  | hostValueUnfit (r : RegNum) (v : Int)
  deriving DecidableEq, Repr

/-- What one step answers. -/
abbrev StepOutcome := Host.Outcome State Fault Refusal

/-- The state right after reset of a block with parameters `p` (R40): STATUS 0, phase IDLE, LEN 0;
every register the spec leaves unspecified at the value the log names (entries 2 and 3), TXT with
no value in any cell (entry 4), and nothing pending from outside (entries 5 and 6). -/
def State.resetWith (p : Params) : State :=
  { params := p
    a0 := 0, a1 := 0, a2 := 0
    r0 := 0, r1 := 0, r2 := 0
    len := 0
    txt := { fill := none, cells := [] }
    status := 0x00#8
    phase := .idle
    w := Working.zero
    written := Written.none
    turns := []
    draws := []
    drawCount := 0 }

/-- The state right after reset, with unbounded registers and text (log entry 1). -/
def State.reset : State := State.resetWith .unbounded

end Sys2Proof.Machine
end

