-- ==== Sys2Proof/Machine/Ops.lean ====
section
/-! DEFINITION. The named operations on the text space and on the state, and the
three shared transitions of every command: its start (spec/10_state.md R35), its completion and its
error completion (spec/00_scope.md R14, spec/60_exceptions.md R247). There is no return from an error
(R249): the next command start clears it. -/

namespace Sys2Proof.Machine

/-- The entry of cell `i` in a list of cells, if it has one. -/
def lookupCell (cells : List Host.Cell) (i : Nat) : Option Byte :=
  match cells with
  | [] => none
  | (j, b) :: rest => if i = j then some b else lookupCell rest i

/-- The cells with the entry (i, b) put in its place, strictly rising. -/
def insertCell (cells : List Host.Cell) (i : Nat) (b : Byte) : List Host.Cell :=
  match cells with
  | [] => [(i, b)]
  | (j, c) :: rest =>
    if i < j then (i, b) :: (j, c) :: rest
    else if i = j then (i, b) :: rest
    else (j, c) :: insertCell rest i b

/-- The cells without an entry of index `i`. -/
def eraseCell (cells : List Host.Cell) (i : Nat) : List Host.Cell :=
  match cells with
  | [] => []
  | (j, c) :: rest => if i = j then rest else (j, c) :: eraseCell rest i

/-- Every index of the list lies above `lo`, and they strictly rise. -/
def risesAbove (lo : Nat) (cells : List Host.Cell) : Bool :=
  match cells with
  | [] => true
  | (j, _) :: rest => decide (lo < j) && risesAbove j rest

/-- Indices strictly rise. -/
def rises (cells : List Host.Cell) : Bool :=
  match cells with
  | [] => true
  | (j, _) :: rest => risesAbove j rest

/-- The value of cell `i`, or none where nothing has written it (`MemRead`, R14). -/
def Text.read (t : Text) (i : Nat) : Option Byte :=
  match lookupCell t.cells i with
  | some b => some b
  | none => t.fill

/-- Write cell `i`, keeping the canonical form (`MemWrite`, R14). -/
def Text.write (t : Text) (i : Nat) (b : Byte) : Text :=
  { t with cells := if t.fill = some b then eraseCell t.cells i else insertCell t.cells i b }

/-- Write a string into the cells from index `i` upward (spec/44_codec.md R182). -/
def Text.writeString (t : Text) (i : Nat) (str : List Byte) : Text :=
  match str with
  | [] => t
  | b :: rest => (t.write i b).writeString (i + 1) rest

/-- Every cell 0 (spec/45_system.md R200). -/
def Text.zeroed : Text := { fill := some 0#8, cells := [] }

/-- The canonical form: indices strictly rise, and no entry equals what an unlisted cell reads as. -/
def Text.wf (t : Text) : Bool :=
  rises t.cells && t.cells.all (fun c => decide (t.fill ≠ some c.2))

/-- Every listed cell exists: its index is at most LMAX (spec/20_memory.md R51). -/
def Text.within (p : Params) (t : Text) : Bool := t.cells.all (fun c => upToLmax p c.1)

/-- Write of LEN (R28). -/
def setLen (n : Nat) (s : State) : State := { s with len := n }

/-- Write of the text space. -/
def setTxt (t : Text) (s : State) : State := { s with txt := t }

/-- Write of the three fields of STATUS. -/
def setStatus (busy done : Bool) (err : BitVec 3) (s : State) : State :=
  { s with status := statusOf busy done err }

/-- `phase <- P` (R14). -/
def setPhase (p : Phase) (s : State) : State := { s with phase := p }

/-- Write of working registers (R30). -/
def setW (w : Working) (s : State) : State := { s with w := w }

/-- The turn at the head of the order of steps is taken (log entry 6). -/
def dropTurn (s : State) : State := { s with turns := s.turns.tail }

/-- A command starts: the code is latched, BUSY set, DONE and ERR cleared, phase START (R35). -/
def startCommand (k : Byte) (s : State) : State :=
  setPhase .start (setStatus true false 0#3 (setW { s.w with cmd := k } s))

/-- `complete`: the command ends without error (R14). -/
def complete (s : State) : State := setPhase .idle (setStatus false true 0#3 s)

/-- `raise K`: the command ends with error kind K, and nothing but STATUS and phase changes (R14,
R247). The one operation by which every error of the block is taken. -/
def raise (k : ErrKind) (s : State) : State := setPhase .idle (setStatus false true (errCode k) s)

end Sys2Proof.Machine
end

