-- ==== Sys2Proof/Machine/Operands.lean ====
section
/-! DEFINITION. The operands of the commands. A command has no operand field (spec/30_encoding.md
R71): it reads the argument registers of spec/10_state.md R21, LEN and TXT cells (ENCODE), and the
answers of the RNG oracle (MRTEST, spec/43_miller_rabin.md R143); it writes the result registers of
R22, or LEN and TXT. Integer operands are used as the signed values the registers hold. -/

namespace Sys2Proof.Machine

/-- Write of argument register A0 (R21). -/
def setA0 (v : Int) (s : State) : State := { s with a0 := v, written := { s.written with a0 := true } }

/-- Write of argument register A1 (R21). -/
def setA1 (v : Int) (s : State) : State := { s with a1 := v, written := { s.written with a1 := true } }

/-- Write of argument register A2 (R21). -/
def setA2 (v : Int) (s : State) : State := { s with a2 := v, written := { s.written with a2 := true } }

/-- Write of result register R0 (R22). -/
def setR0 (v : Int) (s : State) : State := { s with r0 := v, written := { s.written with r0 := true } }

/-- Write of result register R1 (R22). -/
def setR1 (v : Int) (s : State) : State := { s with r1 := v, written := { s.written with r1 := true } }

/-- Write of result register R2 (R22). -/
def setR2 (v : Int) (s : State) : State := { s with r2 := v, written := { s.written with r2 := true } }

/-- A read of a cell by SEQ (`MemRead(TXT+i, 1)`): it faults where the cell does not exist and where
nothing has written it (log entry 4). -/
def readCell (s : State) (i : Nat) : Except Fault Byte :=
  if upToLmax s.params i then
    match s.txt.read i with
    | some b => .ok b
    | none => .error (.unwrittenText i)
  else .error (.noSuchCell i)

/-- The oracle's answer to draw `k` counted from here: one the environment has fixed, else a free
value (R143, log entry 5). -/
def answer (s : State) (k : Nat) : Int := s.draws.getD k (Config.freeDraw (s.drawCount + k))

/-- `k` draws have been made. -/
def afterDraws (k : Nat) (s : State) : State :=
  { s with draws := s.draws.drop k, drawCount := s.drawCount + k }

end Sys2Proof.Machine
end

