-- ==== Sys2Proof/Machine/HostPort.lean ====
section
/-! DEFINITION. What HOST and RESET can do to the block (spec/20_memory.md R52 to R56,
spec/10_state.md R35, spec/70_reset_and_hazards.md R270). Operands of the host side are whole
registers and single TXT cells (R59, R60); a host write while BUSY = 1 is dropped (R55). -/

namespace Sys2Proof.Machine

/-- STATUS.BUSY. -/
def isBusy (s : State) : Bool := statusBusy s.status

/-- `HostRead(r)` (R52, R53): the whole current value; CMD and reserved numbers read 0. The read
changes no state, so it is a function of the state (R60). -/
def hostRead (s : State) (r : RegNum) : Int :=
  match r with
  | 0x0#4 => s.a0
  | 0x1#4 => s.a1
  | 0x2#4 => s.a2
  | 0x4#4 => s.r0
  | 0x5#4 => s.r1
  | 0x6#4 => s.r2
  | 0x9#4 => (s.status.toNat : Int)
  | 0xA#4 => (s.len : Int)
  | _ => 0

/-- `HostTxtRead(i)` (R56): the cell's value; none where nothing has written it since reset, of which
no claim may depend (spec/93_implementation_defined.md U2). -/
def hostReadTxt (s : State) (i : Nat) : Option Byte := s.txt.read i

/-- `HostWrite(r, v)` while BUSY = 0 (R54): the registers a host may write, the command start, and
nothing for every other number (R52). -/
def hostWriteIdle (s : State) (r : RegNum) (v : Int) : State :=
  match r with
  | 0x0#4 => setA0 v s
  | 0x1#4 => setA1 v s
  | 0x2#4 => setA2 v s
  | 0x8#4 => startCommand (BitVec.ofInt 8 v) s
  | 0xA#4 => setLen (lenImage s.params v) s
  | _ => s

/-- `HostWrite(r, v)` (R54, R55). -/
def hostWrite (s : State) (r : RegNum) (v : Int) : State :=
  if isBusy s then s else hostWriteIdle s r v

/-- `HostTxtWrite(i, v)` (R55, R56). -/
def hostWriteTxt (s : State) (i : Nat) (v : Int) : State :=
  if isBusy s then s else setTxt (s.txt.write i (BitVec.ofInt 8 v)) s

/-- One host step. A value that does not fit is refused (R54) and an index above LMAX faults (R51). -/
def hostStep (op : HostOp) (s : State) : StepOutcome :=
  match op with
  | .readReg _ => .next s
  | .writeReg r v =>
    if HostOp.valueOk s.params r v then .next (hostWrite s r v) else .refused (.hostValueUnfit r v)
  | .readTxt i => if upToLmax s.params i then .next s else .fault (.noSuchCell i)
  | .writeTxt i v => if upToLmax s.params i then .next (hostWriteTxt s i v) else .fault (.noSuchCell i)

/-- The reset event (R270): every register of the block as R40 says, at any time. What is outside the
block (its parameters, the order of later steps, the oracle's answers) is not reset (log entry 10). -/
def resetEvent (s : State) : State :=
  { State.resetWith s.params with turns := s.turns, draws := s.draws, drawCount := s.drawCount }

end Sys2Proof.Machine
end

