-- ==== Sys2Proof/Syntax.lean ====
section
/-! DEFINITION. The eight commands of spec/30_encoding.md R72, one constructor per row of
spec/opcode_table.json. A command has no operand field (R70, R71): every operand is implicit. -/

namespace Sys2Proof

/-- A command of the block. -/
inductive Instr where
  | powmod
  | xgcd
  | modinv
  | mrwit
  | mrtest
  | encode
  | decode
  | wipe
  deriving DecidableEq, Repr

end Sys2Proof
end

