-- ==== Sys2Proof/Decode.lean ====
section
/-! DEFINITION. The command decoder and encoder (spec/30_encoding.md R72 to R75). Decoding matches
on all 8 bits; the 248 codes of R74 decode to no command. -/

namespace Sys2Proof

/-- The command a code names (R72, R73), or none for an illegal code (R74). -/
def decode (k : Byte) : Option Instr :=
  match k with
  | 0x01#8 => some .powmod
  | 0x02#8 => some .xgcd
  | 0x03#8 => some .modinv
  | 0x04#8 => some .mrwit
  | 0x05#8 => some .mrtest
  | 0x06#8 => some .encode
  | 0x07#8 => some .decode
  | 0x08#8 => some .wipe
  | _ => none

/-- The code of a command (R72). -/
def encode (i : Instr) : Byte :=
  match i with
  | .powmod => 0x01#8
  | .xgcd => 0x02#8
  | .modinv => 0x03#8
  | .mrwit => 0x04#8
  | .mrtest => 0x05#8
  | .encode => 0x06#8
  | .decode => 0x07#8
  | .wipe => 0x08#8

/-- The command byte made of the low `nbits` bits of `w`, bit 0 least significant (R14, R70): the one
format is 8 bits long, so there is one byte and no further word. -/
def commandByte (nbits w : Nat) : Byte := BitVec.ofNat 8 (w % 2 ^ nbits)

/-- The command the decoder reads from an instruction whose bits are `w`. -/
def decodeTableWord (nbits w : Nat) : Option Instr := decode (commandByte nbits w)

end Sys2Proof
end

