-- ==== Sys2Proof/Machine/Codec.lean ====
section
/-! DEFINITION. ENCODE and DECODE, the base-26 codec (spec/44_codec.md R170 to R187). -/

namespace Sys2Proof.Machine

/-- ENCODE, start step (R173). -/
def encodeStart (s : State) : StepOutcome :=
  .next (setPhase .enScan (setW { s.w with l := s.len, i := 0 } s))

/-- ENCODE, scan step (R174). -/
def encodeScan (s : State) : StepOutcome :=
  if s.w.i = s.w.l then .next (setPhase .enAcc (setW { s.w with i := 0, v := 0 } s))
  else
    match readCell s s.w.i with
    | .error f => .fault f
    | .ok ch =>
      if isLower ch then .next (setW { s.w with i := s.w.i + 1 } s)
      else .next (raise .invalidCharacterError s)

/-- ENCODE, accumulate step (R175). -/
def encodeAcc (s : State) : StepOutcome :=
  if s.w.i = s.w.l then
    if fits s.params s.w.v then .next (complete (setR0 s.w.v s))
    else .next (raise .capacityError s)
  else
    match readCell s s.w.i with
    | .error f => .fault f
    | .ok ch => .next (setW { s.w with v := s.w.v * 26 + letterIndex ch, i := s.w.i + 1 } s)

/-- DECODE, start step (R180). -/
def decodeStart (s : State) : StepOutcome :=
  if s.a0 < 0 then .next (raise .domainError s)
  else .next (setPhase .deLoop (setW { s.w with v := s.a0, s := [] } s))

/-- DECODE, completion write (R182): all cells and LEN in one step. -/
def decodeFinish (s : State) : StepOutcome :=
  if upToLmax s.params s.w.s.length then
    .next (complete (setLen s.w.s.length (setTxt (s.txt.writeString 0 s.w.s) s)))
  else .next (raise .capacityError s)

/-- DECODE, loop step (R181). -/
def decodeLoop (s : State) : StepOutcome :=
  if s.w.v = 0 then decodeFinish s
  else .next (setW { s.w with s := chr (s.w.v % 26) :: s.w.s, v := s.w.v / 26 } s)

end Sys2Proof.Machine
end

