-- ==== Sys2Proof/Machine/Gcd.lean ====
section
/-! DEFINITION. XGCD and MODINV, the extended-gcd unit (spec/42_extended_gcd.md R110 to R128). -/

namespace Sys2Proof.Machine

/-- XGCD, start step (R111, R112). -/
def xgcdStart (s : State) : StepOutcome :=
  if s.a1 < s.a0 ∧ 0 < s.a1 then
    .next (setPhase .xgLoop
      (setW { s.w with r0 := s.a0, r1 := s.a1, s0 := 1, s1 := 0, t0 := 0, t1 := 1 } s))
  else .next (raise .domainError s)

/-- One division of the remainder recurrence with both coefficients; the three pairs are assigned at
once with the same quotient (R113). -/
def xgcdDivide (w : Working) : Working :=
  let q := w.r0 / w.r1
  { w with
    r0 := w.r1, r1 := w.r0 - q * w.r1
    s0 := w.s1, s1 := w.s0 - q * w.s1
    t0 := w.t1, t1 := w.t0 - q * w.t1 }

/-- XGCD, loop step (R113). -/
def xgcdLoop (s : State) : StepOutcome :=
  if s.w.r1 = 0 then .next (complete (setR2 s.w.t0 (setR1 s.w.s0 (setR0 s.w.r0 s))))
  else .next (setW (xgcdDivide s.w) s)

/-- MODINV, start step (R121 check 1, R122). -/
def modinvStart (s : State) : StepOutcome :=
  if s.a0 < s.a1 ∧ 0 < s.a0 then
    .next (setPhase .miLoop
      (setW { s.w with n := s.a1, r0 := s.a1, r1 := s.a0, t0 := 0, t1 := 1 } s))
  else .next (raise .domainError s)

/-- One division of the remainder recurrence with the coefficient of a alone (R123). -/
def modinvDivide (w : Working) : Working :=
  let q := w.r0 / w.r1
  { w with
    r0 := w.r1, r1 := w.r0 - q * w.r1
    t0 := w.t1, t1 := w.t0 - q * w.t1 }

/-- MODINV, loop step (R121 check 2, R123). -/
def modinvLoop (s : State) : StepOutcome :=
  if s.w.r1 = 0 then
    if s.w.r0 ≠ 1 then .next (raise .noInverseError s)
    else .next (complete (setR0 (s.w.t0 % s.w.n) s))
  else .next (setW (modinvDivide s.w) s)

end Sys2Proof.Machine
end

