-- ==== Sys2Proof/Machine/Modexp.lean ====
section
/-! DEFINITION. POWMOD, the modular exponentiator (spec/41_modexp.md R90 to R97). -/

namespace Sys2Proof.Machine

/-- One bit of the exponent: the square and the conditional multiply (R93). The Miller-Rabin kernel
runs the same step on its own operands (R97, spec/43_miller_rabin.md R148). -/
def expStep (w : Working) : Working :=
  let i := w.i - 1
  let square := mulmod w.z w.z w.n
  { w with i := i, z := if bit w.c i = 1 then mulmod square w.x w.n else square }

/-- POWMOD, start step (R91, R92). -/
def powmodStart (s : State) : StepOutcome :=
  if s.a2 ≤ 1 then .next (raise .domainError s)
  else if s.a1 < 0 then .next (raise .domainError s)
  else .next (setPhase .pmLoop
    (setW { s.w with x := s.a0, c := s.a1, n := s.a2, z := 1, i := bitlen s.a1 } s))

/-- POWMOD, loop step (R93). -/
def powmodLoop (s : State) : StepOutcome :=
  if s.w.i = 0 then .next (complete (setR0 s.w.z s))
  else .next (setW (expStep s.w) s)

end Sys2Proof.Machine
end

