-- ==== Sys2Proof/Machine/MillerRabin.lean ====
section
/-! DEFINITION. MRWIT and MRTEST, the Miller-Rabin primality kernel (spec/43_miller_rabin.md R140 to
R155). -/

namespace Sys2Proof.Machine

/-- MRWIT, start step (R144). -/
def mrwitStart (s : State) : StepOutcome :=
  if s.a0 = 2 then .next (complete (setR0 1 s))
  else if s.a0 < 2 ∨ s.a0 % 2 = 0 then .next (complete (setR0 0 s))
  else if ¬ (1 ≤ s.a1 ∧ s.a1 < s.a0) then .next (raise .domainError s)
  else .next (setPhase .mrDecomp
    (setW { s.w with n := s.a0, a := s.a1, hostbase := true, rem := 1, m := s.a0 - 1, k := 0 } s))

/-- MRTEST, start step (R145). -/
def mrtestStart (s : State) : StepOutcome :=
  if s.a1 < 0 then .next (raise .domainError s)
  else if s.a0 = 2 then .next (complete (setR0 1 s))
  else if s.a0 < 2 ∨ s.a0 % 2 = 0 then .next (complete (setR0 0 s))
  else .next (setPhase .mrDecomp
    (setW { s.w with n := s.a0, hostbase := false, rem := s.a1, m := s.a0 - 1, k := 0 } s))

/-- Decomposition step (R146). -/
def mrDecompStep (s : State) : StepOutcome :=
  if s.w.m % 2 = 0 then .next (setW { s.w with m := s.w.m / 2, k := s.w.k + 1 } s)
  else .next (setPhase .mrTrial s)

/-- A trial begins with base `a`: the operands of the inner exponentiation are latched (R147). -/
def mrBegin (a : Int) (s : State) : State :=
  setPhase .mrExp
    (setW { s.w with rem := s.w.rem - 1, a := a, x := a, c := s.w.m, z := 1, i := bitlen s.w.m } s)

/-- Trial-begin step (R147): the only step of the block that takes a draw. A draw from an empty range
has no answer (spec/93_implementation_defined.md U8). -/
def mrTrialStep (s : State) : StepOutcome :=
  if s.w.rem = 0 then .next (complete (setR0 1 s))
  else if s.w.hostbase then .next (mrBegin s.w.a s)
  else if 1 < s.w.n then .next (mrBegin (drawIn 1 s.w.n (answer s 0)) (afterDraws 1 s))
  else .fault .emptyDraw

/-- Exponentiation step (R148). -/
def mrExpStep (s : State) : StepOutcome :=
  if s.w.i = 0 then .next (setPhase .mrCheck (setW { s.w with b := s.w.z, j := 0 } s))
  else .next (setW (expStep s.w) s)

/-- Check-and-square step (R149). `w.j = w.k - 1` is written without a subtraction. -/
def mrCheckStep (s : State) : StepOutcome :=
  if s.w.j = 0 ∧ s.w.b = 1 then .next (setPhase .mrTrial s)
  else if s.w.b = s.w.n - 1 then .next (setPhase .mrTrial s)
  else if s.w.j + 1 = s.w.k then .next (complete (setR0 0 s))
  else .next (setW { s.w with b := mulmod s.w.b s.w.b s.w.n, j := s.w.j + 1 } s)

end Sys2Proof.Machine
end

