-- ==== Sys2Proof/Machine/System.lean ====
section
/-! DEFINITION. WIPE (spec/45_system.md R200, R201) and the illegal command codes
(spec/30_encoding.md R74, spec/60_exceptions.md R245). -/

namespace Sys2Proof.Machine

/-- Every data register, TXT cell and working register 0 (R200). -/
def wiped (s : State) : State :=
  { s with
    a0 := 0, a1 := 0, a2 := 0
    r0 := 0, r1 := 0, r2 := 0
    len := 0
    txt := Text.zeroed
    w := Working.zero
    written := Written.all }

/-- WIPE: its start step is the whole command (R200). -/
def wipeStart (s : State) : StepOutcome := .next (complete (wiped s))

/-- The start step of a code that names no command (R74, R245). -/
def illegalStart (s : State) : StepOutcome := .next (raise .illegalCommand s)

end Sys2Proof.Machine
end

