-- ==== Sys2Proof/Machine/Commands.lean ====
section
/-! DEFINITION. The meaning of each command: what one SEQ step of it does. In phase START it is the
command's own start step (spec/30_encoding.md R73); in a loop phase it is the step of that phase
(spec/10_state.md R33, R34); in phase IDLE SEQ has no step and nothing changes (log entry 8). -/

namespace Sys2Proof.Machine

/-- One SEQ step of a command whose start step is `start` (R33, R34). -/
def commandStep (start : State → StepOutcome) (s : State) : StepOutcome :=
  match s.phase with
  | .idle => .next s
  | .start => start s
  | .pmLoop => powmodLoop s
  | .xgLoop => xgcdLoop s
  | .miLoop => modinvLoop s
  | .mrDecomp => mrDecompStep s
  | .mrTrial => mrTrialStep s
  | .mrExp => mrExpStep s
  | .mrCheck => mrCheckStep s
  | .enScan => encodeScan s
  | .enAcc => encodeAcc s
  | .deLoop => decodeLoop s

/-- POWMOD (R90 to R95). -/
def execPowmod (s : State) : StepOutcome := commandStep powmodStart s

/-- XGCD (R110 to R117). -/
def execXgcd (s : State) : StepOutcome := commandStep xgcdStart s

/-- MODINV (R120 to R126). -/
def execModinv (s : State) : StepOutcome := commandStep modinvStart s

/-- MRWIT (R141, R144, R146 to R149). -/
def execMrwit (s : State) : StepOutcome := commandStep mrwitStart s

/-- MRTEST (R142, R145 to R149). -/
def execMrtest (s : State) : StepOutcome := commandStep mrtestStart s

/-- ENCODE (R172 to R177). -/
def execEncode (s : State) : StepOutcome := commandStep encodeStart s

/-- DECODE (R179 to R185). -/
def execDecode (s : State) : StepOutcome := commandStep decodeStart s

/-- WIPE (R200, R201). -/
def execWipe (s : State) : StepOutcome := commandStep wipeStart s

/-- A code that names no command (R74). -/
def execIllegal (s : State) : StepOutcome := commandStep illegalStart s

end Sys2Proof.Machine
end

