-- ==== Sys2Proof/Machine/Sequencer.lean ====
section
/-! DEFINITION. One step of SEQ (spec/10_state.md R34, spec/30_encoding.md R73). -/

namespace Sys2Proof.Machine

/-- The step of SEQ: the command latched in w.cmd, or the illegal-code step (R73, R74). -/
def seqStep (s : State) : StepOutcome :=
  match decode s.w.cmd with
  | some i => exec i s
  | none => execIllegal s

end Sys2Proof.Machine
end

