-- ==== Sys2Proof/Machine/Step.lean ====
section
/-! DEFINITION. One step of the machine: the step of the agent whose turn it is (spec/00_scope.md R6,
spec/20_memory.md R62). When no turn is pending, SEQ runs. -/

namespace Sys2Proof.Machine

/-- One step of the machine. -/
def step (s : State) : Host.Outcome State Fault Refusal :=
  match s.turns with
  | [] => seqStep s
  | .seq :: _ => seqStep (dropTurn s)
  | .host op :: _ => hostStep op (dropTurn s)
  | .reset :: _ => .next (resetEvent (dropTurn s))

/-- The state in which the command whose bits are `w` has just been written to CMD and SEQ moves next:
the CMD write of R35, with no other agent's turn before SEQ's (log entry 9). -/
def State.withFetchWord (s : State) (nbits w : Nat) : State :=
  { startCommand (commandByte nbits w) s with turns := [] }

end Sys2Proof.Machine
end

