-- ==== Sys2Proof/Machine/HostSequences.lean ====
section
/-! DEFINITION. The host pseudo-operations (spec/30_encoding.md R76, R77, spec/46_host_sequences.md
R210 to R222): fixed programs of the HOST agent. Each host access and each SEQ step in them is a
`step` of the machine. The host's own draws are a list of oracle answers; a loop that has used them
all stands at its cancellation point (R212). -/

namespace Sys2Proof.Machine

/-- How a host program ends. -/
inductive HostResult (α : Type) where
  /-- It returns a value. -/
  | value (a : α) (s : State)
  /-- It fails with an error kind, of the block or of the host's own checks (R210). -/
  | failed (k : ErrKind) (s : State)
  /-- Its loop has used every answer given, or a wait every step given: nothing is returned. -/
  | unfinished (s : State)
  /-- It draws from an empty range (spec/93_implementation_defined.md U5, U8). -/
  | stuck (s : State)
  /-- A step of the machine stopped. -/
  | stopped (o : StepOutcome)

/-- Goes on after one step of the machine. -/
def afterStep {α : Type} (o : StepOutcome) (f : State → HostResult α) : HostResult α :=
  match o with
  | .next s => f s
  | .fault r => .stopped (.fault r)
  | .refused r => .stopped (.refused r)

/-- Goes on after a host program. -/
def andThen {α β : Type} (x : HostResult α) (f : α → State → HostResult β) : HostResult β :=
  match x with
  | .value a s => f a s
  | .failed k s => .failed k s
  | .unfinished s => .unfinished s
  | .stuck s => .stuck s
  | .stopped o => .stopped o

/-- The host makes one access. -/
def hostDo (op : HostOp) (s : State) : StepOutcome := step { s with turns := [.host op] }

/-- SEQ takes one step. -/
def seqDo (s : State) : StepOutcome := step { s with turns := [.seq] }

/-- `wr r, v` (R76). -/
def wr (r : RegNum) (v : Int) (s : State) : HostResult Unit :=
  afterStep (hostDo (.writeReg r v) s) (.value ())

/-- The cell writes of `txt` (R76), from cell `i` upward. -/
def wrCells (i : Nat) (str : List Byte) (s : State) : HostResult Unit :=
  match str with
  | [] => .value () s
  | ch :: rest => afterStep (hostDo (.writeTxt i ch.toNat) s) (wrCells (i + 1) rest)

/-- `txt` (R76): the cells, then LEN. -/
def wrText (str : List Byte) (s : State) : HostResult Unit :=
  andThen (wrCells 0 str s) (fun _ => wr 0xA#4 str.length)

/-- `wait` (R76): poll STATUS until DONE is 1 while SEQ runs, for at most `fuel` SEQ steps. -/
def waitDone (fuel : Nat) (s : State) : HostResult Unit :=
  if statusDone s.status then .value () s
  else
    match fuel with
    | 0 => .unfinished s
    | fuel + 1 => afterStep (seqDo s) (waitDone fuel)

/-- A bound on the SEQ steps of the command just started, from the counts of
spec/70_reset_and_hazards.md R283: every command ends within it. -/
def seqBound (s : State) : Nat :=
  match decode s.w.cmd with
  | some .powmod => bitlen s.a1 + 2
  | some .xgcd => 2 * bitlen s.a1 + 2
  | some .modinv => 2 * bitlen s.a0 + 2
  | some .mrwit => 2 * bitlen s.a0 + 5
  | some .mrtest => bitlen s.a0 + 3 + s.a1.toNat * (bitlen s.a0 + 2)
  | some .encode => 2 * s.len + 3
  | some .decode => bitlen s.a0 + 2
  | some .wipe => 1
  | none => 1

/-- `rd r` (R76): one read, and its value. -/
def rd (r : RegNum) (s : State) : HostResult Int :=
  afterStep (hostDo (.readReg r) s) (fun s => .value (hostRead s r) s)

/-- The cell reads of `rdtxt` (R76): `n` cells from cell `i` upward, one access each. A cell that nothing
has written has no value to yield, and the program stops there
(spec/93_implementation_defined.md U2, log entry 14). -/
def rdCells (i n : Nat) (s : State) : HostResult (List Byte) :=
  match n with
  | 0 => .value [] s
  | n + 1 =>
    afterStep (hostDo (.readTxt i) s) (fun s =>
      match hostReadTxt s i with
      | some ch => andThen (rdCells (i + 1) n s) (fun str => .value (ch :: str))
      | none => .stopped (.fault (.unwrittenText i)))

/-- `rdtxt` (R76): `rd LEN`, then every cell below it. -/
def rdText (s : State) : HostResult (List Byte) :=
  andThen (rd 0xA#4 s) (fun n => rdCells 0 n.toNat)

/-- `cmd`, `wait`, `rd STATUS` (R77): fails with the kind of STATUS.ERR when it is not 0. -/
def call (i : Instr) (s : State) : HostResult Unit :=
  andThen (wr 0x8#4 (encode i).toNat s) (fun _ s =>
    andThen (waitDone (seqBound s) s) (fun _ s =>
      andThen (rd 0x9#4 s) (fun st s =>
        match errOfCode (statusErr (BitVec.ofInt 8 st)) with
        | some k => .failed k s
        | none => .value () s)))

/-- `call` with A0 and A1 written before it (R77, spec/10_state.md R21). -/
def call2 (i : Instr) (x y : Int) (s : State) : HostResult Unit :=
  andThen (wr 0x0#4 x s) (fun _ s => andThen (wr 0x1#4 y s) (fun _ => call i))

/-- `CALL POWMOD(x, c, n) -> R0` (R77). -/
def callPowmod (x c n : Int) (s : State) : HostResult Int :=
  andThen (wr 0x0#4 x s) (fun _ s =>
    andThen (wr 0x1#4 c s) (fun _ s =>
      andThen (wr 0x2#4 n s) (fun _ s =>
        andThen (call .powmod s) (fun _ => rd 0x4#4))))

/-- `CALL XGCD(a, b) -> (R0, R1, R2)` (R77). -/
def callXgcd (a b : Int) (s : State) : HostResult (Int × Int × Int) :=
  andThen (call2 .xgcd a b s) (fun _ s =>
    andThen (rd 0x4#4 s) (fun g s =>
      andThen (rd 0x5#4 s) (fun x s =>
        andThen (rd 0x6#4 s) (fun y => .value (g, x, y)))))

/-- `CALL MODINV(a, modulus) -> R0` (R77). -/
def callModinv (a m : Int) (s : State) : HostResult Int :=
  andThen (call2 .modinv a m s) (fun _ => rd 0x4#4)

/-- `CALL MRWIT(n, a) -> R0` (R77). -/
def callMrwit (n a : Int) (s : State) : HostResult Int :=
  andThen (call2 .mrwit n a s) (fun _ => rd 0x4#4)

/-- `CALL MRTEST(n, rounds) -> R0` (R77). -/
def callMrtest (n rounds : Int) (s : State) : HostResult Int :=
  andThen (call2 .mrtest n rounds s) (fun _ => rd 0x4#4)

/-- `CALL ENCODE(text) -> R0` (R77): the argument goes by `txt`. -/
def callEncode (text : List Byte) (s : State) : HostResult Int :=
  andThen (wrText text s) (fun _ s => andThen (call .encode s) (fun _ => rd 0x4#4))

/-- `CALL DECODE(value) -> text` (R77): the result comes by `rdtxt`. -/
def callDecode (v : Int) (s : State) : HostResult (List Byte) :=
  andThen (wr 0x0#4 v s) (fun _ s => andThen (call .decode s) (fun _ => rdText))

/-- `CALL WIPE` (R77): no argument and no result. -/
def callWipe (s : State) : HostResult Unit := call .wipe s

/-- The loop of GENPRIME (R211): a candidate of exactly `bits` bits, made odd, tested. -/
def genPrimeLoop (bits : Nat) (rounds : Int) (draws : List Int) (s : State) : HostResult Int :=
  match draws with
  | [] => .unfinished s
  | d :: rest =>
    let drawn := drawIn (2 ^ (bits - 1)) (2 ^ bits) d
    let cand := drawn + 1 - drawn % 2
    andThen (callMrtest cand rounds s) (fun r s =>
      if r = 1 then .value cand s else genPrimeLoop bits rounds rest s)

/-- GENPRIME(bit_length, rounds) (R211 to R213). DESIGN CHOICE (log entry 20): with rounds < 0 or
bit_length < 2 beside a value that does not fit, DomainError comes first. -/
def genPrime (bitLength rounds : Int) (draws : List Int) (s : State) : HostResult Int :=
  if bitLength < 2 ∨ rounds < 0 then .failed .domainError s
  else if ¬ (fits s.params (2 ^ bitLength.toNat - 1) ∧ fits s.params rounds) then
    .failed .capacityError s
  else genPrimeLoop bitLength.toNat rounds draws s

/-- The loop of GENKEY (R214): a public exponent coprime to phi, then its inverse, then WIPE. -/
def genKeyLoop (n phi : Int) (draws : List Int) (s : State) :
    HostResult ((Int × Int) × (Int × Int)) :=
  match draws with
  | [] => .unfinished s
  | d :: rest =>
    let b := drawIn 2 (phi - 1) d
    andThen (callXgcd phi b s) (fun gxy s =>
      if gxy.1 = 1 then
        andThen (callModinv b phi s) (fun a s =>
          andThen (callWipe s) (fun _ => .value ((n, b), (n, a))))
      else genKeyLoop n phi rest s)

/-- GENKEY(p, q) (R214 to R216): ((n, b), (n, a)). With phi <= 3 the draw range is empty and the host
is stuck (U5). DESIGN CHOICE (log entry 20): a phi <= 3 that does not fit fails with CapacityError. -/
def genKey (p q : Int) (draws : List Int) (s : State) : HostResult ((Int × Int) × (Int × Int)) :=
  let phi := (p - 1) * (q - 1)
  if ¬ fits s.params phi then .failed .capacityError s
  else if phi - 1 ≤ 2 then .stuck s
  else genKeyLoop (p * q) phi draws s

/-- ENCRYPT((n, b), text) (R217, R218), with the block-fit guard. -/
def encrypt (n b : Int) (text : List Byte) (s : State) : HostResult Int :=
  if ¬ (upToLmax s.params text.length ∧ fits s.params text.length ∧ fits s.params n ∧ fits s.params b)
  then .failed .capacityError s
  else
    andThen (callEncode text s) (fun v s =>
      if n ≤ v then .failed .domainError s else callPowmod v b n s)

/-- DECRYPT((n, a), c) (R219). -/
def decrypt (n a c : Int) (s : State) : HostResult (List Byte) :=
  if ¬ (fits s.params n ∧ fits s.params a ∧ fits s.params c) then .failed .capacityError s
  else
    andThen (callPowmod c a n s) callDecode

/-! ### The whole flow (R221) -/

/-- The host's draws in one run of the flow: those of the first GENPRIME, those of each GENPRIME that
looks for the second prime, those of GENKEY. -/
structure FlowDraws where
  first : List Int
  second : List (List Int)
  key : List Int
  deriving DecidableEq, Repr

/-- The second prime: GENPRIME, drawn again while it gives the first one (R221). -/
def genPrimeOther (p bitLength rounds : Int) (draws : List (List Int)) (s : State) : HostResult Int :=
  match draws with
  | [] => .unfinished s
  | ds :: rest =>
    andThen (genPrime bitLength rounds ds s) (fun q s =>
      if q = p then genPrimeOther p bitLength rounds rest s else .value q s)

/-- The document's data flow on one instance (R221): two different primes, a key pair, a ciphertext of
`text`, and the text that its decryption gives. -/
def flow (bitLength rounds : Int) (d : FlowDraws) (text : List Byte) (s : State) :
    HostResult (((Int × Int) × (Int × Int)) × Int × List Byte) :=
  andThen (genPrime bitLength rounds d.first s) (fun p s =>
    andThen (genPrimeOther p bitLength rounds d.second s) (fun q s =>
      andThen (genKey p q d.key s) (fun keys s =>
        andThen (encrypt keys.1.1 keys.1.2 text s) (fun c s =>
          andThen (decrypt keys.2.1 keys.2.2 c s) (fun text' =>
            .value (keys, c, text'))))))

/-- The flow with the document's own configuration, 512 bits and 10 rounds (R221, spec/00_scope.md R9). -/
def flowReference (d : FlowDraws) (text : List Byte) (s : State) :
    HostResult (((Int × Int) × (Int × Int)) × Int × List Byte) := flow 512 10 d text s

end Sys2Proof.Machine
end

