-- ==== Sys2Proof/Machine/Results.lean ====
section
/-! DEFINITION. The pure functions in which the spec states what a command leaves: its result
functions (spec/00_scope.md R15), written from their own rules and not from the step sequences. -/

namespace Sys2Proof.Machine

/-- Divides by 2 while the value is even, counting, for at most `fuel` divisions. -/
def halve (fuel k : Nat) (m : Int) : Nat × Int :=
  match fuel with
  | 0 => (k, m)
  | fuel + 1 => if m % 2 = 0 then halve fuel (k + 1) (m / 2) else (k, m)

/-- `decomp(n)`: the pair (k, m) with n - 1 = 2^k * m and m odd (spec/43_miller_rabin.md R140). -/
def decomp (n : Int) : Nat × Int := halve (bitlen n) 0 (n - 1)

/-- `b_j`: j squarings of b_0 modulo n (R140). -/
def squares (n b0 : Int) (j : Nat) : Int :=
  match j with
  | 0 => b0
  | j + 1 => squares n b0 j ^ 2 % n

/-- `trial(n, a)`: b_0 = 1, or b_j = n - 1 for some j below k (R140). -/
def trial (n a : Int) : Bool :=
  let b0 := a ^ (decomp n).2.toNat % n
  decide (b0 = 1) || (List.range (decomp n).1).any (fun j => decide (squares n b0 j = n - 1))

/-- `encode(s)`: the sum of index(s[i]) * 26^(L-1-i) (spec/44_codec.md R170). -/
def encodeText (str : List Byte) : Int :=
  match str with
  | [] => 0
  | ch :: rest => letterIndex ch * 26 ^ rest.length + encodeText rest

/-- The base-26 digits of v as letters, at most `fuel` of them, most significant first. -/
def digits (fuel : Nat) (v : Int) : List Byte :=
  match fuel with
  | 0 => []
  | fuel + 1 => if v ≤ 0 then [] else digits fuel (v / 26) ++ [chr (v % 26)]

/-- `decode(v)`: empty for 0, else decode(v div 26) and chr(v mod 26) (R170). A value has no more
base-26 digits than binary ones. -/
def decodeText (v : Int) : List Byte := digits (bitlen v) v

/-- `strip(s)`: s without its leading letters a (R184). -/
def stripText (str : List Byte) : List Byte := str.dropWhile (fun ch => decide (ch = 0x61#8))

/-- The string of the first `n` cells, where all of them hold a value (R29). -/
def cellString (read : Nat → Option Byte) (n : Nat) : Option (List Byte) :=
  match n with
  | 0 => some []
  | n + 1 =>
    match cellString read n, read n with
    | some str, some ch => some (str ++ [ch])
    | _, _ => none

end Sys2Proof.Machine
end

