-- ==== Sys2Proof/Safety.lean ====
section
/-! DEFINITION. The terms the claims use: which phases belong to a command (spec/10_state.md R33),
what the host owes before a command (spec/70_reset_and_hazards.md R273), the invariant of the block
(spec/10_state.md R26, R31 and the invariants of the family files), and when two states agree on
everything a host that meets its duty can depend on. -/

namespace Sys2Proof.Machine

/-- `k` steps of the machine, stopping at the first fault or refusal. -/
def runSteps (k : Nat) (s : State) : StepOutcome :=
  match k with
  | 0 => .next s
  | k + 1 =>
    match step s with
    | .next s' => runSteps k s'
    | .fault r => .fault r
    | .refused r => .refused r

/-- A SEQ step comes next: no other agent's turn is pending (spec/20_memory.md R62). -/
def seqNext (s : State) : Prop := s.turns = [] ∨ ∃ rest, s.turns = .seq :: rest

/-- A command has just been started and SEQ runs undisturbed to its end (spec/10_state.md R34: what the
host does meanwhile changes nothing). -/
def ready (s : State) : Prop := s.phase = .start ∧ s.turns = []

/-- The base that draw number `k` from here gives the trial of n = A0 (spec/43_miller_rabin.md R142). -/
def drawnBase (s : State) (k : Nat) : Int := drawIn 1 s.a0 (answer s k)

/-- The phases of a command: START and its loop phases (R33, spec/45_system.md R203). -/
def commandPhases (i : Instr) : List Phase :=
  match i with
  | .powmod => [.start, .pmLoop]
  | .xgcd => [.start, .xgLoop]
  | .modinv => [.start, .miLoop]
  | .mrwit => [.start, .mrDecomp, .mrTrial, .mrExp, .mrCheck]
  | .mrtest => [.start, .mrDecomp, .mrTrial, .mrExp, .mrCheck]
  | .encode => [.start, .enScan, .enAcc]
  | .decode => [.start, .deLoop]
  | .wipe => [.start]

/-- The phases a SEQ step of the command `i` may leave phase `p` for (R203). -/
def nextPhases (i : Instr) (p : Phase) : List Phase :=
  match p with
  | .idle => [.idle]
  | .start =>
    match i with
    | .powmod => [.idle, .pmLoop]
    | .xgcd => [.idle, .xgLoop]
    | .modinv => [.idle, .miLoop]
    | .mrwit => [.idle, .mrDecomp]
    | .mrtest => [.idle, .mrDecomp]
    | .encode => [.enScan]
    | .decode => [.idle, .deLoop]
    | .wipe => [.idle]
  | .pmLoop => [.pmLoop, .idle]
  | .xgLoop => [.xgLoop, .idle]
  | .miLoop => [.miLoop, .idle]
  | .mrDecomp => [.mrDecomp, .mrTrial]
  | .mrTrial => [.mrExp, .idle]
  | .mrExp => [.mrExp, .mrCheck]
  | .mrCheck => [.mrCheck, .mrTrial, .idle]
  | .enScan => [.enScan, .enAcc, .idle]
  | .enAcc => [.enAcc, .idle]
  | .deLoop => [.deLoop, .idle]

/-- Everything the host can read but STATUS: A0 to A2, R0 to R2, LEN and TXT (spec/20_memory.md R52,
R56). -/
def sameVisible (s t : State) : Prop :=
  t.a0 = s.a0 ∧ t.a1 = s.a1 ∧ t.a2 = s.a2 ∧ t.r0 = s.r0 ∧ t.r1 = s.r1 ∧ t.r2 = s.r2 ∧
    t.len = s.len ∧ t.txt = s.txt

/-- What no SEQ step touches but a drawing one: the parameters, the order of later steps, the
oracle's answers. -/
def sameOutside (s t : State) : Prop :=
  t.params = s.params ∧ t.turns = s.turns ∧ t.draws = s.draws ∧ t.drawCount = s.drawCount

/-! ### The invariant -/

/-- STATUS and phase (R25, R26). -/
def statusInv (s : State) : Prop :=
  statusReserved s.status = 0#3 ∧
  (statusBusy s.status = true ↔ s.phase ≠ .idle) ∧
  ¬ (statusBusy s.status = true ∧ statusDone s.status = true) ∧
  (statusErr s.status ≠ 0#3 → statusDone s.status = true ∧ statusBusy s.status = false) ∧
  (statusErr s.status).toNat ≤ 5

/-- Every register holds a value of its width (spec/00_scope.md R7, R8), and TXT is in its canonical
form with existing cells only. -/
def widthsInv (s : State) : Prop :=
  fits s.params s.a0 ∧ fits s.params s.a1 ∧ fits s.params s.a2 ∧
  fits s.params s.r0 ∧ fits s.params s.r1 ∧ fits s.params s.r2 ∧
  upToLmax s.params s.len ∧ s.txt.wf ∧ s.txt.within s.params

/-- POWMOD in PM_LOOP (spec/41_modexp.md R94). -/
def pmInv (s : State) : Prop :=
  1 < s.a2 ∧ 0 ≤ s.a1 ∧ s.w.x = s.a0 ∧ s.w.c = s.a1 ∧ s.w.n = s.a2 ∧ s.w.i ≤ bitlen s.a1 ∧
  s.w.z = s.a0 ^ (s.a1 / 2 ^ s.w.i).toNat % s.a2

/-- XGCD in XG_LOOP (spec/42_extended_gcd.md R115, and the coefficient bounds of R116 with the
identities and signs that give them). -/
def xgInv (s : State) : Prop :=
  s.a1 < s.a0 ∧ 0 < s.a1 ∧
  s.w.r0 = s.w.s0 * s.a0 + s.w.t0 * s.a1 ∧ s.w.r1 = s.w.s1 * s.a0 + s.w.t1 * s.a1 ∧
  Int.gcd s.w.r0 s.w.r1 = Int.gcd s.a0 s.a1 ∧ s.w.r1 < s.w.r0 ∧ 0 ≤ s.w.r1 ∧
  s.w.r0 ≤ s.a0 ∧ s.w.s0 * s.w.s1 ≤ 0 ∧ s.w.t0 * s.w.t1 ≤ 0 ∧
  s.w.r0 * |s.w.s1| + s.w.r1 * |s.w.s0| = s.a1 ∧ s.w.r0 * |s.w.t1| + s.w.r1 * |s.w.t0| = s.a0 ∧
  |s.w.s0| ≤ s.a1 ∧ |s.w.s1| ≤ s.a1 ∧ |s.w.t0| ≤ s.a0 ∧ |s.w.t1| ≤ s.a0

/-- MODINV in MI_LOOP (R124, with the identity and signs that give its bounds). -/
def miInv (s : State) : Prop :=
  s.a0 < s.a1 ∧ 0 < s.a0 ∧ s.w.n = s.a1 ∧
  s.a1 ∣ s.w.r0 - s.w.t0 * s.a0 ∧ s.a1 ∣ s.w.r1 - s.w.t1 * s.a0 ∧
  Int.gcd s.w.r0 s.w.r1 = Int.gcd s.a0 s.a1 ∧ s.w.r1 < s.w.r0 ∧ 0 ≤ s.w.r1 ∧
  s.w.t0 * s.w.t1 ≤ 0 ∧ s.w.r0 * |s.w.t1| + s.w.r1 * |s.w.t0| = s.a1 ∧
  |s.w.t0| ≤ s.a1 ∧ |s.w.t1| ≤ s.a1

/-- What holds in every Miller-Rabin phase: n is A0, odd and at least 3; n - 1 = 2^k * m; the base is
A1 for MRWIT (spec/43_miller_rabin.md R144 to R146). -/
def mrInv (s : State) : Prop :=
  s.w.n = s.a0 ∧ 3 ≤ s.w.n ∧ s.w.n % 2 = 1 ∧ 0 < s.w.m ∧ s.w.n - 1 = 2 ^ s.w.k * s.w.m ∧
  0 ≤ s.w.rem ∧ (s.w.hostbase = true → s.w.a = s.a1 ∧ 1 ≤ s.w.a ∧ s.w.a < s.w.n)

/-- The decomposition has ended: m odd, k at least 1 (R146). -/
def mrSplit (s : State) : Prop := mrInv s ∧ s.w.m % 2 = 1 ∧ 1 ≤ s.w.k

/-- MR_EXP (R148, R94). -/
def mrExpInv (s : State) : Prop :=
  mrSplit s ∧ 1 ≤ s.w.a ∧ s.w.a < s.w.n ∧ s.w.x = s.w.a ∧ s.w.c = s.w.m ∧ s.w.i ≤ bitlen s.w.m ∧
  s.w.z = s.w.a ^ (s.w.m / 2 ^ s.w.i).toNat % s.w.n

/-- MR_CHECK (R149): w.b is b_j, and no earlier b has made the trial pass. -/
def mrCheckInv (s : State) : Prop :=
  mrSplit s ∧ 1 ≤ s.w.a ∧ s.w.a < s.w.n ∧ s.w.j < s.w.k ∧
  s.w.b = squares s.w.n (s.w.a ^ s.w.m.toNat % s.w.n) s.w.j ∧
  (∀ j, j < s.w.j → squares s.w.n (s.w.a ^ s.w.m.toNat % s.w.n) j ≠ s.w.n - 1) ∧
  (0 < s.w.j → s.w.a ^ s.w.m.toNat % s.w.n ≠ 1)

/-- EN_SCAN (spec/44_codec.md R174): the cells below w.i are lowercase letters. -/
def enScanInv (s : State) : Prop :=
  s.w.l = s.len ∧ s.w.i ≤ s.w.l ∧
  ∃ str, cellString s.txt.read s.w.i = some str ∧ str.all isLower = true

/-- EN_ACC (R175): the whole string is lowercase, and w.v is the value of its first w.i letters. -/
def enAccInv (s : State) : Prop :=
  s.w.l = s.len ∧ s.w.i ≤ s.w.l ∧
  (∃ str, cellString s.txt.read s.w.l = some str ∧ str.all isLower = true) ∧
  ∃ pre, cellString s.txt.read s.w.i = some pre ∧ s.w.v = encodeText pre

/-- DE_LOOP (R181): what is left and what is decoded make up the whole string. -/
def deInv (s : State) : Prop :=
  0 ≤ s.a0 ∧ 0 ≤ s.w.v ∧ decodeText s.a0 = decodeText s.w.v ++ s.w.s

/-- What the current phase guarantees. -/
def phaseInv (s : State) : Prop :=
  match s.phase with
  | .idle => True
  | .start => True
  | .pmLoop => pmInv s
  | .xgLoop => xgInv s
  | .miLoop => miInv s
  | .mrDecomp => mrInv s
  | .mrTrial => mrSplit s
  | .mrExp => mrExpInv s
  | .mrCheck => mrCheckInv s
  | .enScan => enScanInv s
  | .enAcc => enAccInv s
  | .deLoop => deInv s

/-- The invariant of the block: it holds after reset and every step of every agent keeps it. -/
structure Inv (s : State) : Prop where
  status : statusInv s
  widths : widthsInv s
  phase : phaseInv s

/-! ### What the host owes, and what can depend on it -/

/-- The argument registers a command reads have been written since reset (R273). LEN is 0 after reset,
which is a value; an ENCODE that reads a cell nothing has written faults (log entry 4). -/
def owed (i : Instr) (wr : Written) : Prop :=
  match i with
  | .powmod => wr.a0 = true ∧ wr.a1 = true ∧ wr.a2 = true
  | .xgcd => wr.a0 = true ∧ wr.a1 = true
  | .modinv => wr.a0 = true ∧ wr.a1 = true
  | .mrwit => wr.a0 = true ∧ wr.a1 = true
  | .mrtest => wr.a0 = true ∧ wr.a1 = true
  | .encode => True
  | .decode => wr.a0 = true
  | .wipe => True

/-- The command about to start finds what it reads written. -/
def dutyMet (s : State) : Prop :=
  s.phase = .start → ∀ i, decode s.w.cmd = some i → owed i s.written

/-- The working registers the rest of a command reads, in the phases of the Miller-Rabin kernel. -/
def mrLive (u v : Working) : Prop :=
  u.n = v.n ∧ u.m = v.m ∧ u.k = v.k ∧ u.rem = v.rem ∧ u.hostbase = v.hostbase ∧
  (u.hostbase = true → u.a = v.a)

/-- Two sets of working registers agree on what the rest of the command reads: every other working
register is written before it is read (R32). -/
def liveEq (p : Phase) (u v : Working) : Prop :=
  match p with
  | .idle => True
  | .start => u.cmd = v.cmd
  | .pmLoop => u.x = v.x ∧ u.c = v.c ∧ u.n = v.n ∧ u.z = v.z ∧ u.i = v.i
  | .xgLoop =>
    u.r0 = v.r0 ∧ u.r1 = v.r1 ∧ u.s0 = v.s0 ∧ u.s1 = v.s1 ∧ u.t0 = v.t0 ∧ u.t1 = v.t1
  | .miLoop => u.n = v.n ∧ u.r0 = v.r0 ∧ u.r1 = v.r1 ∧ u.t0 = v.t0 ∧ u.t1 = v.t1
  | .mrDecomp => mrLive u v
  | .mrTrial => mrLive u v
  | .mrExp => mrLive u v ∧ u.x = v.x ∧ u.c = v.c ∧ u.z = v.z ∧ u.i = v.i
  | .mrCheck => mrLive u v ∧ u.b = v.b ∧ u.j = v.j
  | .enScan => u.l = v.l ∧ u.i = v.i
  | .enAcc => u.l = v.l ∧ u.i = v.i ∧ u.v = v.v
  | .deLoop => u.v = v.v ∧ u.s = v.s

/-- Two states agree on everything but registers that nothing has written since reset and working
registers that no rule reads before writing them (R32, R40). -/
structure Agree (s t : State) : Prop where
  params : s.params = t.params
  len : s.len = t.len
  txt : s.txt = t.txt
  status : s.status = t.status
  phase : s.phase = t.phase
  written : s.written = t.written
  turns : s.turns = t.turns
  draws : s.draws = t.draws
  drawCount : s.drawCount = t.drawCount
  a0 : s.written.a0 = true → s.a0 = t.a0
  a1 : s.written.a1 = true → s.a1 = t.a1
  a2 : s.written.a2 = true → s.a2 = t.a2
  r0 : s.written.r0 = true → s.r0 = t.r0
  r1 : s.written.r1 = true → s.r1 = t.r1
  r2 : s.written.r2 = true → s.r2 = t.r2
  live : liveEq s.phase s.w t.w

/-- Two steps have the same outcome, up to `Agree`. -/
def agreeOutcome (x y : StepOutcome) : Prop :=
  match x with
  | .next s => ∃ t, y = .next t ∧ Agree s t
  | .fault r => y = .fault r
  | .refused r => y = .refused r

end Sys2Proof.Machine
end

