-- ==== Sys2Proof/WellFormed.lean ====
section
/-! DEFINITION. What a well-formed command and a well-formed host access are. A command has no field
(spec/30_encoding.md R70, R71), so every command is well formed; the checks of this hardware are on
the host's accesses: the value fits the register (spec/20_memory.md R54) and the cell index exists
(R51, R56). -/

namespace Sys2Proof

/-- Every command is well formed: there is no operand field to check (R70, R71). -/
def Instr.wf (i : Instr) : Bool :=
  match i with
  | .powmod => true
  | .xgcd => true
  | .modinv => true
  | .mrwit => true
  | .mrtest => true
  | .encode => true
  | .decode => true
  | .wipe => true

/-- A host access the block can be offered (R51, R54, R56). -/
def Machine.HostOp.wf (p : Params) (op : Machine.HostOp) : Bool :=
  match op with
  | .readReg _ => true
  | .writeReg r v => Machine.HostOp.valueOk p r v
  | .readTxt i => Machine.upToLmax p i
  | .writeTxt i _ => Machine.upToLmax p i

end Sys2Proof
end

