-- ==== Sys2Proof/Certificates/Slice0/Obligations.lean ====
section
/-! DEFINITION. The statements for the provers. Each docstring names the rules of spec/ the statement
formalises. -/

open Sys2Proof Sys2Proof.Machine

/-! ### Encoding and dispatch -/

/-- The opcode map (R72), and codes of R74 that name no command. -/
def Obligations.CommandCodesDecode : Prop :=
  decode 0x01#8 = some .powmod ∧ decode 0x02#8 = some .xgcd ∧ decode 0x03#8 = some .modinv ∧
  decode 0x04#8 = some .mrwit ∧ decode 0x05#8 = some .mrtest ∧ decode 0x06#8 = some .encode ∧
  decode 0x07#8 = some .decode ∧ decode 0x08#8 = some .wipe ∧
  decode 0x00#8 = none ∧ decode 0x09#8 = none ∧ decode 0x81#8 = none ∧ decode 0xFF#8 = none

/-- Decoding and encoding are inverse in both directions (R72, R73: the match is on all 8 bits). -/
def Obligations.DecodeEncodeAgree : Prop :=
  (∀ i : Instr, i.wf = true → decode (encode i) = some i) ∧
  (∀ (k : Byte) (i : Instr), decode k = some i ↔ k = encode i) ∧
  (∀ i : Instr, decodeTableWord 8 (encode i).toNat = some i)

/-- A step that is SEQ's turn runs the command latched in w.cmd, and a command just written to CMD is
the next one to run (R73, R34; that a CMD write stands for the fetch is log entry 9). -/
def Obligations.StepRunsTheDecodedCommand : Prop :=
  (∀ (s : State) (i : Instr), seqNext s → decode s.w.cmd = some i → step s = exec i (dropTurn s)) ∧
  (∀ (s : State) (i : Instr),
    step (s.withFetchWord 8 (encode i).toNat) = exec i (s.withFetchWord 8 (encode i).toNat))

/-- Dispatch in phase START (R73): each code selects its start step, every other code raises
IllegalCommand, and the start step leaves START. -/
def Obligations.StartDispatchesOnTheCode : Prop :=
  ∀ s : State, seqNext s → s.phase = .start →
    (s.w.cmd = 0x01#8 → step s = powmodStart (dropTurn s)) ∧
    (s.w.cmd = 0x02#8 → step s = xgcdStart (dropTurn s)) ∧
    (s.w.cmd = 0x03#8 → step s = modinvStart (dropTurn s)) ∧
    (s.w.cmd = 0x04#8 → step s = mrwitStart (dropTurn s)) ∧
    (s.w.cmd = 0x05#8 → step s = mrtestStart (dropTurn s)) ∧
    (s.w.cmd = 0x06#8 → step s = encodeStart (dropTurn s)) ∧
    (s.w.cmd = 0x07#8 → step s = decodeStart (dropTurn s)) ∧
    (s.w.cmd = 0x08#8 → step s = wipeStart (dropTurn s)) ∧
    (s.w.cmd = 0x00#8 ∨ 9 ≤ s.w.cmd.toNat →
      step s = .next (raise .illegalCommand (dropTurn s))) ∧
    (∀ t, step s = .next t → t.phase ≠ .start)

/-- Every code but 0x01 to 0x08 completes at once with ERR = 5, DONE = 1, BUSY = 0 and no other change
of the block's state (R74). -/
def Obligations.IllegalCodeRaisesIllegalCommand : Prop :=
  ∀ s : State, seqNext s → s.phase = .start → (s.w.cmd = 0x00#8 ∨ 9 ≤ s.w.cmd.toNat) →
    step s = .next { dropTurn s with status := statusOf false true 5#3, phase := .idle }

/-! ### Host, reset, status -/

/-- The CMD write that starts a command (R35): everything it does, nothing else, and what SEQ does
next. -/
def Obligations.CmdWriteStartsTheCommand : Prop :=
  ∀ (s : State) (v : Int) (rest : List Turn),
    statusBusy s.status = false → fits s.params v = true → s.turns = .host (.writeReg 0x8#4 v) :: rest →
    ∃ t, step s = .next t ∧
      t = { s with
            w := { s.w with cmd := BitVec.ofInt 8 v }, status := statusOf true false 0#3,
            phase := .start, turns := rest } ∧
      (seqNext t → ∀ i, decode (BitVec.ofInt 8 v) = some i → step t = exec i (dropTurn t)) ∧
      (seqNext t → decode (BitVec.ofInt 8 v) = none → step t = .next (raise .illegalCommand (dropTurn t)))

/-- A host write to A0, A1, A2 or LEN while BUSY = 0 stores the value (LEN: its low LENW bits); a write
to R0 to R2, STATUS or a reserved number does nothing; a value that does not fit is refused (R52,
R54; the refusal is log entry 11). -/
def Obligations.HostRegisterWriteWhileIdle : Prop :=
  ∀ (s : State) (r : RegNum) (v : Int) (rest : List Turn),
    statusBusy s.status = false → s.turns = .host (.writeReg r v) :: rest →
    (HostOp.valueOk s.params r v = false → step s = .refused (.hostValueUnfit r v)) ∧
    (HostOp.valueOk s.params r v = true →
      (r = 0x0#4 → step s = .next
        { s with a0 := v, written := { s.written with a0 := true }, turns := rest }) ∧
      (r = 0x1#4 → step s = .next
        { s with a1 := v, written := { s.written with a1 := true }, turns := rest }) ∧
      (r = 0x2#4 → step s = .next
        { s with a2 := v, written := { s.written with a2 := true }, turns := rest }) ∧
      (r = 0xA#4 → step s = .next { s with len := lenImage s.params v, turns := rest }) ∧
      (r ∉ [0x0#4, 0x1#4, 0x2#4, 0x8#4, 0xA#4] → step s = .next { s with turns := rest }))

/-- A host write made while BUSY = 1 changes nothing (R55). -/
def Obligations.HostWriteWhileBusyIsDropped : Prop :=
  ∀ (s : State) (rest : List Turn), statusBusy s.status = true →
    (∀ r v, HostOp.valueOk s.params r v = true → s.turns = .host (.writeReg r v) :: rest →
      step s = .next { s with turns := rest }) ∧
    (∀ i v, upToLmax s.params i = true → s.turns = .host (.writeTxt i v) :: rest →
      step s = .next { s with turns := rest })

/-- The register map as the host reads it (R52, R53), and a read changes nothing (R60). -/
def Obligations.HostReadsTheRegisterMap : Prop :=
  ∀ s : State,
    hostRead s 0x0#4 = s.a0 ∧ hostRead s 0x1#4 = s.a1 ∧ hostRead s 0x2#4 = s.a2 ∧
    hostRead s 0x4#4 = s.r0 ∧ hostRead s 0x5#4 = s.r1 ∧ hostRead s 0x6#4 = s.r2 ∧
    hostRead s 0x9#4 = s.status.toNat ∧ hostRead s 0xA#4 = s.len ∧
    (∀ r, r ∉ [0x0#4, 0x1#4, 0x2#4, 0x4#4, 0x5#4, 0x6#4, 0x9#4, 0xA#4] → hostRead s r = 0) ∧
    (∀ r rest, s.turns = .host (.readReg r) :: rest → step s = .next { s with turns := rest })

/-- A host write of a TXT cell while BUSY = 0 stores the low 8 bits there and leaves every other cell;
a read changes nothing; an index above LMAX does not exist (R51, R56; the fault is log entry 11). -/
def Obligations.HostTextAccess : Prop :=
  ∀ (s : State) (i : Nat) (v : Int) (rest : List Turn), s.txt.wf = true →
    (upToLmax s.params i = true → s.turns = .host (.readTxt i) :: rest →
      step s = .next { s with turns := rest }) ∧
    (upToLmax s.params i = true → statusBusy s.status = false → s.turns = .host (.writeTxt i v) :: rest →
      ∃ t, step s = .next { s with txt := t, turns := rest } ∧ t.wf = true ∧
        t.read i = some (BitVec.ofInt 8 v) ∧ ∀ j, j ≠ i → t.read j = s.txt.read j) ∧
    (upToLmax s.params i = false →
      (s.turns = .host (.readTxt i) :: rest → step s = .fault (.noSuchCell i)) ∧
      (s.turns = .host (.writeTxt i v) :: rest → step s = .fault (.noSuchCell i)))

/-- STATUS as the host reads it (R25): bit 0 BUSY, bit 1 DONE, bits 4:2 ERR, bits 7:5 zero. -/
def Obligations.StatusImageHoldsTheFields : Prop :=
  ∀ (s : State) (busy done : Bool) (err : BitVec 3), s.status = statusOf busy done err →
    hostRead s 0x9#4 = (busy.toNat + 2 * done.toNat + 4 * err.toNat : Nat) ∧
    statusBusy s.status = busy ∧ statusDone s.status = done ∧ statusErr s.status = err ∧
    statusReserved s.status = 0#3

/-- What reset leaves at the values R40 states, after power-on and after a reset event at any time
(R270). The values of A0 to A2, R0 to R2 and w.* are the model's choice (log entries 2 and 3) and
are not stated here; that TXT cells hold no value is log entry 4. -/
def Obligations.ResetLeavesTheStatedValues : Prop :=
  (∀ p : Params, (State.resetWith p).status = 0x00#8 ∧ (State.resetWith p).phase = .idle ∧
    (State.resetWith p).len = 0 ∧ hostRead (State.resetWith p) 0x8#4 = 0 ∧
    (∀ i, (State.resetWith p).txt.read i = none) ∧ (State.resetWith p).written = Written.none) ∧
  (∀ (s : State) (rest : List Turn), s.turns = .reset :: rest →
    ∃ t, step s = .next t ∧ t.status = 0x00#8 ∧ t.phase = .idle ∧ t.len = 0 ∧
      (∀ i, t.txt.read i = none) ∧ t.written = Written.none ∧ t.params = s.params ∧
      t.turns = rest ∧ t.draws = s.draws ∧ t.drawCount = s.drawCount)

/-- The STATUS invariants (R26): they hold after reset, every step of every agent keeps them, and with
them STATUS reads as one of eight values. -/
def Obligations.StatusInvariantIsKept : Prop :=
  (∀ p : Params, statusInv (State.resetWith p)) ∧
  (∀ s t : State, statusInv s → step s = .next t → statusInv t) ∧
  (∀ s : State, statusInv s →
    hostRead s 0x9#4 ∈ ([0x00, 0x01, 0x02, 0x06, 0x0A, 0x0E, 0x12, 0x16] : List Int))

/-! ### The invariant of the block -/

/-- The invariant holds after reset, whatever the parameters (that A0 to A2 and R0 to R2 fit rests on
the values of log entry 2). -/
def Obligations.InvariantHoldsAtReset : Prop := ∀ p : Params, Inv (State.resetWith p)

/-- Every step of every agent keeps the invariant: STATUS and phase agree (R26), every register fits
its width (R7, R8), TXT keeps its canonical form, and each loop phase keeps its rule's invariant
(R94, R115, R116, R124, R146 to R149, R174, R175, R181). -/
def Obligations.EveryStepKeepsTheInvariant : Prop :=
  ∀ s t : State, Inv s → step s = .next t → Inv t

/-- In a state with the invariant SEQ is never stuck while busy: its step answers a next state, or it is an
ENCODE reading a cell below LEN that nothing has written (R34; the fault is log entry 4). While idle SEQ
has no step, and its turn answers the same state with the turn taken off (log entry 7). Every divisor is
positive where it divides (R11): w.n in the phases that reduce modulo it, where it also gives the draw a
range that is not empty, and w.r1 wherever it is not 0. -/
def Obligations.SeqIsNeverStuck : Prop :=
  ∀ s : State, Inv s →
    (seqNext s →
      (∃ t, step s = .next t) ∨
      (∃ i, step s = .fault (.unwrittenText i) ∧ i < s.len ∧ s.txt.read i = none)) ∧
    (seqNext s → s.phase = .idle → step s = .next (dropTurn s)) ∧
    (s.phase ∈ [Phase.pmLoop, .miLoop, .mrTrial, .mrExp, .mrCheck] → 1 < s.w.n) ∧
    (s.phase ∈ [Phase.xgLoop, .miLoop] → s.w.r1 ≠ 0 → 0 < s.w.r1)

/-! ### POWMOD -/

/-- POWMOD (R90): with n > 1 and c >= 0 it completes without error, R0 = x^c mod n, in [0, n), and
nothing else visible changes; the start step (R92); the step count of R283. -/
def Obligations.PowmodComputesThePower : Prop :=
  ∀ s : State, ready s → 1 < s.a2 → 0 ≤ s.a1 →
    exec .powmod s = .next
      { s with
        w := { s.w with x := s.a0, c := s.a1, n := s.a2, z := 1, i := bitlen s.a1 }
        phase := .pmLoop } ∧
    ∃ w', (s.w.cmd = 0x01#8 → runSteps (bitlen s.a1 + 2) s =
        .next (complete (setR0 (s.a0 ^ s.a1.toNat % s.a2) (setW w' s)))) ∧
      0 ≤ s.a0 ^ s.a1.toNat % s.a2 ∧ s.a0 ^ s.a1.toNat % s.a2 < s.a2

/-- POWMOD raises DomainError exactly for n <= 1 or c < 0 (R91, R242): the start step is the error
completion. -/
def Obligations.PowmodDomainError : Prop :=
  ∀ s : State, s.phase = .start →
    (s.a2 ≤ 1 ∨ s.a1 < 0 ↔ exec .powmod s = .next (raise .domainError s))

/-- The bits are taken from the most significant to the least significant, square then multiply
(R93). -/
def Obligations.PowmodLoopStep : Prop :=
  ∀ s : State, s.phase = .pmLoop →
    (s.w.i = 0 → exec .powmod s = .next (complete (setR0 s.w.z s))) ∧
    (∀ i, s.w.i = i + 1 → bit s.w.c i = 1 →
      exec .powmod s = .next (setW { s.w with
        i := i, z := mulmod (mulmod s.w.z s.w.z s.w.n) s.w.x s.w.n } s)) ∧
    (∀ i, s.w.i = i + 1 → bit s.w.c i = 0 →
      exec .powmod s = .next (setW { s.w with i := i, z := mulmod s.w.z s.w.z s.w.n } s))

/-! ### XGCD and MODINV -/

/-- XGCD (R110): with a > b > 0 it completes without error with R0 = gcd(a, b) > 0 and
R0 = R1*a + R2*b; the results fit when the arguments do; nothing else visible changes. -/
def Obligations.XgcdComputesBezout : Prop :=
  ∀ s : State, ready s → s.a1 < s.a0 → 0 < s.a1 →
    exec .xgcd s = .next
      { s with
        w := { s.w with r0 := s.a0, r1 := s.a1, s0 := 1, s1 := 0, t0 := 0, t1 := 1 }
        phase := .xgLoop } ∧
    ∃ (k : Nat) (g x y : Int) (w' : Working),
      (s.w.cmd = 0x02#8 →
        runSteps (k + 2) s = .next (complete (setR2 y (setR1 x (setR0 g (setW w' s)))))) ∧
      1 ≤ k ∧ k ≤ 2 * bitlen s.a1 ∧
      g = Int.gcd s.a0 s.a1 ∧ 0 < g ∧ g = x * s.a0 + y * s.a1 ∧ |x| ≤ s.a1 ∧ |y| ≤ s.a0 ∧
      (fits s.params s.a0 = true → fits s.params s.a1 = true →
        fits s.params g = true ∧ fits s.params x = true ∧ fits s.params y = true)

/-- XGCD raises DomainError exactly when a > b > 0 fails (R111, R242). -/
def Obligations.XgcdDomainError : Prop :=
  ∀ s : State, s.phase = .start →
    (¬ (s.a1 < s.a0 ∧ 0 < s.a1) ↔ exec .xgcd s = .next (raise .domainError s))

/-- The coefficients the recurrence of R113 and R114 gives in two of the cases of R117: b divides a
gives (b, 0, 1) after one division, and a = b + 1 with b >= 2 gives (1, 1, -1) after two. -/
def Obligations.XgcdCornerCases : Prop :=
  ∀ s : State, ready s → s.w.cmd = 0x02#8 → s.a1 < s.a0 → 0 < s.a1 →
    (s.a1 ∣ s.a0 →
      ∃ w', runSteps 3 s = .next (complete (setR2 1 (setR1 0 (setR0 s.a1 (setW w' s)))))) ∧
    (s.a0 = s.a1 + 1 → 2 ≤ s.a1 →
      ∃ w', runSteps 4 s = .next (complete (setR2 (-1) (setR1 1 (setR0 1 (setW w' s))))))

/-- MODINV (R120): with m > a > 0 and gcd(a, m) = 1 it completes without error and R0 is the one u in
[0, m) with a*u mod m = 1; nothing else visible changes. -/
def Obligations.ModinvComputesTheInverse : Prop :=
  ∀ s : State, ready s → s.a0 < s.a1 → 0 < s.a0 → Int.gcd s.a0 s.a1 = 1 →
    exec .modinv s = .next
      { s with
        w := { s.w with n := s.a1, r0 := s.a1, r1 := s.a0, t0 := 0, t1 := 1 }
        phase := .miLoop } ∧
    ∃ (k : Nat) (u : Int) (w' : Working),
      (s.w.cmd = 0x03#8 → runSteps (k + 2) s = .next (complete (setR0 u (setW w' s)))) ∧
      1 ≤ k ∧ k ≤ 2 * bitlen s.a0 ∧
      0 ≤ u ∧ u < s.a1 ∧ s.a0 * u % s.a1 = 1 ∧
      (∀ v, 0 ≤ v → v < s.a1 → s.a0 * v % s.a1 = 1 → v = u)

/-- MODINV's two errors, in their order (R121, R243): DomainError at once when m > a > 0 fails, whatever
the gcd; else NoInverseError at the end of the loop when the gcd is not 1, with R0 unchanged. -/
def Obligations.ModinvErrors : Prop :=
  (∀ s : State, s.phase = .start → ¬ (s.a0 < s.a1 ∧ 0 < s.a0) →
    exec .modinv s = .next (raise .domainError s)) ∧
  (∀ s : State, ready s → s.w.cmd = 0x03#8 → s.a0 < s.a1 → 0 < s.a0 → Int.gcd s.a0 s.a1 ≠ 1 →
    ∃ (k : Nat) (w' : Working), 1 ≤ k ∧ k ≤ 2 * bitlen s.a0 ∧
      runSteps (k + 2) s = .next (raise .noInverseError (setW w' s)))

/-! ### MRWIT and MRTEST -/

/-- MRWIT (R141): the special cases of n, then the range of the base, then one trial; nothing else
visible changes, and no draw is made. -/
def Obligations.MrwitRunsOneTrial : Prop :=
  ∀ s : State, ready s →
    (s.a0 = 2 → exec .mrwit s = .next (complete (setR0 1 s))) ∧
    (s.a0 < 2 ∨ (s.a0 % 2 = 0 ∧ s.a0 ≠ 2) → exec .mrwit s = .next (complete (setR0 0 s))) ∧
    (3 ≤ s.a0 → s.a0 % 2 = 1 → ¬ (1 ≤ s.a1 ∧ s.a1 < s.a0) →
      exec .mrwit s = .next (raise .domainError s)) ∧
    (3 ≤ s.a0 → s.a0 % 2 = 1 → 1 ≤ s.a1 → s.a1 < s.a0 → s.w.cmd = 0x04#8 →
      exec .mrwit s = .next
        { s with
          w := { s.w with n := s.a0, a := s.a1, hostbase := true, rem := 1, m := s.a0 - 1, k := 0 }
          phase := .mrDecomp } ∧
      ∃ (k : Nat) (w' : Working), runSteps k s =
        .next (complete (setR0 (if trial s.a0 s.a1 = true then 1 else 0) (setW w' s))))

/-- MRTEST (R142): DomainError for rounds < 0, then the special cases of n, then the trials in order
with the bases drawn, stopping at the first that fails; the draws made are those of the trials begun. How
an answer of the oracle becomes a draw from [1, n) is the model's choice (log entry 5). -/
def Obligations.MrtestRunsTheTrials : Prop :=
  ∀ s : State, ready s →
    (s.a1 < 0 → exec .mrtest s = .next (raise .domainError s)) ∧
    (0 ≤ s.a1 → s.a0 = 2 → exec .mrtest s = .next (complete (setR0 1 s))) ∧
    (0 ≤ s.a1 → s.a0 < 2 ∨ (s.a0 % 2 = 0 ∧ s.a0 ≠ 2) →
      exec .mrtest s = .next (complete (setR0 0 s))) ∧
    (0 ≤ s.a1 → 3 ≤ s.a0 → s.a0 % 2 = 1 → s.w.cmd = 0x05#8 →
      exec .mrtest s = .next
        { s with
          w := { s.w with n := s.a0, hostbase := false, rem := s.a1, m := s.a0 - 1, k := 0 }
          phase := .mrDecomp } ∧
      (∀ f : Nat, (f : Int) < s.a1 → trial s.a0 (drawnBase s f) = false →
        (∀ i, i < f → trial s.a0 (drawnBase s i) = true) →
        ∃ (k : Nat) (w' : Working),
          runSteps k s = .next (complete (setR0 0 (afterDraws (f + 1) (setW w' s))))) ∧
      ((∀ i : Nat, (i : Int) < s.a1 → trial s.a0 (drawnBase s i) = true) →
        ∃ (k : Nat) (w' : Working),
          runSteps k s = .next (complete (setR0 1 (afterDraws s.a1.toNat (setW w' s))))))

/-- No false composite verdict (R152, first law): for a prime n every base passes, MRWIT gives 1 for
every legal base, and MRTEST gives 1 for every number of rounds and every sequence of draws. -/
def Obligations.NoFalseCompositeVerdict : Prop :=
  ∀ n : Nat, n.Prime → 3 ≤ n →
    (∀ a : Int, 1 ≤ a → a < n → trial n a = true) ∧
    (∀ s : State, ready s → s.a0 = n → s.w.cmd = 0x04#8 → 1 ≤ s.a1 → s.a1 < n →
      ∃ k t, runSteps k s = .next t ∧ t.phase = .idle ∧ t.r0 = 1 ∧ statusErr t.status = 0#3) ∧
    (∀ s : State, ready s → s.a0 = n → s.w.cmd = 0x05#8 → 0 ≤ s.a1 →
      ∃ k t, runSteps k s = .next t ∧ t.phase = .idle ∧ t.r0 = 1 ∧ statusErr t.status = 0#3)

/-- The bases of 9 that pass are exactly 1 and 8 (R152, second law), and for every number of rounds there
are answers of the oracle (log entry 5) with which MRTEST gives 1 on the composite 9. -/
def Obligations.NineHasTwoPassingBases : Prop :=
  (trial 9 1 = true ∧ trial 9 8 = true ∧ ∀ a : Int, 1 < a → a < 8 → trial 9 a = false) ∧
  (∀ s : State, ready s → s.w.cmd = 0x05#8 → s.a0 = 9 → 0 ≤ s.a1 →
    ∃ ds k t, runSteps k { s with draws := ds } = .next t ∧ t.phase = .idle ∧ t.r0 = 1 ∧
      statusErr t.status = 0#3)

/-- rounds = 0 on an odd n >= 3 performs no trial, makes no draw and gives 1 (R151). -/
def Obligations.MrtestWithZeroRounds : Prop :=
  ∀ s : State, ready s → s.w.cmd = 0x05#8 → s.a1 = 0 → 3 ≤ s.a0 → s.a0 % 2 = 1 →
    ∃ (k : Nat) (w' : Working), runSteps k s = .next (complete (setR0 1 (setW w' s)))

/-- Exactly one draw, from [1, n), at the beginning of each trial of MRTEST, and no draw in any other
step of any command (R143, R147; how an answer is brought into the range is log entry 5). -/
def Obligations.OneDrawAtEachDrawnTrial : Prop :=
  ∀ (i : Instr) (s t : State), exec i s = .next t →
    (s.phase = .mrTrial → s.w.rem ≠ 0 → s.w.hostbase = false →
      t.draws = s.draws.tail ∧ t.drawCount = s.drawCount + 1 ∧
      t.w.a = drawIn 1 s.w.n (answer s 0) ∧ 1 ≤ t.w.a ∧ t.w.a < s.w.n) ∧
    (s.phase ≠ .mrTrial ∨ s.w.rem = 0 ∨ s.w.hostbase = true →
      t.draws = s.draws ∧ t.drawCount = s.drawCount)

/-- A draw lies in its range, and every value of the range is the answer to some draw (R143; log
entry 5). -/
def Obligations.DrawsCoverTheirRange : Prop :=
  ∀ lo hi : Int, lo < hi →
    (∀ v, lo ≤ drawIn lo hi v ∧ drawIn lo hi v < hi) ∧ (∀ v, lo ≤ v → v < hi → drawIn lo hi v = v)

/-! ### ENCODE and DECODE -/

/-- ENCODE (R172): InvalidCharacterError when some character is no lowercase letter, else
CapacityError when the value does not fit, else R0 = encode(s); nothing else visible changes. -/
def Obligations.EncodeComputesTheValue : Prop :=
  ∀ (s : State) (str : List Byte), ready s → upToLmax s.params s.len = true →
    cellString s.txt.read s.len = some str →
    exec .encode s = .next
      { s with w := { s.w with l := s.len, i := 0 }, phase := .enScan } ∧
    (s.w.cmd = 0x06#8 →
      (str.all isLower = true → fits s.params (encodeText str) = true →
        0 ≤ encodeText str ∧ encodeText str < 26 ^ s.len ∧
        ∃ w', runSteps (2 * s.len + 3) s = .next (complete (setR0 (encodeText str) (setW w' s)))) ∧
      (str.all isLower = true → fits s.params (encodeText str) = false →
        ∃ w', runSteps (2 * s.len + 3) s = .next (raise .capacityError (setW w' s))) ∧
      (str.all isLower = false →
        ∃ k w', k ≤ s.len + 1 ∧ runSteps k s = .next (raise .invalidCharacterError (setW w' s))))

/-- ENCODE stops at a cell below LEN that nothing has written since reset (the model's reading of
spec/93_implementation_defined.md U1, log entry 4). -/
def Obligations.EncodeFaultsOnAnUnwrittenCell : Prop :=
  ∀ s : State, s.phase = .enScan → s.w.i ≠ s.w.l → upToLmax s.params s.w.i = true →
    s.txt.read s.w.i = none → exec .encode s = .fault (.unwrittenText s.w.i)

/-- DECODE (R179): DomainError for v < 0, else CapacityError when the string is longer than LMAX, else
the string goes to the cells from 0 and its length to LEN in one step. -/
def Obligations.DecodeWritesTheString : Prop :=
  ∀ s : State, ready s →
    (s.a0 < 0 → exec .decode s = .next (raise .domainError s)) ∧
    (0 ≤ s.a0 → exec .decode s = .next
      { s with w := { s.w with v := s.a0, s := [] }, phase := .deLoop }) ∧
    (0 ≤ s.a0 → s.w.cmd = 0x07#8 → upToLmax s.params (decodeText s.a0).length = false →
      ∃ w', runSteps ((decodeText s.a0).length + 2) s = .next (raise .capacityError (setW w' s))) ∧
    (0 ≤ s.a0 → s.w.cmd = 0x07#8 → upToLmax s.params (decodeText s.a0).length = true →
      ∃ w', runSteps ((decodeText s.a0).length + 2) s =
        .next (complete (setLen (decodeText s.a0).length
          (setTxt (s.txt.writeString 0 (decodeText s.a0)) (setW w' s)))))

/-- The completion write of DECODE (R182), in one step: CapacityError when the string is longer than
LMAX; else the first length(w.s) cells hold the string, every cell at or above it keeps its value, LEN
is the length, and the command is complete. -/
def Obligations.DecodeCompletionWrite : Prop :=
  ∀ s : State, s.phase = .deLoop → s.w.v = 0 → s.txt.wf = true →
    (upToLmax s.params s.w.s.length = false → exec .decode s = .next (raise .capacityError s)) ∧
    (upToLmax s.params s.w.s.length = true →
      ∃ t, exec .decode s =
          .next { s with
            txt := t, len := s.w.s.length, status := statusOf false true 0#3, phase := .idle } ∧
        t.wf = true ∧ cellString t.read s.w.s.length = some s.w.s ∧
        ∀ i, s.w.s.length ≤ i → t.read i = s.txt.read i)

/-- The round-trip laws of the codec (R184): encode after decode is the identity, decode never begins
with `a`, and decode after encode strips the leading letters `a`. -/
def Obligations.CodecRoundTrip : Prop :=
  (∀ v : Int, 0 ≤ v → encodeText (decodeText v) = v ∧
    (decodeText v = [] ∨ ∃ ch rest, decodeText v = ch :: rest ∧ ch ≠ 0x61#8)) ∧
  (∀ str : List Byte, str.all isLower = true → decodeText (encodeText str) = stripText str)

/-- The same law on the hardware (R184): ENCODE, R0 moved to A0, DECODE leaves strip(s) in TXT. -/
def Obligations.EncodeThenDecodeStrips : Prop :=
  ∀ (s : State) (str : List Byte), ready s → s.w.cmd = 0x06#8 → s.txt.wf = true →
    upToLmax s.params s.len = true → cellString s.txt.read s.len = some str →
    str.all isLower = true → fits s.params (encodeText str) = true →
    ∃ j t, runSteps j s = .next t ∧ t.phase = .idle ∧ t.r0 = encodeText str ∧
      ∃ k u, runSteps k (startCommand (encode .decode) (setA0 t.r0 t)) = .next u ∧ u.phase = .idle ∧
        statusErr u.status = 0#3 ∧ cellString u.txt.read u.len = some (stripText str)

/-! ### WIPE, errors, frames -/

/-- WIPE (R200): one step zeroes every data register, TXT cell and working register and completes. -/
def Obligations.WipeZeroesEverything : Prop :=
  ∀ s : State, s.phase = .start →
    ∃ t, exec .wipe s = .next t ∧
      t.a0 = 0 ∧ t.a1 = 0 ∧ t.a2 = 0 ∧ t.r0 = 0 ∧ t.r1 = 0 ∧ t.r2 = 0 ∧ t.len = 0 ∧
      (∀ i, t.txt.read i = some 0#8) ∧ t.w = Working.zero ∧
      t.status = statusOf false true 0#3 ∧ t.phase = .idle ∧ t.written = Written.all ∧
      sameOutside s t

/-- Error completion (R247): the SEQ step that raises an error writes STATUS and phase, and nothing
else, whatever the command code; and a whole command that ends in an error leaves everything the host
can read but STATUS as it was when the command started. -/
def Obligations.ErrorsArePrecise : Prop :=
  (∀ s t : State, seqStep s = .next t → s.phase ≠ .idle → t.phase = .idle →
    statusErr t.status ≠ 0#3 →
    (∃ k, statusErr t.status = errCode k) ∧
    t = { s with status := statusOf false true (statusErr t.status), phase := .idle }) ∧
  (∀ (s t : State) (k : Nat), ready s → runSteps k s = .next t → t.phase = .idle →
    statusErr t.status ≠ 0#3 → sameVisible s t)

/-- Results appear only in the completion step (R22, R55): as long as a command goes on, everything the
host can read keeps its value, STATUS included. -/
def Obligations.ResultsAppearOnlyAtCompletion : Prop :=
  ∀ (i : Instr) (s t : State), exec i s = .next t → t.phase ≠ .idle →
    sameVisible s t ∧ t.status = s.status ∧ t.written = s.written

/-- Frame of POWMOD, MODINV, MRWIT, MRTEST and ENCODE (R22, R90, R120, R141, R142, R172): of what the
host can read only R0 and STATUS may change, R0 only in a completion without error; every TXT cell
reads as before. -/
def Obligations.FrameOfOneResultCommands : Prop :=
  ∀ (i : Instr) (s t : State), i ∈ [Instr.powmod, .modinv, .mrwit, .mrtest, .encode] →
    s.phase ∈ commandPhases i → exec i s = .next t →
    t.a0 = s.a0 ∧ t.a1 = s.a1 ∧ t.a2 = s.a2 ∧ t.r1 = s.r1 ∧ t.r2 = s.r2 ∧ t.len = s.len ∧
    (∀ j, t.txt.read j = s.txt.read j) ∧ t.params = s.params ∧ t.turns = s.turns ∧
    (t.phase ≠ .idle → t.r0 = s.r0 ∧ t.status = s.status) ∧
    (statusErr t.status ≠ 0#3 → t.phase = .idle → t.r0 = s.r0) ∧
    (t.phase = .idle → statusBusy t.status = false ∧ statusDone t.status = true) ∧
    t.w.cmd = s.w.cmd

/-- Frame of XGCD (R22, R110): of what the host can read only R0, R1, R2 and STATUS may change, the
results only in a completion without error; every TXT cell reads as before. -/
def Obligations.FrameOfXgcd : Prop :=
  ∀ s t : State, s.phase ∈ commandPhases .xgcd → exec .xgcd s = .next t →
    t.a0 = s.a0 ∧ t.a1 = s.a1 ∧ t.a2 = s.a2 ∧ t.len = s.len ∧
    (∀ j, t.txt.read j = s.txt.read j) ∧ sameOutside s t ∧
    (t.phase ≠ .idle ∨ statusErr t.status ≠ 0#3 → t.r0 = s.r0 ∧ t.r1 = s.r1 ∧ t.r2 = s.r2) ∧
    (t.phase ≠ .idle → t.status = s.status) ∧
    (t.phase = .idle → statusBusy t.status = false ∧ statusDone t.status = true) ∧
    t.w.cmd = s.w.cmd

/-- Frame of DECODE (R22, R179, R182): of what the host can read only LEN, the TXT cells below the new
length and STATUS may change, LEN and the cells only in a completion without error. -/
def Obligations.FrameOfDecode : Prop :=
  ∀ s t : State, s.phase ∈ commandPhases .decode → exec .decode s = .next t →
    t.a0 = s.a0 ∧ t.a1 = s.a1 ∧ t.a2 = s.a2 ∧ t.r0 = s.r0 ∧ t.r1 = s.r1 ∧ t.r2 = s.r2 ∧
    sameOutside s t ∧ t.written = s.written ∧
    (∀ j, s.w.s.length ≤ j → t.txt.read j = s.txt.read j) ∧
    (t.phase ≠ .idle ∨ statusErr t.status ≠ 0#3 →
      t.len = s.len ∧ ∀ j, t.txt.read j = s.txt.read j) ∧
    (t.phase ≠ .idle → t.status = s.status) ∧
    (t.phase = .idle → statusBusy t.status = false ∧ statusDone t.status = true) ∧
    t.w.cmd = s.w.cmd

/-- Which phase follows which (R33, R203), and that a command stays in its own phases until it is
idle. -/
def Obligations.PhasesFollowTheirRules : Prop :=
  ∀ (i : Instr) (s t : State), exec i s = .next t →
    t.phase ∈ nextPhases i s.phase ∧
    (s.phase ∈ commandPhases i → t.phase = .idle ∨ t.phase ∈ commandPhases i)

/-! ### Whole-machine rules -/

/-- Every command ends: within the bound of `seqBound` SEQ steps it is idle with DONE = 1, whatever the
code (R34, R283). For ENCODE the cells below LEN must exist and have been written (R273). -/
def Obligations.EveryCommandEnds : Prop :=
  ∀ s : State, ready s →
    (decode s.w.cmd = some .encode →
      upToLmax s.params s.len = true ∧ ∃ str, cellString s.txt.read s.len = some str) →
    ∃ k t, 1 ≤ k ∧ k ≤ seqBound s ∧ runSteps k s = .next t ∧ t.phase = .idle ∧
      statusDone t.status = true ∧ statusBusy t.status = false

/-- What a host that meets its duty (R273) can see does not depend on the values registers and working
registers have at reset (R32, R40): states that agree but for them step to states that agree but for
them, with the same outcome. -/
def Obligations.UnwrittenValuesDoNotMatter : Prop :=
  ∀ s t : State, Agree s t → dutyMet s → agreeOutcome (step s) (step t)

/-- Right after reset, any values of A0 to A2, R0 to R2 and w.* agree with the ones the model chose
(log entries 2 and 3). -/
def Obligations.ResetAgreesWithAnyUnwrittenValues : Prop :=
  ∀ (p : Params) (t : State),
    t = { State.resetWith p with
          a0 := t.a0, a1 := t.a1, a2 := t.a2, r0 := t.r0, r1 := t.r1, r2 := t.r2, w := t.w } →
    Agree (State.resetWith p) t ∧ dutyMet (State.resetWith p)

/-! ### Host pseudo-operations -/

/-- `rdtxt` yields the character of every cell below LEN, in order (R76); at the first such cell that
nothing has written it stops (the model's choice, log entry 14). -/
def Obligations.RdTextReadsEveryCell : Prop :=
  ∀ s : State, upToLmax s.params s.len = true →
    (∀ str, cellString s.txt.read s.len = some str → rdText s = .value str { s with turns := [] }) ∧
    (∀ i, i < s.len → s.txt.read i = none → (∀ j, j < i → s.txt.read j ≠ none) →
      rdText s = .stopped (.fault (.unwrittenText i)))

/-- A CALL made on an idle block, with arguments the command takes, ends and returns the result
registers of the command, or the text (R77, spec/10_state.md R22). How an answer of the oracle becomes a
draw of MRTEST is the model's choice (log entry 5). -/
def Obligations.CallsReturnTheirResults : Prop :=
  ∀ s : State, statusInv s → s.phase = .idle → s.txt.wf = true →
    (∀ x c n, fits s.params x = true → fits s.params c = true → fits s.params n = true →
      1 < n → 0 ≤ c → ∃ t, callPowmod x c n s = .value (x ^ c.toNat % n) t) ∧
    (∀ a b, fits s.params a = true → fits s.params b = true → b < a → 0 < b →
      ∃ g x y t, callXgcd a b s = .value (g, x, y) t ∧ g = Int.gcd a b ∧ g = x * a + y * b) ∧
    (∀ a m, fits s.params a = true → fits s.params m = true → a < m → 0 < a → Int.gcd a m = 1 →
      ∃ u t, callModinv a m s = .value u t ∧ 0 ≤ u ∧ u < m ∧ a * u % m = 1) ∧
    (∀ n a, fits s.params n = true → fits s.params a = true →
      (n = 2 → ∃ t, callMrwit n a s = .value 1 t) ∧
      (n < 2 ∨ (n % 2 = 0 ∧ n ≠ 2) → ∃ t, callMrwit n a s = .value 0 t) ∧
      (3 ≤ n → n % 2 = 1 → 1 ≤ a → a < n →
        ∃ t, callMrwit n a s = .value (if trial n a = true then 1 else 0) t)) ∧
    (∀ n rounds, fits s.params n = true → fits s.params rounds = true → 0 ≤ rounds →
      (n = 2 → ∃ t, callMrtest n rounds s = .value 1 t ∧ t.drawCount = s.drawCount) ∧
      (n < 2 ∨ (n % 2 = 0 ∧ n ≠ 2) →
        ∃ t, callMrtest n rounds s = .value 0 t ∧ t.drawCount = s.drawCount) ∧
      (3 ≤ n → n % 2 = 1 →
        (∀ f : Nat, (f : Int) < rounds → trial n (drawIn 1 n (answer s f)) = false →
          (∀ i, i < f → trial n (drawIn 1 n (answer s i)) = true) →
          ∃ t, callMrtest n rounds s = .value 0 t ∧ t.drawCount = s.drawCount + (f + 1)) ∧
        ((∀ i : Nat, (i : Int) < rounds → trial n (drawIn 1 n (answer s i)) = true) →
          ∃ t, callMrtest n rounds s = .value 1 t ∧ t.drawCount = s.drawCount + rounds.toNat))) ∧
    (∀ text, upToLmax s.params text.length = true → fits s.params text.length = true →
      text.all isLower = true → fits s.params (encodeText text) = true →
      ∃ t, callEncode text s = .value (encodeText text) t) ∧
    (∀ v, fits s.params v = true → 0 ≤ v → upToLmax s.params (decodeText v).length = true →
      ∃ t, callDecode v s = .value (decodeText v) t) ∧
    (∃ t, callWipe s = .value () t ∧ t.a0 = 0 ∧ t.a1 = 0 ∧ t.r0 = 0 ∧ t.w = Working.zero)

/-- A CALL fails with the error kind that STATUS.ERR names and yields no result (R77): every cause of
R242, R243, R244 and R246 that the block reports. -/
def Obligations.CallsFailWithTheErrorKind : Prop :=
  ∀ s : State, statusInv s → s.phase = .idle → s.txt.wf = true →
    (∀ x c n, fits s.params x = true → fits s.params c = true → fits s.params n = true →
      n ≤ 1 ∨ c < 0 → ∃ t, callPowmod x c n s = .failed .domainError t) ∧
    (∀ a b, fits s.params a = true → fits s.params b = true → ¬ (b < a ∧ 0 < b) →
      ∃ t, callXgcd a b s = .failed .domainError t) ∧
    (∀ a m, fits s.params a = true → fits s.params m = true →
      (¬ (a < m ∧ 0 < a) → ∃ t, callModinv a m s = .failed .domainError t) ∧
      (a < m → 0 < a → Int.gcd a m ≠ 1 → ∃ t, callModinv a m s = .failed .noInverseError t)) ∧
    (∀ n a, fits s.params n = true → fits s.params a = true → 3 ≤ n → n % 2 = 1 →
      ¬ (1 ≤ a ∧ a < n) → ∃ t, callMrwit n a s = .failed .domainError t) ∧
    (∀ n rounds, fits s.params n = true → fits s.params rounds = true → rounds < 0 →
      ∃ t, callMrtest n rounds s = .failed .domainError t) ∧
    (∀ text, upToLmax s.params text.length = true → fits s.params text.length = true →
      (text.all isLower = false → ∃ t, callEncode text s = .failed .invalidCharacterError t) ∧
      (text.all isLower = true → fits s.params (encodeText text) = false →
        ∃ t, callEncode text s = .failed .capacityError t)) ∧
    (∀ v, fits s.params v = true →
      (v < 0 → ∃ t, callDecode v s = .failed .domainError t) ∧
      (0 ≤ v → upToLmax s.params (decodeText v).length = false →
        ∃ t, callDecode v s = .failed .capacityError t))

/-- GENPRIME returns an odd value of exactly bit_length bits (R213). -/
def Obligations.GenPrimeIsOddOfExactLength : Prop :=
  ∀ (bitLength rounds : Int) (draws : List Int) (s t : State) (v : Int),
    genPrime bitLength rounds draws s = .value v t → v % 2 = 1 ∧ (bitlen v : Int) = bitLength

/-- GENKEY from an idle block returns n = p*q twice, a public exponent in [2, phi - 2] coprime to phi
and its inverse modulo phi, and leaves no phi in the block (R214, R215). -/
def Obligations.GenKeyReturnsInverseExponents : Prop :=
  ∀ (p q : Int) (draws : List Int) (s t : State) (n b n' a : Int),
    statusInv s → s.phase = .idle → genKey p q draws s = .value ((n, b), (n', a)) t →
    n = p * q ∧ n' = p * q ∧ 2 ≤ b ∧ b ≤ (p - 1) * (q - 1) - 2 ∧
    Int.gcd b ((p - 1) * (q - 1)) = 1 ∧ a * b % ((p - 1) * (q - 1)) = 1 ∧
    0 < a ∧ a < (p - 1) * (q - 1) ∧
    t.a0 = 0 ∧ t.a1 = 0 ∧ t.a2 = 0 ∧ t.r0 = 0 ∧ t.r1 = 0 ∧ t.r2 = 0 ∧ t.w = Working.zero

/-- The cipher round trip (R220): for n a product of two distinct odd primes and exponents inverse
modulo (p-1)(q-1), ENCRYPT then DECRYPT of a lowercase text with encode(text) < n gives strip(text). -/
def Obligations.EncryptThenDecryptStrips : Prop :=
  ∀ (p q : Nat) (a b : Int) (text : List Byte) (s : State),
    p.Prime → q.Prime → p ≠ q → 3 ≤ p → 3 ≤ q → 0 ≤ a → 0 ≤ b →
    a * b % ((p - 1) * (q - 1) : Int) = 1 → text.all isLower = true →
    encodeText text < (p * q : Int) →
    upToLmax s.params text.length = true → fits s.params text.length = true →
    fits s.params (p * q : Int) = true → fits s.params a = true → fits s.params b = true →
    statusInv s → s.phase = .idle → s.txt.wf = true →
    ∃ c t, encrypt (p * q : Int) b text s = .value c t ∧ 0 ≤ c ∧ c < (p * q : Int) ∧
      ∃ u, decrypt (p * q : Int) a c t = .value (stripText text) u

/-- The whole flow (R221, R220): when it returns, its two exponents belong to one modulus, the ciphertext
lies in [0, n), and, if that modulus is a product of two distinct primes, the text that comes back is
strip(text). -/
def Obligations.FlowReturnsTheStrippedText : Prop :=
  ∀ (bitLength rounds : Int) (d : FlowDraws) (text : List Byte) (s t : State) (n b n' a c : Int)
    (text' : List Byte),
    statusInv s → s.phase = .idle → s.txt.wf = true →
    flow bitLength rounds d text s = .value (((n, b), (n', a)), c, text') t →
    n' = n ∧ 0 ≤ c ∧ c < n ∧
    (∀ p q : Nat, p.Prime → q.Prime → p ≠ q → n = (p * q : Int) → text' = stripText text)
end

