-- ==== Sys2Proof/Laws/Arith.lean ====
section
/-! SUPPORT. The arithmetic primitives mean what spec/00_scope.md R11 to R13 say. -/

namespace Sys2Proof.Machine

theorem bitlen_of_nonpos {c : Int} (h : c ≤ 0) : bitlen c = 0 := by simp [bitlen, h]

theorem lt_two_pow_bitlen {c : Int} (h : 0 ≤ c) : c < 2 ^ bitlen c := by
  unfold bitlen
  split
  · have : c = 0 := by omega
    simp [this]
  · have := Nat.lt_log2_self (n := c.toNat)
    have h2 : (c.toNat : Int) < ((2 ^ (Nat.log2 c.toNat + 1) : Nat) : Int) := by exact_mod_cast this
    rw [Int.toNat_of_nonneg h] at h2
    exact_mod_cast h2

theorem two_pow_le_of_bitlen {c : Int} (h : 0 < c) : 2 ^ (bitlen c - 1) ≤ c := by
  unfold bitlen
  rw [if_neg (by omega)]
  have := Nat.log2_self_le (n := c.toNat) (by omega)
  have h2 : ((2 ^ (Nat.log2 c.toNat) : Nat) : Int) ≤ (c.toNat : Int) := by exact_mod_cast this
  rw [Int.toNat_of_nonneg h.le] at h2
  simpa using h2

theorem bitlen_pos {c : Int} (h : 0 < c) : 0 < bitlen c := by
  unfold bitlen; rw [if_neg (by omega)]; omega

/-- `bitlen` is the one L with 2^(L-1) <= c < 2^L (R13). -/
theorem bitlen_eq {c : Int} {L : Nat} (h1 : 2 ^ L ≤ c) (h2 : c < 2 ^ (L + 1)) : bitlen c = L + 1 := by
  have hc : 0 < c := lt_of_lt_of_le (by positivity) h1
  have ha := two_pow_le_of_bitlen hc
  have hb := lt_two_pow_bitlen hc.le
  have hp := bitlen_pos hc
  have i1 : L < bitlen c := by
    have : (2 : Int) ^ L < 2 ^ bitlen c := lt_of_le_of_lt h1 hb
    exact (pow_lt_pow_iff_right₀ (by norm_num)).1 this
  have i2 : bitlen c - 1 < L + 1 := by
    have : (2 : Int) ^ (bitlen c - 1) < 2 ^ (L + 1) := lt_of_le_of_lt ha h2
    exact (pow_lt_pow_iff_right₀ (by norm_num)).1 this
  omega

theorem bitlen_mono {c d : Int} (h : c ≤ d) : bitlen c ≤ bitlen d := by
  by_cases hc : c ≤ 0
  · simp [bitlen_of_nonpos hc]
  · have ha := two_pow_le_of_bitlen (c := c) (by omega)
    have hb := lt_two_pow_bitlen (c := d) (by omega)
    have : (2 : Int) ^ (bitlen c - 1) < 2 ^ bitlen d := by omega
    have := (pow_lt_pow_iff_right₀ (by norm_num)).1 this
    omega

/-- No bit stands above the most significant one. -/
theorem div_two_pow_bitlen {c : Int} (h : 0 ≤ c) : c / 2 ^ bitlen c = 0 :=
  Int.ediv_eq_zero_of_lt h (lt_two_pow_bitlen h)

theorem bit_eq_zero_or_one (c : Int) (i : Nat) : bit c i = 0 ∨ bit c i = 1 := by
  unfold bit; omega

/-- The exponent read down to bit i is twice the exponent read down to bit i + 1, plus bit i. -/
theorem div_two_pow_succ (c : Int) (i : Nat) : c / 2 ^ i = 2 * (c / 2 ^ (i + 1)) + bit c i := by
  have : c / 2 ^ (i + 1) = (c / 2 ^ i) / 2 := by
    rw [pow_succ, Int.ediv_ediv_of_nonneg (by positivity)]
  unfold bit; rw [this]; omega

theorem drawIn_range {lo hi : Int} (h : lo < hi) (v : Int) : lo ≤ drawIn lo hi v ∧ drawIn lo hi v < hi := by
  unfold drawIn
  have h1 := Int.emod_nonneg (v - lo) (b := hi - lo) (by omega)
  have h2 := Int.emod_lt_of_pos (v - lo) (b := hi - lo) (by omega)
  omega

theorem drawIn_of_mem {lo hi v : Int} (h1 : lo ≤ v) (h2 : v < hi) : drawIn lo hi v = v := by
  unfold drawIn
  rw [Int.emod_eq_of_lt (by omega) (by omega)]; omega

theorem fits_iff (x l : Nat) (v : Int) :
    fits (.bounded x l) v = true ↔ -(2 ^ (x + 7) : Int) ≤ v ∧ v < 2 ^ (x + 7) := by
  simp [fits]

/-- A value no larger than one that fits, in absolute value, fits. -/
theorem fits_of_abs_le {p : Params} {a v : Int} (ha : fits p a = true) (h : |v| ≤ a) :
    fits p v = true := by
  cases p with
  | unbounded => rfl
  | bounded x l =>
    rw [fits_iff] at ha ⊢
    have := abs_le.1 h
    constructor <;> omega

theorem fits_of_le {p : Params} {a v : Int} (ha : fits p a = true) (h0 : 0 ≤ v) (h : v ≤ a) :
    fits p v = true := fits_of_abs_le ha (by rwa [abs_of_nonneg h0])

theorem fits_zero (p : Params) : fits p 0 = true := by
  cases p with
  | unbounded => rfl
  | bounded x l =>
    rw [fits_iff]
    have : (0 : Int) < 2 ^ (x + 7) := by positivity
    constructor <;> omega

theorem fits_one (p : Params) : fits p 1 = true := by
  cases p with
  | unbounded => rfl
  | bounded x l =>
    rw [fits_iff]
    have : (1 : Int) < 2 ^ (x + 7) := one_lt_pow₀ (by norm_num) (by omega)
    constructor <;> omega

theorem upToLmax_lenImage (p : Params) (v : Int) : upToLmax p (lenImage p v) = true := by
  cases p with
  | unbounded => rfl
  | bounded x l =>
    apply decide_eq_true
    show (v % 2 ^ (l + 3)).toNat < 2 ^ (l + 3)
    have hp : (0 : Int) < 2 ^ (l + 3) := by positivity
    have h2 := Int.emod_lt_of_pos v hp
    have h1 := Int.emod_nonneg v hp.ne'
    have : ((v % 2 ^ (l + 3)).toNat : Int) < ((2 ^ (l + 3) : Nat) : Int) := by
      rw [Int.toNat_of_nonneg h1]; exact_mod_cast h2
    exact_mod_cast this

theorem chr_toNat {d : Int} (h0 : 0 ≤ d) (h1 : d < 26) : (chr d).toNat = 0x61 + d.toNat := by
  unfold chr
  rw [BitVec.toNat_ofNat]
  omega

theorem letterIndex_chr {d : Int} (h0 : 0 ≤ d) (h1 : d < 26) : letterIndex (chr d) = d := by
  unfold letterIndex; rw [chr_toNat h0 h1]; omega

theorem isLower_chr {d : Int} (h0 : 0 ≤ d) (h1 : d < 26) : isLower (chr d) = true := by
  unfold isLower; rw [chr_toNat h0 h1]; simp; omega

theorem isLower_iff (ch : Byte) : isLower ch = true ↔ 0x61 ≤ ch.toNat ∧ ch.toNat ≤ 0x7A := by
  simp [isLower]

theorem letterIndex_range {ch : Byte} (h : isLower ch = true) :
    0 ≤ letterIndex ch ∧ letterIndex ch < 26 := by
  rw [isLower_iff] at h; unfold letterIndex; omega

theorem chr_letterIndex {ch : Byte} (h : isLower ch = true) : chr (letterIndex ch) = ch := by
  have hr := letterIndex_range h
  apply BitVec.eq_of_toNat_eq
  rw [chr_toNat hr.1 hr.2]
  rw [isLower_iff] at h; unfold letterIndex; omega

end Sys2Proof.Machine
end

