-- ==== Sys2Proof/Laws/State.lean ====
section
/-! SUPPORT. What each state operation leaves in each field, one lemma a field, true by rfl. -/

namespace Sys2Proof.Machine

variable (s : State)

@[simp] theorem setA0_params (v : Int) : (setA0 v s).params = s.params := rfl
@[simp] theorem setA0_a0 (v : Int) : (setA0 v s).a0 = v := rfl
@[simp] theorem setA0_a1 (v : Int) : (setA0 v s).a1 = s.a1 := rfl
@[simp] theorem setA0_a2 (v : Int) : (setA0 v s).a2 = s.a2 := rfl
@[simp] theorem setA0_r0 (v : Int) : (setA0 v s).r0 = s.r0 := rfl
@[simp] theorem setA0_r1 (v : Int) : (setA0 v s).r1 = s.r1 := rfl
@[simp] theorem setA0_r2 (v : Int) : (setA0 v s).r2 = s.r2 := rfl
@[simp] theorem setA0_len (v : Int) : (setA0 v s).len = s.len := rfl
@[simp] theorem setA0_txt (v : Int) : (setA0 v s).txt = s.txt := rfl
@[simp] theorem setA0_status (v : Int) : (setA0 v s).status = s.status := rfl
@[simp] theorem setA0_phase (v : Int) : (setA0 v s).phase = s.phase := rfl
@[simp] theorem setA0_w (v : Int) : (setA0 v s).w = s.w := rfl
@[simp] theorem setA0_written (v : Int) : (setA0 v s).written = { s.written with a0 := true } := rfl
@[simp] theorem setA0_turns (v : Int) : (setA0 v s).turns = s.turns := rfl
@[simp] theorem setA0_draws (v : Int) : (setA0 v s).draws = s.draws := rfl
@[simp] theorem setA0_drawCount (v : Int) : (setA0 v s).drawCount = s.drawCount := rfl

@[simp] theorem setA1_params (v : Int) : (setA1 v s).params = s.params := rfl
@[simp] theorem setA1_a0 (v : Int) : (setA1 v s).a0 = s.a0 := rfl
@[simp] theorem setA1_a1 (v : Int) : (setA1 v s).a1 = v := rfl
@[simp] theorem setA1_a2 (v : Int) : (setA1 v s).a2 = s.a2 := rfl
@[simp] theorem setA1_r0 (v : Int) : (setA1 v s).r0 = s.r0 := rfl
@[simp] theorem setA1_r1 (v : Int) : (setA1 v s).r1 = s.r1 := rfl
@[simp] theorem setA1_r2 (v : Int) : (setA1 v s).r2 = s.r2 := rfl
@[simp] theorem setA1_len (v : Int) : (setA1 v s).len = s.len := rfl
@[simp] theorem setA1_txt (v : Int) : (setA1 v s).txt = s.txt := rfl
@[simp] theorem setA1_status (v : Int) : (setA1 v s).status = s.status := rfl
@[simp] theorem setA1_phase (v : Int) : (setA1 v s).phase = s.phase := rfl
@[simp] theorem setA1_w (v : Int) : (setA1 v s).w = s.w := rfl
@[simp] theorem setA1_written (v : Int) : (setA1 v s).written = { s.written with a1 := true } := rfl
@[simp] theorem setA1_turns (v : Int) : (setA1 v s).turns = s.turns := rfl
@[simp] theorem setA1_draws (v : Int) : (setA1 v s).draws = s.draws := rfl
@[simp] theorem setA1_drawCount (v : Int) : (setA1 v s).drawCount = s.drawCount := rfl

@[simp] theorem setA2_params (v : Int) : (setA2 v s).params = s.params := rfl
@[simp] theorem setA2_a0 (v : Int) : (setA2 v s).a0 = s.a0 := rfl
@[simp] theorem setA2_a1 (v : Int) : (setA2 v s).a1 = s.a1 := rfl
@[simp] theorem setA2_a2 (v : Int) : (setA2 v s).a2 = v := rfl
@[simp] theorem setA2_r0 (v : Int) : (setA2 v s).r0 = s.r0 := rfl
@[simp] theorem setA2_r1 (v : Int) : (setA2 v s).r1 = s.r1 := rfl
@[simp] theorem setA2_r2 (v : Int) : (setA2 v s).r2 = s.r2 := rfl
@[simp] theorem setA2_len (v : Int) : (setA2 v s).len = s.len := rfl
@[simp] theorem setA2_txt (v : Int) : (setA2 v s).txt = s.txt := rfl
@[simp] theorem setA2_status (v : Int) : (setA2 v s).status = s.status := rfl
@[simp] theorem setA2_phase (v : Int) : (setA2 v s).phase = s.phase := rfl
@[simp] theorem setA2_w (v : Int) : (setA2 v s).w = s.w := rfl
@[simp] theorem setA2_written (v : Int) : (setA2 v s).written = { s.written with a2 := true } := rfl
@[simp] theorem setA2_turns (v : Int) : (setA2 v s).turns = s.turns := rfl
@[simp] theorem setA2_draws (v : Int) : (setA2 v s).draws = s.draws := rfl
@[simp] theorem setA2_drawCount (v : Int) : (setA2 v s).drawCount = s.drawCount := rfl

@[simp] theorem setR0_params (v : Int) : (setR0 v s).params = s.params := rfl
@[simp] theorem setR0_a0 (v : Int) : (setR0 v s).a0 = s.a0 := rfl
@[simp] theorem setR0_a1 (v : Int) : (setR0 v s).a1 = s.a1 := rfl
@[simp] theorem setR0_a2 (v : Int) : (setR0 v s).a2 = s.a2 := rfl
@[simp] theorem setR0_r0 (v : Int) : (setR0 v s).r0 = v := rfl
@[simp] theorem setR0_r1 (v : Int) : (setR0 v s).r1 = s.r1 := rfl
@[simp] theorem setR0_r2 (v : Int) : (setR0 v s).r2 = s.r2 := rfl
@[simp] theorem setR0_len (v : Int) : (setR0 v s).len = s.len := rfl
@[simp] theorem setR0_txt (v : Int) : (setR0 v s).txt = s.txt := rfl
@[simp] theorem setR0_status (v : Int) : (setR0 v s).status = s.status := rfl
@[simp] theorem setR0_phase (v : Int) : (setR0 v s).phase = s.phase := rfl
@[simp] theorem setR0_w (v : Int) : (setR0 v s).w = s.w := rfl
@[simp] theorem setR0_written (v : Int) : (setR0 v s).written = { s.written with r0 := true } := rfl
@[simp] theorem setR0_turns (v : Int) : (setR0 v s).turns = s.turns := rfl
@[simp] theorem setR0_draws (v : Int) : (setR0 v s).draws = s.draws := rfl
@[simp] theorem setR0_drawCount (v : Int) : (setR0 v s).drawCount = s.drawCount := rfl

@[simp] theorem setR1_params (v : Int) : (setR1 v s).params = s.params := rfl
@[simp] theorem setR1_a0 (v : Int) : (setR1 v s).a0 = s.a0 := rfl
@[simp] theorem setR1_a1 (v : Int) : (setR1 v s).a1 = s.a1 := rfl
@[simp] theorem setR1_a2 (v : Int) : (setR1 v s).a2 = s.a2 := rfl
@[simp] theorem setR1_r0 (v : Int) : (setR1 v s).r0 = s.r0 := rfl
@[simp] theorem setR1_r1 (v : Int) : (setR1 v s).r1 = v := rfl
@[simp] theorem setR1_r2 (v : Int) : (setR1 v s).r2 = s.r2 := rfl
@[simp] theorem setR1_len (v : Int) : (setR1 v s).len = s.len := rfl
@[simp] theorem setR1_txt (v : Int) : (setR1 v s).txt = s.txt := rfl
@[simp] theorem setR1_status (v : Int) : (setR1 v s).status = s.status := rfl
@[simp] theorem setR1_phase (v : Int) : (setR1 v s).phase = s.phase := rfl
@[simp] theorem setR1_w (v : Int) : (setR1 v s).w = s.w := rfl
@[simp] theorem setR1_written (v : Int) : (setR1 v s).written = { s.written with r1 := true } := rfl
@[simp] theorem setR1_turns (v : Int) : (setR1 v s).turns = s.turns := rfl
@[simp] theorem setR1_draws (v : Int) : (setR1 v s).draws = s.draws := rfl
@[simp] theorem setR1_drawCount (v : Int) : (setR1 v s).drawCount = s.drawCount := rfl

@[simp] theorem setR2_params (v : Int) : (setR2 v s).params = s.params := rfl
@[simp] theorem setR2_a0 (v : Int) : (setR2 v s).a0 = s.a0 := rfl
@[simp] theorem setR2_a1 (v : Int) : (setR2 v s).a1 = s.a1 := rfl
@[simp] theorem setR2_a2 (v : Int) : (setR2 v s).a2 = s.a2 := rfl
@[simp] theorem setR2_r0 (v : Int) : (setR2 v s).r0 = s.r0 := rfl
@[simp] theorem setR2_r1 (v : Int) : (setR2 v s).r1 = s.r1 := rfl
@[simp] theorem setR2_r2 (v : Int) : (setR2 v s).r2 = v := rfl
@[simp] theorem setR2_len (v : Int) : (setR2 v s).len = s.len := rfl
@[simp] theorem setR2_txt (v : Int) : (setR2 v s).txt = s.txt := rfl
@[simp] theorem setR2_status (v : Int) : (setR2 v s).status = s.status := rfl
@[simp] theorem setR2_phase (v : Int) : (setR2 v s).phase = s.phase := rfl
@[simp] theorem setR2_w (v : Int) : (setR2 v s).w = s.w := rfl
@[simp] theorem setR2_written (v : Int) : (setR2 v s).written = { s.written with r2 := true } := rfl
@[simp] theorem setR2_turns (v : Int) : (setR2 v s).turns = s.turns := rfl
@[simp] theorem setR2_draws (v : Int) : (setR2 v s).draws = s.draws := rfl
@[simp] theorem setR2_drawCount (v : Int) : (setR2 v s).drawCount = s.drawCount := rfl

@[simp] theorem setLen_params (n : Nat) : (setLen n s).params = s.params := rfl
@[simp] theorem setLen_a0 (n : Nat) : (setLen n s).a0 = s.a0 := rfl
@[simp] theorem setLen_a1 (n : Nat) : (setLen n s).a1 = s.a1 := rfl
@[simp] theorem setLen_a2 (n : Nat) : (setLen n s).a2 = s.a2 := rfl
@[simp] theorem setLen_r0 (n : Nat) : (setLen n s).r0 = s.r0 := rfl
@[simp] theorem setLen_r1 (n : Nat) : (setLen n s).r1 = s.r1 := rfl
@[simp] theorem setLen_r2 (n : Nat) : (setLen n s).r2 = s.r2 := rfl
@[simp] theorem setLen_len (n : Nat) : (setLen n s).len = n := rfl
@[simp] theorem setLen_txt (n : Nat) : (setLen n s).txt = s.txt := rfl
@[simp] theorem setLen_status (n : Nat) : (setLen n s).status = s.status := rfl
@[simp] theorem setLen_phase (n : Nat) : (setLen n s).phase = s.phase := rfl
@[simp] theorem setLen_w (n : Nat) : (setLen n s).w = s.w := rfl
@[simp] theorem setLen_written (n : Nat) : (setLen n s).written = s.written := rfl
@[simp] theorem setLen_turns (n : Nat) : (setLen n s).turns = s.turns := rfl
@[simp] theorem setLen_draws (n : Nat) : (setLen n s).draws = s.draws := rfl
@[simp] theorem setLen_drawCount (n : Nat) : (setLen n s).drawCount = s.drawCount := rfl

@[simp] theorem setTxt_params (t : Text) : (setTxt t s).params = s.params := rfl
@[simp] theorem setTxt_a0 (t : Text) : (setTxt t s).a0 = s.a0 := rfl
@[simp] theorem setTxt_a1 (t : Text) : (setTxt t s).a1 = s.a1 := rfl
@[simp] theorem setTxt_a2 (t : Text) : (setTxt t s).a2 = s.a2 := rfl
@[simp] theorem setTxt_r0 (t : Text) : (setTxt t s).r0 = s.r0 := rfl
@[simp] theorem setTxt_r1 (t : Text) : (setTxt t s).r1 = s.r1 := rfl
@[simp] theorem setTxt_r2 (t : Text) : (setTxt t s).r2 = s.r2 := rfl
@[simp] theorem setTxt_len (t : Text) : (setTxt t s).len = s.len := rfl
@[simp] theorem setTxt_txt (t : Text) : (setTxt t s).txt = t := rfl
@[simp] theorem setTxt_status (t : Text) : (setTxt t s).status = s.status := rfl
@[simp] theorem setTxt_phase (t : Text) : (setTxt t s).phase = s.phase := rfl
@[simp] theorem setTxt_w (t : Text) : (setTxt t s).w = s.w := rfl
@[simp] theorem setTxt_written (t : Text) : (setTxt t s).written = s.written := rfl
@[simp] theorem setTxt_turns (t : Text) : (setTxt t s).turns = s.turns := rfl
@[simp] theorem setTxt_draws (t : Text) : (setTxt t s).draws = s.draws := rfl
@[simp] theorem setTxt_drawCount (t : Text) : (setTxt t s).drawCount = s.drawCount := rfl

@[simp] theorem setStatus_params (b d : Bool) (e : BitVec 3) : (setStatus b d e s).params = s.params := rfl
@[simp] theorem setStatus_a0 (b d : Bool) (e : BitVec 3) : (setStatus b d e s).a0 = s.a0 := rfl
@[simp] theorem setStatus_a1 (b d : Bool) (e : BitVec 3) : (setStatus b d e s).a1 = s.a1 := rfl
@[simp] theorem setStatus_a2 (b d : Bool) (e : BitVec 3) : (setStatus b d e s).a2 = s.a2 := rfl
@[simp] theorem setStatus_r0 (b d : Bool) (e : BitVec 3) : (setStatus b d e s).r0 = s.r0 := rfl
@[simp] theorem setStatus_r1 (b d : Bool) (e : BitVec 3) : (setStatus b d e s).r1 = s.r1 := rfl
@[simp] theorem setStatus_r2 (b d : Bool) (e : BitVec 3) : (setStatus b d e s).r2 = s.r2 := rfl
@[simp] theorem setStatus_len (b d : Bool) (e : BitVec 3) : (setStatus b d e s).len = s.len := rfl
@[simp] theorem setStatus_txt (b d : Bool) (e : BitVec 3) : (setStatus b d e s).txt = s.txt := rfl
@[simp] theorem setStatus_status (b d : Bool) (e : BitVec 3) : (setStatus b d e s).status = statusOf b d e := rfl
@[simp] theorem setStatus_phase (b d : Bool) (e : BitVec 3) : (setStatus b d e s).phase = s.phase := rfl
@[simp] theorem setStatus_w (b d : Bool) (e : BitVec 3) : (setStatus b d e s).w = s.w := rfl
@[simp] theorem setStatus_written (b d : Bool) (e : BitVec 3) : (setStatus b d e s).written = s.written := rfl
@[simp] theorem setStatus_turns (b d : Bool) (e : BitVec 3) : (setStatus b d e s).turns = s.turns := rfl
@[simp] theorem setStatus_draws (b d : Bool) (e : BitVec 3) : (setStatus b d e s).draws = s.draws := rfl
@[simp] theorem setStatus_drawCount (b d : Bool) (e : BitVec 3) : (setStatus b d e s).drawCount = s.drawCount := rfl

@[simp] theorem setPhase_params (p : Phase) : (setPhase p s).params = s.params := rfl
@[simp] theorem setPhase_a0 (p : Phase) : (setPhase p s).a0 = s.a0 := rfl
@[simp] theorem setPhase_a1 (p : Phase) : (setPhase p s).a1 = s.a1 := rfl
@[simp] theorem setPhase_a2 (p : Phase) : (setPhase p s).a2 = s.a2 := rfl
@[simp] theorem setPhase_r0 (p : Phase) : (setPhase p s).r0 = s.r0 := rfl
@[simp] theorem setPhase_r1 (p : Phase) : (setPhase p s).r1 = s.r1 := rfl
@[simp] theorem setPhase_r2 (p : Phase) : (setPhase p s).r2 = s.r2 := rfl
@[simp] theorem setPhase_len (p : Phase) : (setPhase p s).len = s.len := rfl
@[simp] theorem setPhase_txt (p : Phase) : (setPhase p s).txt = s.txt := rfl
@[simp] theorem setPhase_status (p : Phase) : (setPhase p s).status = s.status := rfl
@[simp] theorem setPhase_phase (p : Phase) : (setPhase p s).phase = p := rfl
@[simp] theorem setPhase_w (p : Phase) : (setPhase p s).w = s.w := rfl
@[simp] theorem setPhase_written (p : Phase) : (setPhase p s).written = s.written := rfl
@[simp] theorem setPhase_turns (p : Phase) : (setPhase p s).turns = s.turns := rfl
@[simp] theorem setPhase_draws (p : Phase) : (setPhase p s).draws = s.draws := rfl
@[simp] theorem setPhase_drawCount (p : Phase) : (setPhase p s).drawCount = s.drawCount := rfl

@[simp] theorem setW_params (w : Working) : (setW w s).params = s.params := rfl
@[simp] theorem setW_a0 (w : Working) : (setW w s).a0 = s.a0 := rfl
@[simp] theorem setW_a1 (w : Working) : (setW w s).a1 = s.a1 := rfl
@[simp] theorem setW_a2 (w : Working) : (setW w s).a2 = s.a2 := rfl
@[simp] theorem setW_r0 (w : Working) : (setW w s).r0 = s.r0 := rfl
@[simp] theorem setW_r1 (w : Working) : (setW w s).r1 = s.r1 := rfl
@[simp] theorem setW_r2 (w : Working) : (setW w s).r2 = s.r2 := rfl
@[simp] theorem setW_len (w : Working) : (setW w s).len = s.len := rfl
@[simp] theorem setW_txt (w : Working) : (setW w s).txt = s.txt := rfl
@[simp] theorem setW_status (w : Working) : (setW w s).status = s.status := rfl
@[simp] theorem setW_phase (w : Working) : (setW w s).phase = s.phase := rfl
@[simp] theorem setW_w (w : Working) : (setW w s).w = w := rfl
@[simp] theorem setW_written (w : Working) : (setW w s).written = s.written := rfl
@[simp] theorem setW_turns (w : Working) : (setW w s).turns = s.turns := rfl
@[simp] theorem setW_draws (w : Working) : (setW w s).draws = s.draws := rfl
@[simp] theorem setW_drawCount (w : Working) : (setW w s).drawCount = s.drawCount := rfl

@[simp] theorem dropTurn_params : (dropTurn s).params = s.params := rfl
@[simp] theorem dropTurn_a0 : (dropTurn s).a0 = s.a0 := rfl
@[simp] theorem dropTurn_a1 : (dropTurn s).a1 = s.a1 := rfl
@[simp] theorem dropTurn_a2 : (dropTurn s).a2 = s.a2 := rfl
@[simp] theorem dropTurn_r0 : (dropTurn s).r0 = s.r0 := rfl
@[simp] theorem dropTurn_r1 : (dropTurn s).r1 = s.r1 := rfl
@[simp] theorem dropTurn_r2 : (dropTurn s).r2 = s.r2 := rfl
@[simp] theorem dropTurn_len : (dropTurn s).len = s.len := rfl
@[simp] theorem dropTurn_txt : (dropTurn s).txt = s.txt := rfl
@[simp] theorem dropTurn_status : (dropTurn s).status = s.status := rfl
@[simp] theorem dropTurn_phase : (dropTurn s).phase = s.phase := rfl
@[simp] theorem dropTurn_w : (dropTurn s).w = s.w := rfl
@[simp] theorem dropTurn_written : (dropTurn s).written = s.written := rfl
@[simp] theorem dropTurn_turns : (dropTurn s).turns = s.turns.tail := rfl
@[simp] theorem dropTurn_draws : (dropTurn s).draws = s.draws := rfl
@[simp] theorem dropTurn_drawCount : (dropTurn s).drawCount = s.drawCount := rfl

@[simp] theorem afterDraws_params (k : Nat) : (afterDraws k s).params = s.params := rfl
@[simp] theorem afterDraws_a0 (k : Nat) : (afterDraws k s).a0 = s.a0 := rfl
@[simp] theorem afterDraws_a1 (k : Nat) : (afterDraws k s).a1 = s.a1 := rfl
@[simp] theorem afterDraws_a2 (k : Nat) : (afterDraws k s).a2 = s.a2 := rfl
@[simp] theorem afterDraws_r0 (k : Nat) : (afterDraws k s).r0 = s.r0 := rfl
@[simp] theorem afterDraws_r1 (k : Nat) : (afterDraws k s).r1 = s.r1 := rfl
@[simp] theorem afterDraws_r2 (k : Nat) : (afterDraws k s).r2 = s.r2 := rfl
@[simp] theorem afterDraws_len (k : Nat) : (afterDraws k s).len = s.len := rfl
@[simp] theorem afterDraws_txt (k : Nat) : (afterDraws k s).txt = s.txt := rfl
@[simp] theorem afterDraws_status (k : Nat) : (afterDraws k s).status = s.status := rfl
@[simp] theorem afterDraws_phase (k : Nat) : (afterDraws k s).phase = s.phase := rfl
@[simp] theorem afterDraws_w (k : Nat) : (afterDraws k s).w = s.w := rfl
@[simp] theorem afterDraws_written (k : Nat) : (afterDraws k s).written = s.written := rfl
@[simp] theorem afterDraws_turns (k : Nat) : (afterDraws k s).turns = s.turns := rfl
@[simp] theorem afterDraws_draws (k : Nat) : (afterDraws k s).draws = s.draws.drop k := rfl
@[simp] theorem afterDraws_drawCount (k : Nat) : (afterDraws k s).drawCount = s.drawCount + k := rfl

@[simp] theorem startCommand_params (k : Byte) : (startCommand k s).params = s.params := rfl
@[simp] theorem startCommand_a0 (k : Byte) : (startCommand k s).a0 = s.a0 := rfl
@[simp] theorem startCommand_a1 (k : Byte) : (startCommand k s).a1 = s.a1 := rfl
@[simp] theorem startCommand_a2 (k : Byte) : (startCommand k s).a2 = s.a2 := rfl
@[simp] theorem startCommand_r0 (k : Byte) : (startCommand k s).r0 = s.r0 := rfl
@[simp] theorem startCommand_r1 (k : Byte) : (startCommand k s).r1 = s.r1 := rfl
@[simp] theorem startCommand_r2 (k : Byte) : (startCommand k s).r2 = s.r2 := rfl
@[simp] theorem startCommand_len (k : Byte) : (startCommand k s).len = s.len := rfl
@[simp] theorem startCommand_txt (k : Byte) : (startCommand k s).txt = s.txt := rfl
@[simp] theorem startCommand_status (k : Byte) : (startCommand k s).status = statusOf true false 0#3 := rfl
@[simp] theorem startCommand_phase (k : Byte) : (startCommand k s).phase = .start := rfl
@[simp] theorem startCommand_w (k : Byte) : (startCommand k s).w = { s.w with cmd := k } := rfl
@[simp] theorem startCommand_written (k : Byte) : (startCommand k s).written = s.written := rfl
@[simp] theorem startCommand_turns (k : Byte) : (startCommand k s).turns = s.turns := rfl
@[simp] theorem startCommand_draws (k : Byte) : (startCommand k s).draws = s.draws := rfl
@[simp] theorem startCommand_drawCount (k : Byte) : (startCommand k s).drawCount = s.drawCount := rfl

@[simp] theorem complete_params : (complete s).params = s.params := rfl
@[simp] theorem complete_a0 : (complete s).a0 = s.a0 := rfl
@[simp] theorem complete_a1 : (complete s).a1 = s.a1 := rfl
@[simp] theorem complete_a2 : (complete s).a2 = s.a2 := rfl
@[simp] theorem complete_r0 : (complete s).r0 = s.r0 := rfl
@[simp] theorem complete_r1 : (complete s).r1 = s.r1 := rfl
@[simp] theorem complete_r2 : (complete s).r2 = s.r2 := rfl
@[simp] theorem complete_len : (complete s).len = s.len := rfl
@[simp] theorem complete_txt : (complete s).txt = s.txt := rfl
@[simp] theorem complete_status : (complete s).status = statusOf false true 0#3 := rfl
@[simp] theorem complete_phase : (complete s).phase = .idle := rfl
@[simp] theorem complete_w : (complete s).w = s.w := rfl
@[simp] theorem complete_written : (complete s).written = s.written := rfl
@[simp] theorem complete_turns : (complete s).turns = s.turns := rfl
@[simp] theorem complete_draws : (complete s).draws = s.draws := rfl
@[simp] theorem complete_drawCount : (complete s).drawCount = s.drawCount := rfl

@[simp] theorem raise_params (k : ErrKind) : (raise k s).params = s.params := rfl
@[simp] theorem raise_a0 (k : ErrKind) : (raise k s).a0 = s.a0 := rfl
@[simp] theorem raise_a1 (k : ErrKind) : (raise k s).a1 = s.a1 := rfl
@[simp] theorem raise_a2 (k : ErrKind) : (raise k s).a2 = s.a2 := rfl
@[simp] theorem raise_r0 (k : ErrKind) : (raise k s).r0 = s.r0 := rfl
@[simp] theorem raise_r1 (k : ErrKind) : (raise k s).r1 = s.r1 := rfl
@[simp] theorem raise_r2 (k : ErrKind) : (raise k s).r2 = s.r2 := rfl
@[simp] theorem raise_len (k : ErrKind) : (raise k s).len = s.len := rfl
@[simp] theorem raise_txt (k : ErrKind) : (raise k s).txt = s.txt := rfl
@[simp] theorem raise_status (k : ErrKind) : (raise k s).status = statusOf false true (errCode k) := rfl
@[simp] theorem raise_phase (k : ErrKind) : (raise k s).phase = .idle := rfl
@[simp] theorem raise_w (k : ErrKind) : (raise k s).w = s.w := rfl
@[simp] theorem raise_written (k : ErrKind) : (raise k s).written = s.written := rfl
@[simp] theorem raise_turns (k : ErrKind) : (raise k s).turns = s.turns := rfl
@[simp] theorem raise_draws (k : ErrKind) : (raise k s).draws = s.draws := rfl
@[simp] theorem raise_drawCount (k : ErrKind) : (raise k s).drawCount = s.drawCount := rfl

@[simp] theorem wiped_params : (wiped s).params = s.params := rfl
@[simp] theorem wiped_a0 : (wiped s).a0 = 0 := rfl
@[simp] theorem wiped_a1 : (wiped s).a1 = 0 := rfl
@[simp] theorem wiped_a2 : (wiped s).a2 = 0 := rfl
@[simp] theorem wiped_r0 : (wiped s).r0 = 0 := rfl
@[simp] theorem wiped_r1 : (wiped s).r1 = 0 := rfl
@[simp] theorem wiped_r2 : (wiped s).r2 = 0 := rfl
@[simp] theorem wiped_len : (wiped s).len = 0 := rfl
@[simp] theorem wiped_txt : (wiped s).txt = Text.zeroed := rfl
@[simp] theorem wiped_status : (wiped s).status = s.status := rfl
@[simp] theorem wiped_phase : (wiped s).phase = s.phase := rfl
@[simp] theorem wiped_w : (wiped s).w = Working.zero := rfl
@[simp] theorem wiped_written : (wiped s).written = Written.all := rfl
@[simp] theorem wiped_turns : (wiped s).turns = s.turns := rfl
@[simp] theorem wiped_draws : (wiped s).draws = s.draws := rfl
@[simp] theorem wiped_drawCount : (wiped s).drawCount = s.drawCount := rfl

end Sys2Proof.Machine
end

