-- ==== Sys2Proof/Laws/Exec.lean ====
section
/-! SUPPORT. What `exec`, `seqStep`, `step` and a run are, said once: callers cite these equations and
do not unfold the dispatch (spec/30_encoding.md R73, spec/10_state.md R33, R34). -/

namespace Sys2Proof.Machine

/-- The start step of a command (R73). -/
theorem exec_start {s : State} (h : s.phase = .start) (i : Instr) :
    exec i s = match i with
      | .powmod => powmodStart s
      | .xgcd => xgcdStart s
      | .modinv => modinvStart s
      | .mrwit => mrwitStart s
      | .mrtest => mrtestStart s
      | .encode => encodeStart s
      | .decode => decodeStart s
      | .wipe => wipeStart s := by
  cases i <;>
    simp only [exec, execPowmod, execXgcd, execModinv, execMrwit, execMrtest, execEncode, execDecode,
      execWipe, commandStep, h]

/-- Outside START every command does the step of the current phase (R34). -/
theorem exec_eq_commandStep (i : Instr) (s : State) :
    exec i s = commandStep (exec i) s := by
  rcases hp : s.phase <;> cases i <;>
    simp only [exec, execPowmod, execXgcd, execModinv, execMrwit, execMrtest, execEncode, execDecode,
      execWipe, commandStep, hp]

/-- In a phase other than START the step does not depend on the command (R34). -/
theorem commandStep_congr {s : State} (h : s.phase ≠ .start) (f g : State → StepOutcome) :
    commandStep f s = commandStep g s := by
  rcases hp : s.phase <;> simp_all [commandStep]

theorem exec_eq_loop {s : State} (h : s.phase ≠ .start) (i : Instr) (f : State → StepOutcome) :
    exec i s = commandStep f s := by
  rw [exec_eq_commandStep]; exact commandStep_congr h _ _

/-- The SEQ step is one step of the latched command, or of an illegal code. -/
theorem seqStep_eq_loop {s : State} (h : s.phase ≠ .start) (f : State → StepOutcome) :
    seqStep s = commandStep f s := by
  unfold seqStep
  split
  · exact exec_eq_loop h _ f
  · exact commandStep_congr h _ _

theorem seqStep_eq_exec {s : State} {i : Instr} (h : decode s.w.cmd = some i) :
    seqStep s = exec i s := by simp [seqStep, h]

theorem seqStep_illegal {s : State} (h : decode s.w.cmd = none) (hp : s.phase = .start) :
    seqStep s = .next (raise .illegalCommand s) := by
  simp [seqStep, h, execIllegal, commandStep, hp, illegalStart]

theorem step_of_no_turns {s : State} (h : s.turns = []) : step s = seqStep s := by
  simp [step, h]

/-- In the phase an idle block is in, SEQ changes nothing (R34, R261). -/
theorem seqStep_idle {s : State} (h : s.phase = .idle) : seqStep s = .next s := by
  rw [seqStep_eq_loop (by simp [h]) illegalStart]; simp [commandStep, h]

theorem runSteps_zero (s : State) : runSteps 0 s = .next s := rfl

/-- A run goes on after a step. -/
theorem runSteps_succ {s s' : State} (h : step s = .next s') (k : Nat) :
    runSteps (k + 1) s = runSteps k s' := by
  simp [runSteps, h]

theorem runSteps_add {s s' : State} {j : Nat} (h : runSteps j s = .next s') (k : Nat) :
    runSteps (j + k) s = runSteps k s' := by
  induction j generalizing s with
  | zero =>
    simp only [runSteps_zero, Host.Outcome.next.injEq] at h
    simp [h]
  | succ j ih =>
    rw [show j + 1 + k = (j + k) + 1 by omega]
    rcases hs : step s with t | r | r <;> simp only [runSteps, hs] at h ⊢
    · exact ih h
    all_goals exact absurd h (by simp)

end Sys2Proof.Machine
end

