-- ==== Sys2Proof/Laws/Flags.lean ====
section
/-! SUPPORT. The fields of a STATUS image, and the error codes (spec/10_state.md R25, R26,
spec/60_exceptions.md R241). -/

namespace Sys2Proof.Machine

@[simp] theorem statusBusy_statusOf : ∀ (b d : Bool) (e : BitVec 3), statusBusy (statusOf b d e) = b := by
  decide

@[simp] theorem statusDone_statusOf : ∀ (b d : Bool) (e : BitVec 3), statusDone (statusOf b d e) = d := by
  decide

@[simp] theorem statusErr_statusOf : ∀ (b d : Bool) (e : BitVec 3), statusErr (statusOf b d e) = e := by
  decide

@[simp] theorem statusReserved_statusOf :
    ∀ (b d : Bool) (e : BitVec 3), statusReserved (statusOf b d e) = 0#3 := by
  decide

theorem errCode_ne_zero (k : ErrKind) : errCode k ≠ 0#3 := by cases k <;> decide

theorem errCode_le (k : ErrKind) : (errCode k).toNat ≤ 5 := by cases k <;> decide

@[simp] theorem errOfCode_errCode (k : ErrKind) : errOfCode (errCode k) = some k := by cases k <;> rfl

@[simp] theorem errOfCode_zero : errOfCode 0#3 = none := rfl

end Sys2Proof.Machine
end

