-- ==== Sys2Proof/Laws/HostSequences.lean ====
section
/-! SUPPORT. How a host program goes on (spec/30_encoding.md R76, R77): what each host access and each SEQ
turn of it is, and how a composed program returns a value. Callers cite these and do not unfold `step`. -/

namespace Sys2Proof.Machine

@[simp] theorem afterStep_next {α : Type} (s : State) (f : State → HostResult α) :
    afterStep (.next s) f = f s := rfl

@[simp] theorem andThen_value {α β : Type} (a : α) (s : State) (f : α → State → HostResult β) :
    andThen (.value a s) f = f a s := rfl

@[simp] theorem andThen_failed {α β : Type} (k : ErrKind) (s : State) (f : α → State → HostResult β) :
    andThen (.failed k s) f = .failed k s := rfl

@[simp] theorem andThen_stopped {α β : Type} (o : StepOutcome) (f : α → State → HostResult β) :
    andThen (.stopped o) f = .stopped o := rfl

/-- A composed program returns a value exactly when its first part does and the rest does from there. -/
theorem andThen_eq_value {α β : Type} {x : HostResult α} {f : α → State → HostResult β} {b : β}
    {t : State} : andThen x f = .value b t ↔ ∃ a s, x = .value a s ∧ f a s = .value b t := by
  cases x <;> simp [andThen]

/-- The same after one step of the machine. -/
theorem afterStep_eq_value {α : Type} {o : StepOutcome} {f : State → HostResult α} {b : α} {t : State} :
    afterStep o f = .value b t ↔ ∃ s, o = .next s ∧ f s = .value b t := by
  cases o <;> simp [afterStep]

/-- A host access is one host step, with no other turn left. -/
theorem hostDo_eq (op : HostOp) (s : State) : hostDo op s = hostStep op { s with turns := [] } := rfl

/-- A turn of SEQ is one SEQ step, with no other turn left. -/
theorem seqDo_eq (s : State) : seqDo s = seqStep { s with turns := [] } := rfl

/-- `rd` yields the register and changes nothing of the block (R60). -/
@[simp] theorem rd_eq (r : RegNum) (s : State) : rd r s = .value (hostRead s r) { s with turns := [] } := rfl

/-- The STATUS byte that `rd STATUS` yields is the register. -/
theorem ofInt_hostRead_status (s : State) : BitVec.ofInt 8 (hostRead s 0x9#4) = s.status := by
  show BitVec.ofInt 8 (s.status.toNat : Int) = s.status
  simp

/-- One cell of `rdtxt`: a cell that exists and holds a value is yielded, and the rest follows. -/
theorem rdCells_succ {s : State} {i : Nat} {ch : Byte} (hi : upToLmax s.params i = true)
    (hc : s.txt.read i = some ch) (n : Nat) :
    rdCells i (n + 1) s =
      andThen (rdCells (i + 1) n { s with turns := [] }) (fun str => .value (ch :: str)) := by
  simp [rdCells, hostDo_eq, hostStep, hi, hostReadTxt, hc]

/-- `rdtxt` stops at a cell that nothing has written (log entry 14). -/
theorem rdCells_unwritten {s : State} {i : Nat} (hi : upToLmax s.params i = true)
    (hc : s.txt.read i = none) (n : Nat) :
    rdCells i (n + 1) s = .stopped (.fault (.unwrittenText i)) := by
  simp [rdCells, hostDo_eq, hostStep, hi, hostReadTxt, hc]

end Sys2Proof.Machine
end

