-- ==== Sys2Proof/Laws/Inversion.lean ====
section
/-! SUPPORT. What a SEQ step can do, said once: it goes on to a phase that is not IDLE, changing only
working registers and the oracle's position; or it raises an error; or it completes with the results
of spec/10_state.md R22. Callers split on `SeqOutcome` and do not unfold the commands. -/

namespace Sys2Proof.Machine

/-- The next states of a SEQ step from a phase other than IDLE. -/
inductive SeqOutcome (s : State) : State → Prop where
  | goesOn (p : Phase) (w : Working) (d : Nat) (hp : p ≠ .idle) (hc : w.cmd = s.w.cmd) :
      SeqOutcome s (setPhase p (setW w (afterDraws d s)))
  | raises (k : ErrKind) : SeqOutcome s (raise k s)
  | oneResult (v : Int) : SeqOutcome s (complete (setR0 v s))
  | threeResults (g x y : Int) : SeqOutcome s (complete (setR2 y (setR1 x (setR0 g s))))
  | textResult (str : List Byte) (h : upToLmax s.params str.length = true) :
      SeqOutcome s (complete (setLen str.length (setTxt (s.txt.writeString 0 str) s)))
  | wipes : SeqOutcome s (complete (wiped s))

theorem SeqOutcome.setW {s : State} {p : Phase} (hp : s.phase = p) (hi : p ≠ .idle) (w : Working)
    (hc : w.cmd = s.w.cmd) : SeqOutcome s (Machine.setW w s) := by
  subst hp; exact .goesOn s.phase w 0 hi hc

theorem SeqOutcome.setPhase {s : State} (p : Phase) (hi : p ≠ .idle) :
    SeqOutcome s (Machine.setPhase p s) := .goesOn p s.w 0 hi rfl

theorem SeqOutcome.setPhaseW {s : State} (p : Phase) (hi : p ≠ .idle) (w : Working)
    (hc : w.cmd = s.w.cmd) : SeqOutcome s (Machine.setPhase p (Machine.setW w s)) :=
  .goesOn p w 0 hi hc

theorem powmodStart_outcome {s t : State} (h : powmodStart s = .next t) : SeqOutcome s t := by
  unfold powmodStart at h
  repeat' split at h
  all_goals simp only [Host.Outcome.next.injEq] at h; subst h
  · exact .raises _
  · exact .raises _
  · exact .setPhaseW _ (by decide) _ rfl

theorem xgcdStart_outcome {s t : State} (h : xgcdStart s = .next t) : SeqOutcome s t := by
  unfold xgcdStart at h
  split at h <;> simp only [Host.Outcome.next.injEq] at h <;> subst h
  · exact .setPhaseW _ (by decide) _ rfl
  · exact .raises _

theorem modinvStart_outcome {s t : State} (h : modinvStart s = .next t) : SeqOutcome s t := by
  unfold modinvStart at h
  split at h <;> simp only [Host.Outcome.next.injEq] at h <;> subst h
  · exact .setPhaseW _ (by decide) _ rfl
  · exact .raises _

theorem mrwitStart_outcome {s t : State} (h : mrwitStart s = .next t) : SeqOutcome s t := by
  unfold mrwitStart at h
  repeat' split at h
  all_goals simp only [Host.Outcome.next.injEq] at h; subst h
  · exact .oneResult _
  · exact .oneResult _
  · exact .raises _
  · exact .setPhaseW _ (by decide) _ rfl

theorem mrtestStart_outcome {s t : State} (h : mrtestStart s = .next t) : SeqOutcome s t := by
  unfold mrtestStart at h
  repeat' split at h
  all_goals simp only [Host.Outcome.next.injEq] at h; subst h
  · exact .raises _
  · exact .oneResult _
  · exact .oneResult _
  · exact .setPhaseW _ (by decide) _ rfl

theorem encodeStart_outcome {s t : State} (h : encodeStart s = .next t) : SeqOutcome s t := by
  simp only [encodeStart, Host.Outcome.next.injEq] at h
  subst h
  exact .setPhaseW _ (by decide) _ rfl

theorem decodeStart_outcome {s t : State} (h : decodeStart s = .next t) : SeqOutcome s t := by
  unfold decodeStart at h
  split at h <;> simp only [Host.Outcome.next.injEq] at h <;> subst h
  · exact .raises _
  · exact .setPhaseW _ (by decide) _ rfl

theorem wipeStart_outcome {s t : State} (h : wipeStart s = .next t) : SeqOutcome s t := by
  simp only [wipeStart, Host.Outcome.next.injEq] at h
  subst h
  exact .wipes

theorem illegalStart_outcome {s t : State} (h : illegalStart s = .next t) : SeqOutcome s t := by
  simp only [illegalStart, Host.Outcome.next.injEq] at h
  subst h
  exact .raises _

theorem powmodLoop_outcome {s t : State} (hp : s.phase = .pmLoop) (h : powmodLoop s = .next t) :
    SeqOutcome s t := by
  unfold powmodLoop at h
  split at h <;> simp only [Host.Outcome.next.injEq] at h <;> subst h
  · exact .oneResult _
  · exact .setW hp (by decide) _ rfl

theorem xgcdLoop_outcome {s t : State} (hp : s.phase = .xgLoop) (h : xgcdLoop s = .next t) :
    SeqOutcome s t := by
  unfold xgcdLoop at h
  split at h <;> simp only [Host.Outcome.next.injEq] at h <;> subst h
  · exact .threeResults _ _ _
  · exact .setW hp (by decide) _ rfl

theorem modinvLoop_outcome {s t : State} (hp : s.phase = .miLoop) (h : modinvLoop s = .next t) :
    SeqOutcome s t := by
  unfold modinvLoop at h
  repeat' split at h
  all_goals simp only [Host.Outcome.next.injEq] at h; subst h
  · exact .raises _
  · exact .oneResult _
  · exact .setW hp (by decide) _ rfl

theorem mrDecompStep_outcome {s t : State} (hp : s.phase = .mrDecomp) (h : mrDecompStep s = .next t) :
    SeqOutcome s t := by
  unfold mrDecompStep at h
  split at h <;> simp only [Host.Outcome.next.injEq] at h <;> subst h
  · exact .setW hp (by decide) _ rfl
  · exact .setPhase _ (by decide)

theorem mrTrialStep_outcome {s t : State} (h : mrTrialStep s = .next t) : SeqOutcome s t := by
  unfold mrTrialStep at h
  split at h
  · simp only [Host.Outcome.next.injEq] at h; subst h; exact .oneResult _
  split at h
  · simp only [Host.Outcome.next.injEq] at h; subst h; exact .setPhaseW _ (by decide) _ rfl
  split at h
  · simp only [Host.Outcome.next.injEq] at h; subst h; exact .goesOn .mrExp _ 1 (by decide) rfl
  · simp at h

theorem mrExpStep_outcome {s t : State} (hp : s.phase = .mrExp) (h : mrExpStep s = .next t) :
    SeqOutcome s t := by
  unfold mrExpStep at h
  split at h <;> simp only [Host.Outcome.next.injEq] at h <;> subst h
  · exact .setPhaseW _ (by decide) _ rfl
  · exact .setW hp (by decide) _ rfl

theorem mrCheckStep_outcome {s t : State} (hp : s.phase = .mrCheck) (h : mrCheckStep s = .next t) :
    SeqOutcome s t := by
  unfold mrCheckStep at h
  repeat' split at h
  all_goals simp only [Host.Outcome.next.injEq] at h; subst h
  · exact .setPhase _ (by decide)
  · exact .setPhase _ (by decide)
  · exact .oneResult _
  · exact .setW hp (by decide) _ rfl

theorem encodeScan_outcome {s t : State} (hp : s.phase = .enScan) (h : encodeScan s = .next t) :
    SeqOutcome s t := by
  unfold encodeScan at h
  split at h
  · simp only [Host.Outcome.next.injEq] at h; subst h; exact .setPhaseW _ (by decide) _ rfl
  split at h
  · simp at h
  split at h <;> simp only [Host.Outcome.next.injEq] at h <;> subst h
  · exact .setW hp (by decide) _ rfl
  · exact .raises _

theorem encodeAcc_outcome {s t : State} (hp : s.phase = .enAcc) (h : encodeAcc s = .next t) :
    SeqOutcome s t := by
  unfold encodeAcc at h
  split at h
  · split at h <;> simp only [Host.Outcome.next.injEq] at h <;> subst h
    · exact .oneResult _
    · exact .raises _
  split at h
  · simp at h
  · simp only [Host.Outcome.next.injEq] at h; subst h; exact .setW hp (by decide) _ rfl

theorem decodeLoop_outcome {s t : State} (hp : s.phase = .deLoop) (h : decodeLoop s = .next t) :
    SeqOutcome s t := by
  unfold decodeLoop decodeFinish at h
  split at h
  · split at h <;> simp only [Host.Outcome.next.injEq] at h <;> subst h
    · exact .textResult _ (by assumption)
    · exact .raises _
  · simp only [Host.Outcome.next.injEq] at h; subst h; exact .setW hp (by decide) _ rfl

/-- One SEQ step of a command, from a phase other than IDLE. -/
theorem commandStep_outcome {start : State → StepOutcome} {s t : State}
    (hstart : start s = .next t → SeqOutcome s t) (hp : s.phase ≠ .idle)
    (h : commandStep start s = .next t) : SeqOutcome s t := by
  unfold commandStep at h
  split at h
  · contradiction
  · exact hstart h
  · exact powmodLoop_outcome (by assumption) h
  · exact xgcdLoop_outcome (by assumption) h
  · exact modinvLoop_outcome (by assumption) h
  · exact mrDecompStep_outcome (by assumption) h
  · exact mrTrialStep_outcome h
  · exact mrExpStep_outcome (by assumption) h
  · exact mrCheckStep_outcome (by assumption) h
  · exact encodeScan_outcome (by assumption) h
  · exact encodeAcc_outcome (by assumption) h
  · exact decodeLoop_outcome (by assumption) h

theorem exec_outcome {i : Instr} {s t : State} (hp : s.phase ≠ .idle) (h : exec i s = .next t) :
    SeqOutcome s t := by
  cases i
  · exact commandStep_outcome powmodStart_outcome hp h
  · exact commandStep_outcome xgcdStart_outcome hp h
  · exact commandStep_outcome modinvStart_outcome hp h
  · exact commandStep_outcome mrwitStart_outcome hp h
  · exact commandStep_outcome mrtestStart_outcome hp h
  · exact commandStep_outcome encodeStart_outcome hp h
  · exact commandStep_outcome decodeStart_outcome hp h
  · exact commandStep_outcome wipeStart_outcome hp h

theorem seqStep_outcome {s t : State} (hp : s.phase ≠ .idle) (h : seqStep s = .next t) :
    SeqOutcome s t := by
  unfold seqStep at h
  split at h
  · exact exec_outcome hp h
  · exact commandStep_outcome illegalStart_outcome hp h

/-- What a host access can do when it is not refused (spec/20_memory.md R54 to R56). -/
theorem hostStep_next {op : HostOp} {s t : State} (h : hostStep op s = .next t) :
    t = s ∨ (∃ r v, op = .writeReg r v ∧ HostOp.valueOk s.params r v = true ∧ isBusy s = false ∧
        t = hostWriteIdle s r v) ∨
      (∃ i v, op = .writeTxt i v ∧ upToLmax s.params i = true ∧ isBusy s = false ∧
        t = setTxt (s.txt.write i (BitVec.ofInt 8 v)) s) := by
  cases op with
  | readReg r => simp only [hostStep, Host.Outcome.next.injEq] at h; exact .inl h.symm
  | readTxt i =>
    simp only [hostStep] at h
    split at h
    · simp only [Host.Outcome.next.injEq] at h; exact .inl h.symm
    · simp at h
  | writeReg r v =>
    simp only [hostStep] at h
    split at h
    · rename_i hv
      simp only [Host.Outcome.next.injEq, hostWrite] at h
      split at h
      · exact .inl h.symm
      · rename_i hb
        exact .inr (.inl ⟨r, v, rfl, hv, by simpa using hb, h.symm⟩)
    · simp at h
  | writeTxt i v =>
    simp only [hostStep] at h
    split at h
    · rename_i hv
      simp only [Host.Outcome.next.injEq, hostWriteTxt] at h
      split at h
      · exact .inl h.symm
      · rename_i hb
        exact .inr (.inr ⟨i, v, rfl, hv, by simpa using hb, h.symm⟩)
    · simp at h

/-- The six forms of a host write while BUSY = 0 (spec/20_memory.md R52, R54). -/
theorem hostWriteIdle_cases (s : State) (r : RegNum) (v : Int) :
    hostWriteIdle s r v = setA0 v s ∨ hostWriteIdle s r v = setA1 v s ∨
    hostWriteIdle s r v = setA2 v s ∨ hostWriteIdle s r v = startCommand (BitVec.ofInt 8 v) s ∨
    hostWriteIdle s r v = setLen (lenImage s.params v) s ∨ hostWriteIdle s r v = s := by
  unfold hostWriteIdle
  split <;> simp

end Sys2Proof.Machine
end

