-- ==== Sys2Proof/Laws/Results.lean ====
section
/-! SUPPORT. The pure result functions satisfy their rules' own equations (spec/43_miller_rabin.md R140,
spec/44_codec.md R170). -/

namespace Sys2Proof.Machine

theorem bitlen_div_lt {v : Int} (h : 0 < v) : bitlen (v / 26) < bitlen v := by
  rcases eq_or_lt_of_le (show 0 ≤ v / 26 by omega) with h0 | h0
  · rw [← h0]; simpa [bitlen] using bitlen_pos h
  · have h1 := two_pow_le_of_bitlen h0
    have h2 := lt_two_pow_bitlen h.le
    have h3 := bitlen_pos h0
    have : (2 : Int) ^ (bitlen (v / 26) - 1 + 1) < 2 ^ bitlen v := by rw [pow_succ]; omega
    have := (pow_lt_pow_iff_right₀ (by norm_num)).1 this
    omega

theorem digits_of_nonpos (fuel : Nat) {v : Int} (h : v ≤ 0) : digits fuel v = [] := by
  cases fuel <;> simp [digits, h]

/-- More fuel than binary digits changes nothing. -/
theorem digits_eq_decodeText (fuel : Nat) : ∀ {v : Int}, bitlen v ≤ fuel → digits fuel v = decodeText v := by
  induction fuel using Nat.strong_induction_on with
  | _ fuel ih =>
    intro v hv
    by_cases h0 : v ≤ 0
    · simp [decodeText, digits_of_nonpos _ h0]
    · have hlt := bitlen_div_lt (v := v) (by omega)
      obtain ⟨f, rfl⟩ : ∃ f, fuel = f + 1 := ⟨fuel - 1, by omega⟩
      obtain ⟨g, hg⟩ : ∃ g, bitlen v = g + 1 := ⟨bitlen v - 1, by omega⟩
      simp only [decodeText, hg, digits, h0, if_false]
      rw [ih f (by omega) (by omega)]
      rw [ih g (by omega) (by omega)]

theorem decodeText_of_nonpos {v : Int} (h : v ≤ 0) : decodeText v = [] := digits_of_nonpos _ h

@[simp] theorem decodeText_zero : decodeText 0 = [] := decodeText_of_nonpos le_rfl

/-- `decode(v) = decode(v div 26) ++ [chr(v mod 26)]` for v > 0 (R170). -/
theorem decodeText_pos {v : Int} (h : 0 < v) :
    decodeText v = decodeText (v / 26) ++ [chr (v % 26)] := by
  have hlt := bitlen_div_lt h
  obtain ⟨g, hg⟩ : ∃ g, bitlen v = g + 1 := ⟨bitlen v - 1, by omega⟩
  have : decodeText v = digits (g + 1) v := by rw [decodeText, hg]
  rw [this, digits, if_neg (by omega), digits_eq_decodeText g (by omega)]

/-- Horner's step: one more letter on the right (R175). -/
theorem encodeText_append (str : List Byte) (ch : Byte) :
    encodeText (str ++ [ch]) = encodeText str * 26 + letterIndex ch := by
  induction str with
  | nil => simp [encodeText]
  | cons c rest ih =>
    simp only [List.cons_append, encodeText, ih, List.length_append, List.length_cons,
      List.length_nil, Nat.zero_add, pow_succ]
    ring

theorem halve_spec (fuel : Nat) :
    ∀ {k k' : Nat} {m m' : Int}, m' % 2 = 1 → m = 2 ^ k' * m' → k' ≤ fuel →
      halve fuel k m = (k + k', m') := by
  induction fuel with
  | zero =>
    intro k k' m m' _ hm hk
    obtain rfl : k' = 0 := by omega
    simp [halve, hm]
  | succ fuel ih =>
    intro k k' m m' hodd hm hk
    cases k' with
    | zero =>
      have : ¬ m % 2 = 0 := by rw [hm]; simp [hodd]
      simp only [halve, this, if_false]
      simp [hm]
    | succ k' =>
      have h2 : m = 2 * (2 ^ k' * m') := by rw [hm, pow_succ]; ring
      have he : m % 2 = 0 := by omega
      simp only [halve, he, if_true]
      rw [ih hodd (show m / 2 = 2 ^ k' * m' by omega) (by omega)]
      rw [show k + 1 + k' = k + (k' + 1) by omega]

/-- `decomp(n)` is the one pair (k, m) with n - 1 = 2^k * m and m odd (R140). -/
theorem decomp_eq {n m : Int} {k : Nat} (hm : 0 < m) (hodd : m % 2 = 1) (h : n - 1 = 2 ^ k * m) :
    decomp n = (k, m) := by
  have hn : 0 < n := by
    have : 0 < 2 ^ k * m := by positivity
    omega
  have hk : k ≤ bitlen n := by
    have h1 := lt_two_pow_bitlen hn.le
    have h2 : (2 : Int) ^ k ≤ 2 ^ k * m := le_mul_of_one_le_right (by positivity) (by omega)
    have : (2 : Int) ^ k < 2 ^ bitlen n := by omega
    exact ((pow_lt_pow_iff_right₀ (by norm_num)).1 this).le
  have := halve_spec (bitlen n) (k := 0) hodd h hk
  simpa [decomp] using this

/-- The trial with its decomposition at hand (R140). -/
theorem trial_iff {n m a : Int} {k : Nat} (hm : 0 < m) (hodd : m % 2 = 1) (h : n - 1 = 2 ^ k * m) :
    trial n a = true ↔
      a ^ m.toNat % n = 1 ∨ ∃ j, j < k ∧ squares n (a ^ m.toNat % n) j = n - 1 := by
  simp [trial, decomp_eq hm hodd h]

theorem cellString_length (read : Nat → Option Byte) (n : Nat) :
    ∀ {str : List Byte}, cellString read n = some str → str.length = n := by
  induction n with
  | zero => intro str h; simp only [cellString, Option.some.injEq] at h; simp [← h]
  | succ n ih =>
    intro str h
    simp only [cellString] at h
    split at h
    · rename_i pre ch hp hc
      simp only [Option.some.injEq] at h
      simp [← h, ih hp]
    · simp at h

/-- One more cell. -/
theorem cellString_succ {read : Nat → Option Byte} {n : Nat} {str : List Byte} {ch : Byte}
    (h : cellString read n = some str) (hc : read n = some ch) :
    cellString read (n + 1) = some (str ++ [ch]) := by
  simp [cellString, h, hc]

end Sys2Proof.Machine
end

