-- ==== Sys2Proof/Laws/Loops.lean ====
section
/-! SUPPORT. One iteration of each arithmetic loop: what it does to the quantities its rule's invariant
speaks of (spec/41_modexp.md R94, spec/42_extended_gcd.md R115, R116, R124, spec/43_miller_rabin.md
R149). -/

namespace Sys2Proof.Machine

theorem mulmod_range (a b : Int) {n : Int} (h : 0 < n) : 0 ≤ mulmod a b n ∧ mulmod a b n < n :=
  ⟨Int.emod_nonneg _ (by omega), Int.emod_lt_of_pos _ h⟩

/-- One bit of the exponent (R94). -/
theorem expStep_z {w : Working} {x c n : Int} (hx : w.x = x) (hc : w.c = c) (hn : w.n = n)
    (h0 : 0 ≤ c) {i : Nat} (hi : w.i = i + 1) (hz : w.z = x ^ (c / 2 ^ (i + 1)).toNat % n) :
    (expStep w).z = x ^ (c / 2 ^ i).toNat % n := by
  have hd := div_two_pow_succ c i
  have hnn : 0 ≤ c / 2 ^ (i + 1) := Int.ediv_nonneg h0 (by positivity)
  have hsq : mulmod w.z w.z n = x ^ (2 * (c / 2 ^ (i + 1)).toNat) % n := by
    unfold mulmod
    rw [hz, ← Int.mul_emod, ← pow_add]
    congr 2; omega
  rcases bit_eq_zero_or_one c i with hb | hb
  · have he : (c / 2 ^ i).toNat = 2 * (c / 2 ^ (i + 1)).toNat := by omega
    simp [expStep, hi, hx, hc, hn, hb, hsq, he]
  · have he : (c / 2 ^ i).toNat = 2 * (c / 2 ^ (i + 1)).toNat + 1 := by omega
    simp only [expStep, hi, hx, hc, hn, hsq, Nat.add_sub_cancel, hb, if_true]
    rw [he, pow_succ x, mulmod, Int.mul_emod, Int.emod_emod_of_dvd _ (dvd_refl n), ← Int.mul_emod]

theorem expStep_frame (w : Working) :
    expStep w = { w with i := w.i - 1, z := (expStep w).z } := rfl

/-- The coefficient bound of R116: with opposite signs the identity r0*|c1| + r1*|c0| = b passes on. -/
theorem coefficient_identity {r0 r1 c0 c1 b : Int} (hq : 0 ≤ r0 / r1) (hs : c0 * c1 ≤ 0)
    (h : r0 * |c1| + r1 * |c0| = b) :
    r1 * |c0 - r0 / r1 * c1| + (r0 - r0 / r1 * r1) * |c1| = b := by
  have hk : |c0 - r0 / r1 * c1| = |c0| + r0 / r1 * |c1| := by
    rcases le_total 0 c1 with h1 | h1
    · rcases eq_or_lt_of_le h1 with h2 | h2
      · simp [← h2]
      · have h0 : c0 ≤ 0 := by nlinarith
        rw [abs_of_nonneg h1, abs_of_nonpos h0, abs_of_nonpos (by nlinarith)]; ring
    · rcases eq_or_lt_of_le h1 with h2 | h2
      · simp [h2]
      · have h0 : 0 ≤ c0 := by nlinarith
        rw [abs_of_nonpos h1, abs_of_nonneg h0, abs_of_nonneg (by nlinarith)]; ring
  rw [hk, ← h]; ring

theorem coefficient_sign {q c0 c1 : Int} (hq : 0 ≤ q) (hs : c0 * c1 ≤ 0) : c1 * (c0 - q * c1) ≤ 0 := by
  nlinarith [mul_nonneg hq (mul_self_nonneg c1)]

theorem gcd_division (r0 r1 : Int) : Int.gcd r1 (r0 - r0 / r1 * r1) = Int.gcd r0 r1 := by
  have : r0 - r0 / r1 * r1 = r0 % r1 := by
    have := Int.emod_add_mul_ediv r0 r1
    linarith [mul_comm (r0 / r1) r1]
  rw [this, Int.gcd_comm, Int.gcd_emod]

theorem remainder_range {r0 r1 : Int} (h1 : 0 < r1) :
    0 ≤ r0 - r0 / r1 * r1 ∧ r0 - r0 / r1 * r1 < r1 := by
  have : r0 - r0 / r1 * r1 = r0 % r1 := by
    have := Int.emod_add_mul_ediv r0 r1
    linarith [mul_comm (r0 / r1) r1]
  rw [this]
  exact ⟨Int.emod_nonneg _ h1.ne', Int.emod_lt_of_pos _ h1⟩

/-- One squaring of a trial (R149). -/
theorem mulmod_self_squares (n b0 : Int) (j : Nat) :
    mulmod (squares n b0 j) (squares n b0 j) n = squares n b0 (j + 1) := by
  simp [mulmod, squares, pow_two]

end Sys2Proof.Machine
end

