-- ==== Sys2Proof/Laws/PerInstr.lean ====
section
/-! SUPPORT. What holds of every command as syntax, one lemma per constructor: it is well formed, the
decoder reads it back from its code, and its code is one of 0x01 to 0x08 (spec/30_encoding.md R70 to
R74). -/

namespace Sys2Proof.Laws.RoundTrip

/-- Well formed, decoded from its own code, also through the table's numbering of the bits, and coded
in the map of R72. -/
def Statement (i : Instr) : Prop :=
  i.wf = true ∧ Sys2Proof.decode (Sys2Proof.encode i) = some i ∧
    decodeTableWord 8 (Sys2Proof.encode i).toNat = some i ∧
    1 ≤ (Sys2Proof.encode i).toNat ∧ (Sys2Proof.encode i).toNat ≤ 8

theorem powmod : Statement .powmod := by unfold Statement; decide

theorem xgcd : Statement .xgcd := by unfold Statement; decide

theorem modinv : Statement .modinv := by unfold Statement; decide

theorem mrwit : Statement .mrwit := by unfold Statement; decide

theorem mrtest : Statement .mrtest := by unfold Statement; decide

theorem encode : Statement .encode := by unfold Statement; decide

theorem decode : Statement .decode := by unfold Statement; decide

theorem wipe : Statement .wipe := by unfold Statement; decide

end Sys2Proof.Laws.RoundTrip
end

