-- ==== Sys2Proof/Laws/Text.lean ====
section
/-! SUPPORT. The laws of the text space: a read after a write, other cells unchanged, and every
operation keeps the canonical form (spec/20_memory.md R51, R56, R62). -/

namespace Sys2Proof.Machine

theorem risesAbove_mono {lo lo' : Nat} (h : lo' ≤ lo) :
    ∀ {cells : List Host.Cell}, risesAbove lo cells = true → risesAbove lo' cells = true
  | [], _ => rfl
  | (j, b) :: rest, hr => by
    simp only [risesAbove, Bool.and_eq_true, decide_eq_true_eq] at hr ⊢
    exact ⟨by omega, hr.2⟩

theorem rises_of_risesAbove {lo : Nat} :
    ∀ {cells : List Host.Cell}, risesAbove lo cells = true → rises cells = true
  | [], _ => rfl
  | (j, b) :: rest, hr => by
    simp only [risesAbove, rises, Bool.and_eq_true, decide_eq_true_eq] at hr ⊢
    exact hr.2

theorem lookupCell_none_of_risesAbove {lo i : Nat} (hi : i ≤ lo) :
    ∀ {cells : List Host.Cell}, risesAbove lo cells = true → lookupCell cells i = none
  | [], _ => rfl
  | (j, b) :: rest, hr => by
    simp only [risesAbove, Bool.and_eq_true, decide_eq_true_eq] at hr
    have : i ≠ j := by omega
    simp only [lookupCell, this, if_false]
    exact lookupCell_none_of_risesAbove (by omega) hr.2

theorem lookup_insertCell_same (cells : List Host.Cell) (i : Nat) (b : Byte) :
    lookupCell (insertCell cells i b) i = some b := by
  induction cells with
  | nil => simp [insertCell, lookupCell]
  | cons c rest ih =>
    obtain ⟨j, d⟩ := c
    by_cases h1 : i < j
    · simp [insertCell, h1, lookupCell]
    · by_cases h2 : i = j
      · simp [insertCell, h2, lookupCell]
      · simp [insertCell, h1, h2, lookupCell, ih]

theorem lookup_insertCell_other {i j : Nat} (h : j ≠ i) (cells : List Host.Cell) (b : Byte) :
    lookupCell (insertCell cells i b) j = lookupCell cells j := by
  induction cells with
  | nil => simp [insertCell, lookupCell, h]
  | cons c rest ih =>
    obtain ⟨k, d⟩ := c
    by_cases h1 : i < k
    · simp [insertCell, h1, lookupCell, h]
    · by_cases h2 : i = k
      · subst h2; simp [insertCell, lookupCell, h]
      · simp [insertCell, h1, h2, lookupCell, ih]

theorem lookup_eraseCell_other {i j : Nat} (h : j ≠ i) (cells : List Host.Cell) :
    lookupCell (eraseCell cells i) j = lookupCell cells j := by
  induction cells with
  | nil => rfl
  | cons c rest ih =>
    obtain ⟨k, d⟩ := c
    by_cases h2 : i = k
    · subst h2; simp [eraseCell, lookupCell, h]
    · simp [eraseCell, h2, lookupCell, ih]

theorem lookup_eraseCell_same {i : Nat} {cells : List Host.Cell} (hr : rises cells = true) :
    lookupCell (eraseCell cells i) i = none := by
  induction cells with
  | nil => rfl
  | cons c rest ih =>
    obtain ⟨k, d⟩ := c
    simp only [rises] at hr
    by_cases h2 : i = k
    · subst h2
      simpa [eraseCell] using lookupCell_none_of_risesAbove (Nat.le_refl _) hr
    · simpa [eraseCell, h2, lookupCell] using ih (rises_of_risesAbove hr)

theorem risesAbove_insertCell {lo i : Nat} (hlo : lo < i) (b : Byte) :
    ∀ {cells : List Host.Cell}, risesAbove lo cells = true → risesAbove lo (insertCell cells i b) = true
  | [], _ => by simp [insertCell, risesAbove, hlo]
  | (j, d) :: rest, hr => by
    simp only [risesAbove, Bool.and_eq_true, decide_eq_true_eq] at hr
    by_cases h1 : i < j
    · simp [insertCell, h1, risesAbove, hlo, hr.2]
    · by_cases h2 : i = j
      · subst h2; simp [insertCell, risesAbove, hr.1, hr.2]
      · simp only [insertCell, h1, h2, if_false, risesAbove, Bool.and_eq_true, decide_eq_true_eq]
        exact ⟨hr.1, risesAbove_insertCell (by omega) b hr.2⟩

theorem rises_insertCell (i : Nat) (b : Byte) {cells : List Host.Cell} (hr : rises cells = true) :
    rises (insertCell cells i b) = true := by
  cases cells with
  | nil => rfl
  | cons c rest =>
    obtain ⟨j, d⟩ := c
    simp only [rises] at hr
    by_cases h1 : i < j
    · simp [insertCell, h1, rises, risesAbove, hr]
    · by_cases h2 : i = j
      · subst h2; simpa [insertCell, rises] using hr
      · simpa [insertCell, h1, h2, rises] using risesAbove_insertCell (by omega) b hr

theorem risesAbove_eraseCell {lo : Nat} (i : Nat) :
    ∀ {cells : List Host.Cell}, risesAbove lo cells = true → risesAbove lo (eraseCell cells i) = true
  | [], _ => rfl
  | (j, d) :: rest, hr => by
    simp only [risesAbove, Bool.and_eq_true, decide_eq_true_eq] at hr
    by_cases h2 : i = j
    · simpa [eraseCell, h2] using risesAbove_mono (by omega) hr.2
    · simp only [eraseCell, h2, if_false, risesAbove, Bool.and_eq_true, decide_eq_true_eq]
      exact ⟨hr.1, risesAbove_eraseCell i hr.2⟩

theorem rises_eraseCell (i : Nat) {cells : List Host.Cell} (hr : rises cells = true) :
    rises (eraseCell cells i) = true := by
  cases cells with
  | nil => rfl
  | cons c rest =>
    obtain ⟨j, d⟩ := c
    simp only [rises] at hr
    by_cases h2 : i = j
    · simpa [eraseCell, h2] using rises_of_risesAbove hr
    · simpa [eraseCell, h2, rises] using risesAbove_eraseCell i hr

theorem mem_insertCell {cells : List Host.Cell} {i : Nat} {b : Byte} {c : Host.Cell}
    (h : c ∈ insertCell cells i b) : c = (i, b) ∨ c ∈ cells := by
  induction cells with
  | nil => simpa [insertCell] using h
  | cons d rest ih =>
    obtain ⟨j, e⟩ := d
    by_cases h1 : i < j
    · simpa [insertCell, h1] using h
    · by_cases h2 : i = j
      · subst h2
        simp only [insertCell, lt_irrefl, if_false, if_true, List.mem_cons] at h ⊢
        tauto
      · simp only [insertCell, h1, h2, if_false, List.mem_cons] at h ⊢
        rcases h with h | h
        · tauto
        · have := ih h; tauto

theorem mem_eraseCell {cells : List Host.Cell} {i : Nat} {c : Host.Cell}
    (h : c ∈ eraseCell cells i) : c ∈ cells := by
  induction cells with
  | nil => exact h
  | cons d rest ih =>
    obtain ⟨j, e⟩ := d
    by_cases h2 : i = j
    · simp only [eraseCell, h2, if_true] at h; exact List.mem_cons_of_mem _ h
    · simp only [eraseCell, h2, if_false, List.mem_cons] at h ⊢
      exact h.imp id ih

theorem Text.wf_iff (t : Text) :
    t.wf = true ↔ rises t.cells = true ∧ ∀ c ∈ t.cells, t.fill ≠ some c.2 := by
  simp [Text.wf]

theorem Text.within_iff (p : Params) (t : Text) :
    t.within p = true ↔ ∀ c ∈ t.cells, upToLmax p c.1 = true := by
  simp [Text.within]

/-- Writing a cell keeps the canonical form. -/
theorem Text.wf_write {t : Text} (h : t.wf = true) (i : Nat) (b : Byte) :
    (t.write i b).wf = true := by
  rw [Text.wf_iff] at h ⊢
  unfold Text.write
  split
  · exact ⟨rises_eraseCell i h.1, fun c hc => h.2 c (mem_eraseCell hc)⟩
  · rename_i hne
    refine ⟨rises_insertCell i b h.1, fun c hc => ?_⟩
    rcases mem_insertCell hc with rfl | hc
    · exact hne
    · exact h.2 c hc

/-- A cell just written reads as the value written. -/
theorem Text.read_write_same {t : Text} (h : t.wf = true) (i : Nat) (b : Byte) :
    (t.write i b).read i = some b := by
  by_cases hf : t.fill = some b
  · simp [Text.write, Text.read, hf, lookup_eraseCell_same ((Text.wf_iff t).1 h).1]
  · simp [Text.write, Text.read, hf, lookup_insertCell_same]

/-- Every other cell reads as before. -/
theorem Text.read_write_other (t : Text) {i j : Nat} (hij : j ≠ i) (b : Byte) :
    (t.write i b).read j = t.read j := by
  by_cases hf : t.fill = some b
  · simp [Text.write, Text.read, hf, lookup_eraseCell_other hij]
  · simp [Text.write, Text.read, hf, lookup_insertCell_other hij]

theorem Text.within_write {p : Params} {t : Text} (h : t.within p = true) {i : Nat}
    (hi : upToLmax p i = true) (b : Byte) : (t.write i b).within p = true := by
  rw [Text.within_iff] at h ⊢
  unfold Text.write
  split
  · exact fun c hc => h c (mem_eraseCell hc)
  · intro c hc
    rcases mem_insertCell hc with rfl | hc
    · exact hi
    · exact h c hc

theorem Text.wf_writeString (str : List Byte) :
    ∀ {t : Text} (_ : t.wf = true) (i : Nat), (t.writeString i str).wf = true := by
  induction str with
  | nil => intro t h i; exact h
  | cons b rest ih => intro t h i; exact ih (Text.wf_write h i b) (i + 1)

theorem Text.read_writeString_outside (str : List Byte) :
    ∀ (t : Text) (i : Nat) {j : Nat} (_ : j < i ∨ i + str.length ≤ j),
      (t.writeString i str).read j = t.read j := by
  induction str with
  | nil => intros; rfl
  | cons b rest ih =>
    intro t i j h
    simp only [List.length_cons] at h
    rw [Text.writeString, ih _ _ (by omega), Text.read_write_other _ (by omega)]

theorem Text.read_writeString_inside (str : List Byte) :
    ∀ {t : Text} (_ : t.wf = true) (i : Nat) {j : Nat} (hj : j < str.length),
      (t.writeString i str).read (i + j) = some str[j] := by
  induction str with
  | nil => intro t _ i j hj; simp at hj
  | cons b rest ih =>
    intro t h i j hj
    cases j with
    | zero =>
      rw [Text.writeString, Text.read_writeString_outside _ _ _ (by omega)]
      exact Text.read_write_same h i b
    | succ j =>
      have := ih (Text.wf_write h i b) (i + 1) (j := j) (by simpa using hj)
      rw [Text.writeString, show i + (j + 1) = i + 1 + j by omega, this]
      rfl

theorem upToLmax_mono {p : Params} {m n : Nat} (hmn : m ≤ n) (h : upToLmax p n = true) :
    upToLmax p m = true := by
  cases p with
  | unbounded => rfl
  | bounded x l => simp only [upToLmax, decide_eq_true_eq] at h ⊢; omega

theorem Text.within_writeString {p : Params} (str : List Byte) :
    ∀ {t : Text} (_ : t.within p = true) (i : Nat) (_ : upToLmax p (i + str.length) = true),
      (t.writeString i str).within p = true := by
  induction str with
  | nil => intro t h i _; exact h
  | cons b rest ih =>
    intro t h i hi
    simp only [List.length_cons] at hi
    refine ih (Text.within_write h (upToLmax_mono (by omega) hi) b) (i + 1) ?_
    rwa [show i + 1 + rest.length = i + (rest.length + 1) by omega]

theorem Text.wf_zeroed : Text.zeroed.wf = true := rfl

theorem State.wf_resetWith (p : Params) : (State.resetWith p).txt.wf = true := rfl

theorem State.wf_reset : State.reset.txt.wf = true := rfl

theorem Text.within_zeroed (p : Params) : Text.zeroed.within p = true := rfl

theorem Text.read_zeroed (i : Nat) : Text.zeroed.read i = some 0#8 := rfl

/-- A SEQ read answers the cell's value exactly where the cell exists and has been written. -/
theorem readCell_ok_iff (s : State) (i : Nat) (b : Byte) :
    readCell s i = .ok b ↔ upToLmax s.params i = true ∧ s.txt.read i = some b := by
  unfold readCell
  split
  · rename_i h
    cases hr : s.txt.read i <;> simp [h]
  · rename_i h
    simp [h]

end Sys2Proof.Machine
end

