-- ==== Sys2Proof/Tests/Slice0.lean ====
section
/-! SUPPORT. Tests of one step each, with results from the traces and vectors of spec/ (named at each),
and for every statement with hypotheses a state that meets them (`test_witness_…`). -/

namespace Sys2Proof.Tests

open Sys2Proof.Machine

/-- Reset state with XLEN = 16 and LENW = 3. -/
def small : State := State.resetWith (.bounded 8 0)

/-- The command `k` just written, with these arguments. -/
def started (k : Nat) (a0 a1 a2 : Int) : State :=
  { small.withFetchWord 8 k with a0 := a0, a1 := a1, a2 := a2 }

/-- A command in phase `p` with working registers `w`. -/
def running (p : Phase) (w : Working) : State :=
  { small with phase := p, status := 0x01#8, w := w }

/-- `started` with a string in TXT and LEN. -/
def withText (k : Nat) (str : List Byte) : State :=
  { started k 0 0 0 with len := str.length, txt := small.txt.writeString 0 str }

/-- An idle block whose next turn is this one. -/
def idleTurn (t : Turn) : State := { small with turns := [t] }

/-- A busy block whose next turn is this one. -/
def busyTurn (t : Turn) : State := { started 1 4 13 497 with turns := [t] }

/-- What a test looks at in an outcome. -/
def see {α : Type} (f : State → α) (o : StepOutcome) : Option α :=
  match o with
  | .next t => some (f t)
  | .fault _ => none
  | .refused _ => none

/-- The value a host program returned. -/
def returned {α : Type} (x : HostResult α) : Option α :=
  match x with
  | .value a _ => some a
  | .failed _ _ => none
  | .unfinished _ => none
  | .stuck _ => none
  | .stopped _ => none

theorem returned_eq {α : Type} {x : HostResult α} {a : α} (h : returned x = some a) :
    ∃ t, x = .value a t := by
  cases x <;> simp [returned] at h
  exact ⟨_, by rw [h]⟩

theorem see_eq {α : Type} {f : State → α} {o : StepOutcome} {a : α} (h : see f o = some a) :
    ∃ t, o = .next t ∧ f t = a := by
  cases o <;> simp [see] at h
  exact ⟨_, rfl, h⟩

/-! ### WellFormed -/

/-- R54: with XLEN = 16 the host cannot write 2^15 to A0. -/
theorem test_wf_value_too_large : HostOp.wf (.bounded 8 0) (.writeReg 0x0#4 32768) = false := by decide

theorem test_wf_value_fits : HostOp.wf (.bounded 8 0) (.writeReg 0x0#4 (-32768)) = true := by decide

/-- R54: with LENW infinite LEN takes no negative value. -/
theorem test_wf_negative_len : HostOp.wf .unbounded (.writeReg 0xA#4 (-1)) = false := by decide

/-- R51: with LENW = 3 the last cell is TXT[7]. -/
theorem test_wf_cell_beyond_lmax :
    HostOp.wf (.bounded 8 0) (.writeTxt 8 0x61) = false ∧ HostOp.wf (.bounded 8 0) (.readTxt 8) = false ∧
    HostOp.wf (.bounded 8 0) (.readTxt 7) = true := by decide

/-- An ill-formed access is refused or faults. -/
theorem test_ill_formed_access_stops :
    step (idleTurn (.host (.writeReg 0x0#4 32768))) = .refused (.hostValueUnfit 0x0#4 32768) ∧
    step (idleTurn (.host (.writeTxt 8 0x61))) = .fault (.noSuchCell 8) := ⟨rfl, rfl⟩

/-! ### Decoding: the eight codes of R72, bit by bit, and codes beside them (R74) -/

theorem test_decode_powmod : decode 0b00000001#8 = some .powmod := by decide
theorem test_decode_xgcd : decode 0b00000010#8 = some .xgcd := by decide
theorem test_decode_modinv : decode 0b00000011#8 = some .modinv := by decide
theorem test_decode_mrwit : decode 0b00000100#8 = some .mrwit := by decide
theorem test_decode_mrtest : decode 0b00000101#8 = some .mrtest := by decide
theorem test_decode_encode : decode 0b00000110#8 = some .encode := by decide
theorem test_decode_decode : decode 0b00000111#8 = some .decode := by decide
theorem test_decode_wipe : decode 0b00001000#8 = some .wipe := by decide

theorem test_decode_illegal :
    [0b00000000#8, 0b00001001#8, 0b00010000#8, 0b10000001#8, 0b11111111#8].map decode =
      [none, none, none, none, none] := by decide

/-- 248 codes name no command (R74). -/
theorem test_illegal_code_count :
    ((List.range 256).filter (fun k => (decode (BitVec.ofNat 8 k)).isNone)).length = 248 := by decide +kernel

/-! ### Steps of the commands -/

/-- R96, start. -/
theorem test_powmod_start :
    see (fun t => (t.w.x, t.w.c, t.w.n, t.w.z, t.w.i, t.phase)) (step (started 1 4 13 497)) =
      some (4, 13, 497, 1, 4, .pmLoop) := by decide

/-- R96, loop 2. -/
theorem test_powmod_loop :
    see (fun t => (t.w.z, t.w.i))
      (step (running .pmLoop { Working.zero with cmd := 1#8, x := 4, c := 13, n := 497, z := 4, i := 3 })) =
      some (64, 2) := by decide

/-- R118, loop 4. -/
theorem test_xgcd_loop :
    see (fun t => (t.w.r0, t.w.r1, t.w.s0, t.w.s1, t.w.t0, t.w.t1))
      (step (running .xgLoop
        { Working.zero with cmd := 2#8, r0 := 6, r1 := 4, s0 := -4, s1 := 5, t0 := 21, t1 := -26 })) =
      some (4, 2, 5, -9, -26, 47) := by decide

/-- V-XG-12: a = b. -/
theorem test_xgcd_domain : see (fun t => t.status) (step (started 2 5 5 0)) = some 0x06#8 := by decide

/-- V-MI-3, completion: -2 mod 7. -/
theorem test_modinv_result :
    see (fun t => (t.r0, t.status))
      (step (running .miLoop { Working.zero with cmd := 3#8, r0 := 1, r1 := 0, t0 := -2, n := 7 })) =
      some (5, 0x02#8) := by decide

/-- V-MI-9, completion. -/
theorem test_modinv_no_inverse :
    see (fun t => t.status)
      (step (running .miLoop { Working.zero with cmd := 3#8, r0 := 2, r1 := 0, t0 := 1, n := 4 })) =
      some 0x0A#8 := by decide

/-- V-MR-27 and V-MR-28: the base is not examined for an even n, and 0 is no base of 9. -/
theorem test_mrwit_start :
    see (fun t => (t.r0, t.status)) (step (started 4 10 0 0)) = some (0, 0x02#8) ∧
    see (fun t => t.status) (step (started 4 9 0 0)) = some 0x06#8 := by decide

/-- V-MR-10: k = 1, and b_0 = n - 1 is compared. -/
theorem test_mrwit_check :
    see (fun t => t.phase)
      (step (running .mrCheck { Working.zero with cmd := 4#8, n := 3, k := 1, m := 1, b := 2 })) =
      some .mrTrial := by decide

/-- V-MT-9: rounds < 0 comes before the special cases. -/
theorem test_mrtest_negative_rounds :
    see (fun t => t.status) (step (started 5 10 (-1) 0)) = some 0x06#8 := by decide

/-- V-MT-1, second trial: the draw 8 is the base. -/
theorem test_mrtest_draw :
    see (fun t => (t.w.a, t.w.x, t.w.rem, t.draws, t.phase))
      (step { running .mrTrial { Working.zero with cmd := 5#8, n := 9, m := 1, k := 3, rem := 4 } with
        draws := [8, 1] }) = some (8, 8, 3, [1], .mrExp) := by decide

/-- V-EN-20: 0x7B is just above z. -/
theorem test_encode_bad_character :
    see (fun t => t.status)
      (step { withText 6 [0x68#8, 0x7B#8] with
        phase := .enScan, w := { Working.zero with cmd := 6#8, i := 1, l := 2 } }) = some 0x0E#8 := by decide

/-- R178: 186*26 + 11. -/
theorem test_encode_accumulate :
    see (fun t => (t.w.v, t.w.i))
      (step { withText 6 [0x68#8, 0x65#8, 0x6C#8, 0x6C#8, 0x6F#8] with
        phase := .enAcc, w := { Working.zero with cmd := 6#8, i := 2, l := 5, v := 186 } }) =
      some (4847, 3) := by decide

/-- R186, loop 1. -/
theorem test_decode_loop :
    see (fun t => (t.w.s, t.w.v))
      (step (running .deLoop { Working.zero with cmd := 7#8, v := 3276872 })) =
      some ([0x6F#8], 126033) := by decide

/-- R185, last row: DECODE of 25 over "hello" leaves "zello" and LEN = 1. -/
theorem test_decode_completion :
    see (fun t => (t.len, t.txt.cells.map Prod.snd, t.status))
      (step { withText 7 [0x68#8, 0x65#8, 0x6C#8, 0x6C#8, 0x6F#8] with
        phase := .deLoop, w := { Working.zero with cmd := 7#8, s := [0x7A#8] } }) =
      some (1, [0x7A#8, 0x65#8, 0x6C#8, 0x6C#8, 0x6F#8], 0x02#8) := by decide

/-- R201, after the MODINV example. -/
theorem test_wipe :
    let s := { started 8 17 3120 0 with r0 := 2753, w := { Working.zero with cmd := 8#8, t1 := 3120 } }
    see (fun t => (t.a0, t.a1, t.r0, t.w.t1, t.status)) (step s) = some (0, 0, 0, 0, 0x02#8) ∧
    see (fun t => t.txt.read 7) (step s) = some (some 0#8) := ⟨rfl, rfl⟩

/-- R74. -/
theorem test_illegal_code : see (fun t => t.status) (step (started 9 0 0 0)) = some 0x16#8 := by decide

/-! ### Steps of the host and of reset -/

/-- V-IF-14 (LENW = 3) and V-IF-15. -/
theorem test_host_low_bits :
    see (fun t => t.len) (step (idleTurn (.host (.writeReg 0xA#4 13)))) = some 5 ∧
    see (fun t => hostReadTxt t 0) (step (idleTurn (.host (.writeTxt 0 0x168)))) = some (some 0x68#8) := by
  decide

/-- V-IF-16: a CMD write clears DONE and ERR. -/
theorem test_host_cmd_clears :
    see (fun t => hostRead t 0x9#4)
      (step { idleTurn (.host (.writeReg 0x8#4 8)) with status := 0x0A#8 }) = some 1 := by decide

/-- V-IF-7: a write to A0 while BUSY = 1 is dropped. -/
theorem test_host_write_dropped :
    see (fun t => hostRead t 0x0#4) (step (busyTurn (.host (.writeReg 0x0#4 5)))) = some 4 := by decide

/-- V-IF-17. -/
theorem test_reset_while_busy :
    see (fun t => (t.status, t.len, t.phase)) (step (busyTurn .reset)) = some (0x00#8, 0, .idle) := by decide

/-- R152: 9 has the passing bases 1 and 8, and V-MR-4. -/
theorem test_trial_nine : trial 9 1 = true ∧ trial 9 8 = true ∧ trial 9 2 = false := by decide +kernel

/-! ### Witnesses: states that meet the hypotheses of the statements -/

theorem test_witness_well_formed : ∀ i : Instr, i.wf = true := by intro i; cases i <;> rfl

/-- StepRunsTheDecodedCommand, CmdWriteStartsTheCommand (after the write). -/
theorem test_witness_step_runs :
    seqNext (started 4 9 2 0) ∧ decode (started 4 9 2 0).w.cmd = some .mrwit ∧
    seqNext { started 4 9 2 0 with turns := [.seq, .reset] } := ⟨.inl rfl, by decide, .inr ⟨_, rfl⟩⟩

/-- StartDispatchesOnTheCode, each clause, and IllegalCodeRaisesIllegalCommand, at both ends of its
range. -/
theorem test_witness_start_dispatch :
    (∀ k, seqNext (started k 0 0 0) ∧ (started k 0 0 0).phase = .start) ∧
    ([1, 2, 3, 4, 5, 6, 7, 8, 0, 9, 255].map fun k => (started k 0 0 0).w.cmd) =
      [0x01#8, 0x02#8, 0x03#8, 0x04#8, 0x05#8, 0x06#8, 0x07#8, 0x08#8, 0x00#8, 0x09#8, 0xFF#8] :=
  ⟨fun _ => ⟨.inl rfl, rfl⟩, by decide⟩

/-- CmdWriteStartsTheCommand: a code of the map and, above 8 bits and beside the map, two that are not
(0x108 is WIPE, 9 is illegal). -/
theorem test_witness_cmd_write :
    statusBusy (idleTurn (.host (.writeReg 0x8#4 0x108))).status = false ∧
    fits (idleTurn (.host (.writeReg 0x8#4 0x108))).params 0x108 = true ∧
    decode (BitVec.ofInt 8 0x108) = some .wipe ∧ decode (BitVec.ofInt 8 9) = none := by decide

/-- HostRegisterWriteWhileIdle: the largest value that fits, the first that does not, and a register of
each clause. -/
theorem test_witness_host_write_idle :
    statusBusy (idleTurn (.host (.writeReg 0x0#4 32767))).status = false ∧
    HostOp.valueOk small.params 0x0#4 32767 = true ∧ HostOp.valueOk small.params 0x0#4 32768 = false ∧
    ([0x1#4, 0x2#4, 0xA#4, 0x4#4, 0xF#4].map fun r => HostOp.valueOk small.params r (-1)) =
      [true, true, true, true, true] ∧
    0x4#4 ∉ [0x0#4, 0x1#4, 0x2#4, 0x8#4, 0xA#4] := by decide

/-- HostWriteWhileBusyIsDropped. -/
theorem test_witness_host_write_busy :
    statusBusy (busyTurn (.host (.writeReg 0x8#4 8))).status = true ∧
    HostOp.valueOk small.params 0x8#4 8 = true ∧
    statusBusy (busyTurn (.host (.writeTxt 7 0x61))).status = true ∧
    upToLmax small.params 7 = true := by decide

/-- HostReadsTheRegisterMap. -/
theorem test_witness_host_read :
    (busyTurn (.host (.readReg 0x9#4))).turns = [.host (.readReg 0x9#4)] ∧
    0x8#4 ∉ [0x0#4, 0x1#4, 0x2#4, 0x4#4, 0x5#4, 0x6#4, 0x9#4, 0xA#4] := by decide

/-- HostTextAccess: the last cell and the first index beyond it, idle. -/
theorem test_witness_host_text :
    small.txt.wf = true ∧ upToLmax small.params 7 = true ∧ upToLmax small.params 8 = false ∧
    statusBusy (idleTurn (.host (.writeTxt 7 0x61))).status = false ∧
    (idleTurn (.host (.readTxt 7))).turns = [.host (.readTxt 7)] := by decide

/-- StatusImageHoldsTheFields. -/
theorem test_witness_status_image : (started 1 4 13 497).status = statusOf true false 0#3 := by decide

/-- ResetLeavesTheStatedValues. -/
theorem test_witness_reset_turn : (busyTurn .reset).turns = .reset :: [] := rfl

/-- The STATUS invariant, in a busy state that steps. -/
theorem test_witness_status_inv : statusInv (started 1 4 13 497) ∧
    ∃ t, step (started 1 4 13 497) = .next t := by
  refine ⟨?_, _, rfl⟩
  unfold statusInv
  decide

/-- EveryStepKeepsTheInvariant and SeqIsNeverStuck: POWMOD of R96 in its loop. -/
theorem test_witness_inv_powmod :
    let s := { started 1 4 13 497 with
      phase := .pmLoop
      w := { Working.zero with cmd := 1#8, x := 4, c := 13, n := 497, z := 4, i := 3 } }
    Inv s ∧ seqNext s ∧ ∃ t, step s = .next t := by
  refine ⟨⟨?_, ?_, ?_⟩, .inl rfl, _, rfl⟩
  · unfold statusInv; decide
  · unfold widthsInv; decide
  · show pmInv _
    unfold pmInv
    decide +kernel

/-- SeqIsNeverStuck, its idle clause. -/
theorem test_witness_inv_idle :
    Inv { small with turns := [.seq, .reset] } ∧ seqNext { small with turns := [.seq, .reset] } ∧
    small.phase = .idle := by
  refine ⟨⟨?_, ?_, trivial⟩, .inr ⟨_, rfl⟩, rfl⟩
  · unfold statusInv; decide
  · unfold widthsInv; decide

/-- SeqIsNeverStuck, its last clause: XGCD of V-XG-4 in its loop, with w.r1 not 0. -/
theorem test_witness_inv_xgcd :
    let s := { started 2 12 4 0 with
      phase := .xgLoop
      w := { Working.zero with cmd := 2#8, r0 := 12, r1 := 4, s0 := 1, s1 := 0, t0 := 0, t1 := 1 } }
    Inv s ∧ s.phase ∈ [Phase.xgLoop, .miLoop] ∧ s.w.r1 ≠ 0 := by
  refine ⟨⟨?_, ?_, ?_⟩, by decide, by decide⟩
  · unfold statusInv; decide
  · unfold widthsInv; decide
  · show xgInv _
    unfold xgInv
    decide +kernel

/-- SeqIsNeverStuck, its second clause: an ENCODE of one character that nothing has written, which is
also the case of EncodeFaultsOnAnUnwrittenCell. -/
theorem test_witness_inv_unwritten :
    let s := { started 6 0 0 0 with
      phase := .enScan, len := 1, w := { Working.zero with cmd := 6#8, l := 1, i := 0 } }
    Inv s ∧ seqNext s ∧ s.w.i ≠ s.w.l ∧ upToLmax s.params s.w.i = true ∧ s.txt.read s.w.i = none := by
  refine ⟨⟨?_, ?_, ?_⟩, .inl rfl, by decide, by decide, by decide⟩
  · unfold statusInv; decide
  · unfold widthsInv; decide
  · exact ⟨rfl, by decide, [], rfl, rfl⟩

/-- PowmodComputesThePower at the least modulus and exponent (V-PM-4), and PowmodDomainError at n = 1
(V-PM-18) and c = -1 (V-PM-21). -/
theorem test_witness_powmod :
    ready (started 1 0 0 2) ∧ 1 < (started 1 0 0 2).a2 ∧ 0 ≤ (started 1 0 0 2).a1 ∧
    (started 1 0 0 2).w.cmd = 0x01#8 ∧
    (started 1 3 4 1).a2 ≤ 1 ∧ (started 1 3 (-1) 7).a1 < 0 := by
  refine ⟨⟨rfl, rfl⟩, ?_⟩; decide

/-- PowmodLoopStep: the end, a bit 1 and a bit 0 of 13. -/
theorem test_witness_powmod_loop :
    (running .pmLoop { Working.zero with c := 13, n := 497, i := 0 }).w.i = 0 ∧
    (running .pmLoop { Working.zero with c := 13, n := 497, i := 3 }).w.i = 2 + 1 ∧
    bit 13 2 = 1 ∧ bit 13 1 = 0 := by decide

/-- XgcdComputesBezout at the smallest legal pair (V-XG-6), and XgcdDomainError (V-XG-13). -/
theorem test_witness_xgcd :
    ready (started 2 2 1 0) ∧ (started 2 2 1 0).a1 < (started 2 2 1 0).a0 ∧ 0 < (started 2 2 1 0).a1 ∧
    (started 2 2 1 0).w.cmd = 0x02#8 ∧
    fits (started 2 2 1 0).params (started 2 2 1 0).a0 = true ∧
    fits (started 2 2 1 0).params (started 2 2 1 0).a1 = true ∧
    ¬ ((started 2 5 0 0).a1 < (started 2 5 0 0).a0 ∧ 0 < (started 2 5 0 0).a1) := by
  refine ⟨⟨rfl, rfl⟩, ?_⟩; decide

/-- XgcdCornerCases: V-XG-4 and V-XG-5. -/
theorem test_witness_xgcd_corners :
    ready (started 2 12 4 0) ∧ (started 2 12 4 0).a1 ∣ (started 2 12 4 0).a0 ∧
    ready (started 2 7 6 0) ∧ (started 2 7 6 0).a0 = (started 2 7 6 0).a1 + 1 ∧
    2 ≤ (started 2 7 6 0).a1 := ⟨⟨rfl, rfl⟩, by decide, ⟨rfl, rfl⟩, by decide, by decide⟩

/-- ModinvComputesTheInverse at V-MI-2, and both clauses of ModinvErrors (V-MI-12, V-MI-9). -/
theorem test_witness_modinv :
    ready (started 3 1 2 0) ∧ (started 3 1 2 0).a0 < (started 3 1 2 0).a1 ∧ 0 < (started 3 1 2 0).a0 ∧
    Int.gcd (started 3 1 2 0).a0 (started 3 1 2 0).a1 = 1 ∧ (started 3 1 2 0).w.cmd = 0x03#8 ∧
    ¬ ((started 3 0 5 0).a0 < (started 3 0 5 0).a1 ∧ 0 < (started 3 0 5 0).a0) ∧
    Int.gcd (started 3 2 4 0).a0 (started 3 2 4 0).a1 ≠ 1 := by
  refine ⟨⟨rfl, rfl⟩, ?_⟩; decide +kernel

/-- MrwitRunsOneTrial: n = 2, n = 4, base n of an odd n, and a legal base of 3. -/
theorem test_witness_mrwit :
    ready (started 4 3 2 0) ∧ (started 4 2 99 0).a0 = 2 ∧ (started 4 4 1 0).a0 % 2 = 0 ∧
    (started 4 1 1 0).a0 < 2 ∧
    3 ≤ (started 4 9 9 0).a0 ∧ ¬ (1 ≤ (started 4 9 9 0).a1 ∧ (started 4 9 9 0).a1 < (started 4 9 9 0).a0) ∧
    3 ≤ (started 4 3 2 0).a0 ∧ (started 4 3 2 0).a0 % 2 = 1 ∧
    1 ≤ (started 4 3 2 0).a1 ∧ (started 4 3 2 0).a1 < (started 4 3 2 0).a0 ∧
    (started 4 3 2 0).w.cmd = 0x04#8 := by
  refine ⟨⟨rfl, rfl⟩, ?_⟩; decide

/-- MrtestRunsTheTrials: rounds -1, the special cases, a trial that fails as the second (V-MT-2), trials
that all pass (V-MT-16). -/
theorem test_witness_mrtest :
    (started 5 10 (-1) 0).a1 < 0 ∧ (started 5 2 10 0).a0 = 2 ∧ (started 5 100 10 0).a0 % 2 = 0 ∧
    (let s := { started 5 9 5 0 with draws := [1, 2] }
     3 ≤ s.a0 ∧ s.a0 % 2 = 1 ∧ s.w.cmd = 0x05#8 ∧ ((1 : Nat) : Int) < s.a1 ∧
     trial s.a0 (drawnBase s 1) = false ∧ trial s.a0 (drawnBase s 0) = true) ∧
    (let s := { started 5 3 2 0 with draws := [1, 2] }
     s.a1 = 2 ∧ trial s.a0 (drawnBase s 0) = true ∧ trial s.a0 (drawnBase s 1) = true) := by
  decide +kernel

/-- NoFalseCompositeVerdict: the least odd prime, with both its bases, and MRTEST without rounds. -/
theorem test_witness_prime :
    Nat.Prime 3 ∧ ready (started 4 3 2 0) ∧ (started 4 3 2 0).a0 = (3 : Nat) ∧
    ready (started 5 3 0 0) ∧ (started 5 3 0 0).a0 = (3 : Nat) ∧ 0 ≤ (started 5 3 0 0).a1 :=
  ⟨by decide, ⟨rfl, rfl⟩, by decide, ⟨rfl, rfl⟩, by decide, by decide⟩

/-- NineHasTwoPassingBases, its clause over MRTEST: five rounds (V-MT-1). -/
theorem test_witness_nine :
    ready (started 5 9 5 0) ∧ (started 5 9 5 0).w.cmd = 0x05#8 ∧ (started 5 9 5 0).a0 = 9 ∧
    0 ≤ (started 5 9 5 0).a1 := ⟨⟨rfl, rfl⟩, by decide, by decide, by decide⟩

/-- MrtestWithZeroRounds: V-MT-4. -/
theorem test_witness_zero_rounds :
    ready (started 5 15 0 0) ∧ (started 5 15 0 0).w.cmd = 0x05#8 ∧ (started 5 15 0 0).a1 = 0 ∧
    3 ≤ (started 5 15 0 0).a0 ∧ (started 5 15 0 0).a0 % 2 = 1 := by
  refine ⟨⟨rfl, rfl⟩, ?_⟩; decide

/-- OneDrawAtEachDrawnTrial: a drawn trial, a host's base, and no trial left. -/
theorem test_witness_one_draw :
    (let s := running .mrTrial { Working.zero with n := 9, m := 1, k := 3, rem := 1 }
     s.w.rem ≠ 0 ∧ s.w.hostbase = false ∧ ∃ t, exec .mrtest s = .next t) ∧
    (let s := running .mrTrial { Working.zero with n := 9, m := 1, k := 3, rem := 1, hostbase := true }
     s.w.hostbase = true ∧ ∃ t, exec .mrwit s = .next t) ∧
    (let s := running .mrTrial { Working.zero with n := 9, m := 1, k := 3, rem := 0 }
     s.w.rem = 0 ∧ ∃ t, exec .mrtest s = .next t) := by
  refine ⟨⟨by decide, rfl, _, rfl⟩, ⟨rfl, _, rfl⟩, ⟨rfl, _, rfl⟩⟩

theorem test_witness_draw_range : (1 : Int) < 3 ∧ (1 : Int) ≤ 2 ∧ (2 : Int) < 3 := by decide

/-- EncodeComputesTheValue with XLEN = 16: V-EN-24 fits, V-EN-25 does not, V-EN-16 has a digit. -/
theorem test_witness_encode :
    ready (withText 6 [0x62#8, 0x77#8, 0x6D#8, 0x68#8]) ∧
    upToLmax small.params 4 = true ∧
    cellString (withText 6 [0x62#8, 0x77#8, 0x6D#8, 0x68#8]).txt.read 4 =
      some [0x62#8, 0x77#8, 0x6D#8, 0x68#8] ∧
    fits small.params (encodeText [0x62#8, 0x77#8, 0x6D#8, 0x68#8]) = true ∧
    fits small.params (encodeText [0x62#8, 0x77#8, 0x6D#8, 0x69#8]) = false ∧
    [0x62#8, 0x77#8, 0x6D#8, 0x69#8].all isLower = true ∧
    [0x61#8, 0x62#8, 0x63#8, 0x31#8].all isLower = false := by
  refine ⟨⟨rfl, rfl⟩, ?_⟩; decide

/-- DecodeWritesTheString with LENW = 3: -1, 0, V-DE-18 and V-DE-19. -/
theorem test_witness_decode :
    ready (started 7 0 0 0) ∧ (started 7 (-1) 0 0).a0 < 0 ∧ 0 ≤ (started 7 0 0 0).a0 ∧
    (started 7 0 0 0).w.cmd = 0x07#8 ∧
    upToLmax small.params (decodeText 8031810175).length = true ∧
    upToLmax small.params (decodeText 8031810176).length = false := by
  refine ⟨⟨rfl, rfl⟩, ?_⟩; decide +kernel

/-- DecodeCompletionWrite: seven characters, and eight. -/
theorem test_witness_decode_completion :
    let s := running .deLoop { Working.zero with v := 0, s := List.replicate 7 0x62#8 }
    let t := running .deLoop { Working.zero with v := 0, s := List.replicate 8 0x62#8 }
    s.w.v = 0 ∧ s.txt.wf = true ∧ upToLmax s.params s.w.s.length = true ∧
    upToLmax t.params t.w.s.length = false := by decide

/-- CodecRoundTrip and EncodeThenDecodeStrips: "ab". -/
theorem test_witness_codec :
    (0 : Int) ≤ 0 ∧ [0x61#8, 0x62#8].all isLower = true ∧
    (let s := withText 6 [0x61#8, 0x62#8]
     ready s ∧ s.w.cmd = 0x06#8 ∧ s.txt.wf = true ∧ upToLmax s.params s.len = true ∧
     cellString s.txt.read s.len = some [0x61#8, 0x62#8] ∧
     fits s.params (encodeText [0x61#8, 0x62#8]) = true) := by
  refine ⟨by decide, by decide, ⟨rfl, rfl⟩, ?_⟩; decide

theorem test_witness_wipe : (started 8 0 0 0).phase = .start := rfl

/-- ErrorsArePrecise: V-XG-12. -/
theorem test_witness_error :
    (started 2 5 5 0).phase ≠ .idle ∧
    ∃ t, seqStep (started 2 5 5 0) = .next t ∧ t.phase = .idle ∧ statusErr t.status ≠ 0#3 :=
  ⟨by decide, _, rfl, by decide, by decide⟩

/-- ErrorsArePrecise, the whole command: V-MI-9. -/
theorem test_witness_error_run :
    ready (started 3 2 4 0) ∧
    ∃ t, runSteps 3 (started 3 2 4 0) = .next t ∧ t.phase = .idle ∧ statusErr t.status ≠ 0#3 := by
  refine ⟨⟨rfl, rfl⟩, ?_⟩
  obtain ⟨t, h, ht⟩ := see_eq (f := fun t => (t.phase, t.status)) (a := (.idle, 0x0A#8))
    (show see _ (runSteps 3 (started 3 2 4 0)) = _ by decide +kernel)
  simp only [Prod.mk.injEq] at ht
  exact ⟨t, h, ht.1, by rw [ht.2]; decide⟩

/-- ResultsAppearOnlyAtCompletion, PhasesFollowTheirRules. -/
theorem test_witness_goes_on :
    ∃ t, exec .powmod (started 1 4 13 497) = .next t ∧ t.phase ≠ .idle ∧
      (started 1 4 13 497).phase ∈ commandPhases .powmod := ⟨_, rfl, by decide, by decide⟩

/-- The frames, in the completion step of each result command. -/
theorem test_witness_frames :
    (∃ t, exec .powmod (running .pmLoop Working.zero) = .next t ∧ t.phase = .idle) ∧
    (∃ t, exec .modinv (running .miLoop { Working.zero with r0 := 1, n := 2 }) = .next t ∧
      t.phase = .idle) ∧
    (∃ t, exec .mrwit (running .mrTrial Working.zero) = .next t ∧ t.phase = .idle) ∧
    (∃ t, exec .mrtest (running .mrTrial Working.zero) = .next t ∧ t.phase = .idle) ∧
    (∃ t, exec .encode (running .enAcc Working.zero) = .next t ∧ t.phase = .idle) ∧
    (∃ t, exec .xgcd (running .xgLoop Working.zero) = .next t ∧ t.phase = .idle) ∧
    (∃ t, exec .decode (running .deLoop { Working.zero with s := [0x62#8] }) = .next t ∧
      t.phase = .idle) :=
  ⟨⟨_, rfl, rfl⟩, ⟨_, rfl, rfl⟩, ⟨_, rfl, rfl⟩, ⟨_, rfl, rfl⟩, ⟨_, rfl, rfl⟩, ⟨_, rfl, rfl⟩,
    ⟨_, rfl, rfl⟩⟩

/-- EveryCommandEnds: a code beside the map, and an ENCODE of seven characters. -/
theorem test_witness_every_command_ends :
    ready (started 0 0 0 0) ∧ decode (started 0 0 0 0).w.cmd = none ∧
    (let s := withText 6 (List.replicate 7 0x61#8)
     ready s ∧ decode s.w.cmd = some .encode ∧ upToLmax s.params s.len = true ∧
     ∃ str, cellString s.txt.read s.len = some str) :=
  ⟨⟨rfl, rfl⟩, by decide, ⟨rfl, rfl⟩, by decide, by decide, List.replicate 7 0x61#8, by decide⟩

/-- UnwrittenValuesDoNotMatter: A2 and w.x differ and nothing has written them; XGCD is about to start
on written arguments. -/
theorem test_witness_agree :
    let s := { started 2 12 4 0 with written := { Written.none with a0 := true, a1 := true } }
    let t := { s with a2 := 99, w := { s.w with x := 77 } }
    s ≠ t ∧ Agree s t ∧ dutyMet s := by
  refine ⟨by decide, ?_, ?_⟩
  · constructor <;> first | rfl | (intro h; first | rfl | exact absurd h (by decide))
  · intro _ i hi
    have : i = .xgcd := by
      simp only [started, State.withFetchWord] at hi
      revert hi
      cases i <;> decide
    subst this
    exact ⟨rfl, rfl⟩

/-- ResetAgreesWithAnyUnwrittenValues. -/
theorem test_witness_unwritten_reset :
    let t := { small with a0 := 5, w := { Working.zero with z := 3 } }
    t = { small with
      a0 := t.a0, a1 := t.a1, a2 := t.a2, r0 := t.r0, r1 := t.r1, r2 := t.r2, w := t.w } := rfl

/-- RdTextReadsEveryCell: a text of two written cells, and one cell that nothing has written. -/
theorem test_witness_rdtext :
    (let s := withText 7 [0x68#8, 0x69#8]
     upToLmax s.params s.len = true ∧ cellString s.txt.read s.len = some [0x68#8, 0x69#8]) ∧
    (let s := { small with len := 1 }
     upToLmax s.params s.len = true ∧ 0 < s.len ∧ s.txt.read 0 = none ∧
     ∀ j, j < 0 → s.txt.read j ≠ none) := by decide

/-- `rdtxt` reads what `txt` wrote, and stops where nothing has written (R76, U2). -/
theorem test_rdtext :
    returned (andThen (wrText [0x68#8, 0x69#8] small) (fun _ => rdText)) = some [0x68#8, 0x69#8] ∧
    rdText { small with len := 1 } = .stopped (.fault (.unwrittenText 0)) :=
  ⟨by decide +kernel, rfl⟩

/-- CallsReturnTheirResults and CallsFailWithTheErrorKind: the idle block, and arguments of each clause at
a boundary of its range. -/
theorem test_witness_calls :
    statusInv small ∧ small.phase = .idle ∧ small.txt.wf = true ∧
    ([0, 1, 2, 3, 4, -1, 32767, -32768].map fun v : Int => fits small.params v) = List.replicate 8 true ∧
    Int.gcd 1 2 = 1 ∧ Int.gcd 2 4 ≠ 1 ∧ upToLmax small.params 7 = true ∧ fits small.params 7 = true ∧
    (List.replicate 7 0x61#8).all isLower = true ∧
    fits small.params (encodeText (List.replicate 7 0x61#8)) = true ∧
    [0x7B#8].all isLower = false ∧ upToLmax small.params (decodeText 32767).length = true := by
  refine ⟨by unfold statusInv; decide, rfl, rfl, ?_⟩
  decide +kernel

/-- CallsReturnTheirResults, the clauses of MRTEST: V-MT-2 fails at its second draw, V-MT-16 passes. -/
theorem test_witness_call_mrtest :
    (let s := { small with draws := [1, 2] }
     trial 9 (drawIn 1 9 (answer s 1)) = false ∧ trial 9 (drawIn 1 9 (answer s 0)) = true ∧
     trial 3 (drawIn 1 3 (answer s 0)) = true ∧ trial 3 (drawIn 1 3 (answer s 1)) = true) ∧
    ((4 : Int) % 2 = 0 ∧ (4 : Int) ≠ 2) ∧ (1 : Int) < 2 ∧ fits small.params 9 = true := by decide +kernel

/-- CallsFailWithTheErrorKind: V-MI-12, V-MR-29, V-DE-15, V-EN-25. -/
theorem test_witness_calls_fail :
    ([0, 5, 9, -1].map fun v : Int => fits small.params v) = List.replicate 4 true ∧
    ¬ ((0 : Int) < 5 ∧ (0 : Int) < 0) ∧ ¬ ((1 : Int) ≤ 9 ∧ (9 : Int) < 9) ∧
    [0x62#8, 0x77#8, 0x6D#8, 0x69#8].all isLower = true ∧
    fits small.params (encodeText [0x62#8, 0x77#8, 0x6D#8, 0x69#8]) = false := by decide

/-- CallsFailWithTheErrorKind, DECODE with LENW = 3 and XLEN = 40: V-DE-19. -/
theorem test_witness_call_decode_fails :
    let s := State.resetWith (.bounded 32 0)
    statusInv s ∧ s.phase = .idle ∧ s.txt.wf = true ∧ fits s.params 8031810176 = true ∧
    upToLmax s.params (decodeText 8031810176).length = false := by
  refine ⟨by unfold statusInv; decide, rfl, rfl, ?_⟩
  decide +kernel

/-- V-XG-5 by CALL: all three results (R77). -/
theorem test_call_xgcd : returned (callXgcd 7 6 small) = some (1, 1, -1) := by decide +kernel

/-- V-MT-2 by CALL: the second draw is a witness. -/
theorem test_call_mrtest : returned (callMrtest 9 5 { small with draws := [1, 2] }) = some 0 := by
  decide +kernel

/-- V-MR-5 by CALL. -/
theorem test_call_mrwit : returned (callMrwit 9 8 small) = some 1 := by decide +kernel

/-- GenPrimeIsOddOfExactLength: R213, two bits give 3. -/
theorem test_witness_genprime : ∃ t, genPrime 2 0 [2] small = .value 3 t :=
  returned_eq (by decide +kernel)

/-- GenKeyReturnsInverseExponents: p = 5, q = 3, phi = 8, and the draw 3, which is its own inverse. -/
theorem test_witness_genkey :
    statusInv small ∧ small.phase = .idle ∧
    ∃ t, genKey 5 3 [3] small = .value ((15, 3), (15, 3)) t := by
  refine ⟨by unfold statusInv; decide, rfl, returned_eq (by decide +kernel)⟩

/-- EncryptThenDecryptStrips: n = 15, a = b = 3, "ab", with XLEN = 16 and LENW = 3. -/
theorem test_witness_cipher :
    Nat.Prime 5 ∧ Nat.Prime 3 ∧ (5 : Nat) ≠ 3 ∧ 3 ≤ 5 ∧ (3 : Int) * 3 % ((5 - 1) * (3 - 1)) = 1 ∧
    [0x61#8, 0x62#8].all isLower = true ∧ encodeText [0x61#8, 0x62#8] < 5 * 3 ∧
    upToLmax small.params [0x61#8, 0x62#8].length = true ∧ fits small.params 2 = true ∧
    fits small.params (5 * 3) = true ∧ fits small.params 3 = true ∧
    statusInv small ∧ small.phase = .idle ∧ small.txt.wf = true := by
  refine ⟨by decide, by decide, by decide, by decide, by decide, by decide, by decide, by decide,
    by decide, by decide, by decide, by unfold statusInv; decide, rfl, rfl⟩

/-- FlowReturnsTheStrippedText: three bits, the second prime drawn again while it is 5, n = 35, phi = 24 and
b = a = 5, and "ac" (2^5 mod 35 = 32). -/
theorem test_witness_flow :
    statusInv small ∧ small.phase = .idle ∧ small.txt.wf = true ∧
    (∃ t, flow 3 0 { first := [4], second := [[4], [6]], key := [5] } [0x61#8, 0x63#8] small =
      .value (((35, 5), (35, 5)), 32, [0x63#8]) t) ∧
    Nat.Prime 5 ∧ Nat.Prime 7 ∧ (5 : Nat) ≠ 7 ∧ (35 : Int) = ((5 : Nat) * (7 : Nat) : Int) := by
  refine ⟨by unfold statusInv; decide, rfl, rfl, returned_eq (by decide +kernel), by decide, by decide,
    by decide, by decide⟩

end Sys2Proof.Tests
end

section
/-! SUPPORT. A SEQ step said precisely: which phase it may go on to, what a completion writes in each phase
(spec/10_state.md R22, R33, R34), and that a step of SEQ is a step of some command or of an illegal code.
`Sys2Proof/Laws/Inversion.lean` does not say which phase and which values. -/

namespace Sys2Proof.Machine

/-- Every next state that `o` answers satisfies `P`; a fault and a refusal answer none. -/
def Answers (P : State → Prop) (o : StepOutcome) : Prop := ∀ t, o = .next t → P t

@[simp] theorem answers_next {P : State → Prop} {s : State} : Answers P (.next s) ↔ P s := by
  simp [Answers]

@[simp] theorem answers_fault (P : State → Prop) (f : Fault) : Answers P (.fault f) := by
  simp [Answers]

/-- The state that a completion step of command `i` in state `s` completes (R22): the result registers, or
LEN and TXT, with the values of the phase's own rule. -/
def IsResult (i : Instr) (s r : State) : Prop :=
  match s.phase with
  | .start =>
    match i with
    | .mrwit => r = setR0 0 s ∨ r = setR0 1 s
    | .mrtest => r = setR0 0 s ∨ r = setR0 1 s
    | .wipe => r = wiped s
    | _ => False
  | .pmLoop => r = setR0 s.w.z s
  | .xgLoop => r = setR2 s.w.t0 (setR1 s.w.s0 (setR0 s.w.r0 s))
  | .miLoop => r = setR0 (s.w.t0 % s.w.n) s
  | .mrTrial => r = setR0 1 s
  | .mrCheck => r = setR0 0 s
  | .enAcc => fits s.params s.w.v = true ∧ r = setR0 s.w.v s
  | .deLoop => upToLmax s.params s.w.s.length = true ∧
      r = setLen s.w.s.length (setTxt (s.txt.writeString 0 s.w.s) s)
  | _ => False

/-- The next states of a SEQ step of command `i` from state `s`. Only MR_TRIAL moves the oracle (R147). -/
inductive PhaseStep (i : Instr) (s : State) : State → Prop where
  | stays (h : s.phase = .idle) : PhaseStep i s s
  | goesOn (p : Phase) (w : Working) (d : Nat) (hp : p ∈ nextPhases i s.phase) (hi : p ≠ .idle)
      (hc : w.cmd = s.w.cmd) (hd : s.phase ≠ .mrTrial → d = 0) :
      PhaseStep i s (setPhase p (setW w (afterDraws d s)))
  | raises (k : ErrKind) (hn : .idle ∈ nextPhases i s.phase) : PhaseStep i s (raise k s)
  | completes (r : State) (hn : .idle ∈ nextPhases i s.phase) (hr : IsResult i s r) :
      PhaseStep i s (complete r)

section Introduction

variable {i : Instr} {s : State}

theorem PhaseStep.enters (p : Phase) (w : Working) (hi : p ≠ .idle := by decide)
    (hc : w.cmd = s.w.cmd := by rfl) (hp : p ∈ nextPhases i s.phase := by simp [nextPhases, *]) :
    PhaseStep i s (setPhase p (setW w s)) := .goesOn p w 0 hp hi hc fun _ => rfl

theorem PhaseStep.changesPhase (p : Phase) (hi : p ≠ .idle := by decide)
    (hp : p ∈ nextPhases i s.phase := by simp [nextPhases, *]) :
    PhaseStep i s (setPhase p s) := .goesOn p s.w 0 hp hi rfl fun _ => rfl

theorem PhaseStep.loops {p : Phase} (h : s.phase = p) (w : Working) (hi : p ≠ .idle := by decide)
    (hc : w.cmd = s.w.cmd := by rfl) (hp : p ∈ nextPhases i p := by simp [nextPhases]) :
    PhaseStep i s (setW w s) := by
  subst h; exact .goesOn s.phase w 0 hp hi hc fun _ => rfl

theorem PhaseStep.fails (k : ErrKind) (hn : .idle ∈ nextPhases i s.phase := by simp [nextPhases, *]) :
    PhaseStep i s (raise k s) := .raises k hn

theorem PhaseStep.ends {r : State} (hr : IsResult i s r := by simp [IsResult, *])
    (hn : .idle ∈ nextPhases i s.phase := by simp [nextPhases, *]) :
    PhaseStep i s (complete r) := .completes r hn hr

end Introduction

section Handlers

variable {s : State}

theorem powmodStart_step (hp : s.phase = .start) : Answers (PhaseStep .powmod s) (powmodStart s) := by
  unfold powmodStart
  split_ifs
  · exact answers_next.2 (.fails _)
  · exact answers_next.2 (.fails _)
  · exact answers_next.2 (.enters _ _)

theorem xgcdStart_step (hp : s.phase = .start) : Answers (PhaseStep .xgcd s) (xgcdStart s) := by
  unfold xgcdStart
  split_ifs
  · exact answers_next.2 (.enters _ _)
  · exact answers_next.2 (.fails _)

theorem modinvStart_step (hp : s.phase = .start) : Answers (PhaseStep .modinv s) (modinvStart s) := by
  unfold modinvStart
  split_ifs
  · exact answers_next.2 (.enters _ _)
  · exact answers_next.2 (.fails _)

theorem mrwitStart_step (hp : s.phase = .start) : Answers (PhaseStep .mrwit s) (mrwitStart s) := by
  unfold mrwitStart
  split_ifs
  · exact answers_next.2 .ends
  · exact answers_next.2 .ends
  · exact answers_next.2 (.enters _ _)
  · exact answers_next.2 (.fails _)

theorem mrtestStart_step (hp : s.phase = .start) : Answers (PhaseStep .mrtest s) (mrtestStart s) := by
  unfold mrtestStart
  split_ifs
  · exact answers_next.2 (.fails _)
  · exact answers_next.2 .ends
  · exact answers_next.2 .ends
  · exact answers_next.2 (.enters _ _)

theorem encodeStart_step (hp : s.phase = .start) : Answers (PhaseStep .encode s) (encodeStart s) :=
  answers_next.2 (.enters _ _)

theorem decodeStart_step (hp : s.phase = .start) : Answers (PhaseStep .decode s) (decodeStart s) := by
  unfold decodeStart
  split_ifs
  · exact answers_next.2 (.fails _)
  · exact answers_next.2 (.enters _ _)

theorem wipeStart_step (hp : s.phase = .start) : Answers (PhaseStep .wipe s) (wipeStart s) :=
  answers_next.2 .ends

variable (i : Instr)

theorem powmodLoop_step (hp : s.phase = .pmLoop) : Answers (PhaseStep i s) (powmodLoop s) := by
  unfold powmodLoop
  split_ifs
  · exact answers_next.2 .ends
  · exact answers_next.2 (.loops hp _)

theorem xgcdLoop_step (hp : s.phase = .xgLoop) : Answers (PhaseStep i s) (xgcdLoop s) := by
  unfold xgcdLoop
  split_ifs
  · exact answers_next.2 .ends
  · exact answers_next.2 (.loops hp _)

theorem modinvLoop_step (hp : s.phase = .miLoop) : Answers (PhaseStep i s) (modinvLoop s) := by
  unfold modinvLoop
  split_ifs
  · exact answers_next.2 (.fails _)
  · exact answers_next.2 .ends
  · exact answers_next.2 (.loops hp _)

theorem mrDecompStep_step (hp : s.phase = .mrDecomp) : Answers (PhaseStep i s) (mrDecompStep s) := by
  unfold mrDecompStep
  split_ifs
  · exact answers_next.2 (.loops hp _)
  · exact answers_next.2 (.changesPhase _)

theorem mrTrialStep_step (hp : s.phase = .mrTrial) : Answers (PhaseStep i s) (mrTrialStep s) := by
  unfold mrTrialStep
  split_ifs
  · exact answers_next.2 .ends
  · exact answers_next.2 (.enters _ _)
  · exact answers_next.2 (.goesOn .mrExp _ 1 (by simp [nextPhases, hp]) (by decide) rfl (by simp [hp]))
  · exact answers_fault _ _

theorem mrExpStep_step (hp : s.phase = .mrExp) : Answers (PhaseStep i s) (mrExpStep s) := by
  unfold mrExpStep
  split_ifs
  · exact answers_next.2 (.enters _ _)
  · exact answers_next.2 (.loops hp _)

theorem mrCheckStep_step (hp : s.phase = .mrCheck) : Answers (PhaseStep i s) (mrCheckStep s) := by
  unfold mrCheckStep
  split_ifs
  · exact answers_next.2 (.changesPhase _)
  · exact answers_next.2 (.changesPhase _)
  · exact answers_next.2 .ends
  · exact answers_next.2 (.loops hp _)

theorem encodeScan_step (hp : s.phase = .enScan) : Answers (PhaseStep i s) (encodeScan s) := by
  unfold encodeScan
  split
  · exact answers_next.2 (.enters _ _)
  split
  · exact answers_fault _ _
  split
  · exact answers_next.2 (.loops hp _)
  · exact answers_next.2 (.fails _)

theorem encodeAcc_step (hp : s.phase = .enAcc) : Answers (PhaseStep i s) (encodeAcc s) := by
  unfold encodeAcc
  split
  · split
    · exact answers_next.2 .ends
    · exact answers_next.2 (.fails _)
  split
  · exact answers_fault _ _
  · exact answers_next.2 (.loops hp _)

theorem decodeLoop_step (hp : s.phase = .deLoop) : Answers (PhaseStep i s) (decodeLoop s) := by
  unfold decodeLoop decodeFinish
  split_ifs
  · exact answers_next.2 .ends
  · exact answers_next.2 (.fails _)
  · exact answers_next.2 (.loops hp _)

/-- What one SEQ step of a command can do, precisely. -/
theorem exec_step {t : State} (h : exec i s = .next t) : PhaseStep i s t := by
  suffices Answers (PhaseStep i s) (exec i s) from this t h
  rcases hp : s.phase with _ | _ | _ | _ | _ | _ | _ | _ | _ | _ | _ | _
  case start =>
    rw [exec_start hp]
    cases i
    · exact powmodStart_step hp
    · exact xgcdStart_step hp
    · exact modinvStart_step hp
    · exact mrwitStart_step hp
    · exact mrtestStart_step hp
    · exact encodeStart_step hp
    · exact decodeStart_step hp
    · exact wipeStart_step hp
  all_goals
    rw [exec_eq_commandStep]
    simp only [commandStep, hp]
  case idle => exact answers_next.2 (.stays hp)
  case pmLoop => exact powmodLoop_step i hp
  case xgLoop => exact xgcdLoop_step i hp
  case miLoop => exact modinvLoop_step i hp
  case mrDecomp => exact mrDecompStep_step i hp
  case mrTrial => exact mrTrialStep_step i hp
  case mrExp => exact mrExpStep_step i hp
  case mrCheck => exact mrCheckStep_step i hp
  case enScan => exact encodeScan_step i hp
  case enAcc => exact encodeAcc_step i hp
  case deLoop => exact decodeLoop_step i hp

end Handlers

/-- The step of SEQ is a step of a command, the latched one in START, or the error of an illegal code (R73,
R74). -/
theorem seqStep_cases (s : State) :
    (∃ i, (s.phase = .start → decode s.w.cmd = some i) ∧ seqStep s = exec i s) ∨
    (s.phase = .start ∧ seqStep s = .next (raise .illegalCommand s)) := by
  rcases hd : decode s.w.cmd with _ | i
  · by_cases hp : s.phase = .start
    · exact .inr ⟨hp, seqStep_illegal hd hp⟩
    · refine .inl ⟨.wipe, fun h => absurd h hp, ?_⟩
      rw [seqStep_eq_loop hp wipeStart, exec_eq_loop hp .wipe wipeStart]
  · exact .inl ⟨i, fun _ => rfl, seqStep_eq_exec hd⟩

theorem dropTurn_of_no_turns {s : State} (h : s.turns = []) : dropTurn s = s := by
  cases s; simp_all [dropTurn]

/-- On SEQ's turn the machine's step is SEQ's (R62). -/
theorem step_of_seqNext {s : State} (h : seqNext s) : step s = seqStep (dropTurn s) := by
  rcases h with h | ⟨rest, h⟩
  · rw [step_of_no_turns h, dropTurn_of_no_turns h]
  · simp [step, h]

/-- The step of the machine is SEQ's, a host access or the reset event, with its turn taken off (R62). -/
theorem step_cases (s : State) :
    (seqNext s ∧ step s = seqStep (dropTurn s)) ∨
    (∃ op rest, s.turns = .host op :: rest ∧ step s = hostStep op (dropTurn s)) ∨
    (∃ rest, s.turns = .reset :: rest ∧ step s = .next (resetEvent (dropTurn s))) := by
  rcases ht : s.turns with _ | ⟨_ | op | _, rest⟩
  · exact .inl ⟨.inl ht, step_of_seqNext (.inl ht)⟩
  · exact .inl ⟨.inr ⟨rest, ht⟩, step_of_seqNext (.inr ⟨rest, ht⟩)⟩
  · exact .inr (.inl ⟨op, rest, rfl, by simp [step, ht]⟩)
  · exact .inr (.inr ⟨rest, rfl, by simp [step, ht]⟩)

end Sys2Proof.Machine
end

section
/-! SUPPORT. The invariant of the current phase is kept by every SEQ step (spec/41_modexp.md R94,
spec/42_extended_gcd.md R115, R116, R124, spec/43_miller_rabin.md R146 to R149, spec/44_codec.md R174, R175,
R181). It needs neither the widths nor STATUS. -/

namespace Sys2Proof.Machine

@[simp] theorem phaseInv_complete (s : State) : phaseInv (complete s) := trivial

@[simp] theorem phaseInv_raise (k : ErrKind) (s : State) : phaseInv (raise k s) := trivial

section Exponentiation

/-- No bit of the exponent is taken yet: the partial power is 1 (R92, R147). -/
theorem one_eq_pow_div_bitlen (x : Int) {c n : Int} (hc : 0 ≤ c) (hn : 1 < n) :
    1 = x ^ (c / 2 ^ bitlen c).toNat % n := by
  rw [div_two_pow_bitlen hc, Int.toNat_zero, pow_zero, Int.emod_eq_of_lt (by omega) hn]

variable {s : State}

theorem powmodStart_phaseInv (s : State) : Answers phaseInv (powmodStart s) := by
  unfold powmodStart
  split_ifs with hn hc
  · simp
  · simp
  · exact answers_next.2 ⟨not_le.1 hn, not_lt.1 hc, rfl, rfl, rfl, le_rfl,
      one_eq_pow_div_bitlen s.a0 (not_lt.1 hc) (not_le.1 hn)⟩

theorem powmodLoop_phaseInv (hp : s.phase = .pmLoop) (h : pmInv s) :
    Answers phaseInv (powmodLoop s) := by
  unfold powmodLoop
  split_ifs with hi
  · simp
  · obtain ⟨hn1, hc0, hx, hc, hn, hib, hz⟩ := h
    obtain ⟨i, hi⟩ := Nat.exists_eq_succ_of_ne_zero hi
    have hpm : pmInv (setW (expStep s.w) s) := by
      refine ⟨hn1, hc0, hx, hc, hn, (Nat.sub_le _ _).trans hib, ?_⟩
      have hpred : (expStep s.w).i = i := by simp [expStep, hi]
      simp only [setW_w, setW_a0, setW_a1, setW_a2, hpred]
      exact expStep_z hx hc hn hc0 hi (by rw [hz, hi])
    exact answers_next.2 (by simpa only [phaseInv, setW_phase, hp] using hpm)

end Exponentiation

section Euclid

variable {s : State}

/-- A bound from the identity of R116: what r0 > 0 multiplies is at most the sum. -/
theorem coefficient_bound {r0 r1 c0 c1 b : Int} (h0 : 0 < r0) (h1 : 0 ≤ r1)
    (h : r0 * |c1| + r1 * |c0| = b) : |c1| ≤ b := by
  nlinarith [abs_nonneg c1, mul_nonneg h1 (abs_nonneg c0)]

theorem xgcdStart_phaseInv (s : State) : Answers phaseInv (xgcdStart s) := by
  unfold xgcdStart
  split_ifs with hab
  · obtain ⟨hlt, hpos⟩ := hab
    refine answers_next.2 ⟨hlt, hpos, ?_⟩
    simp
    omega
  · simp

theorem xgInv_divide (h : xgInv s) (hr : s.w.r1 ≠ 0) : xgInv (setW (xgcdDivide s.w) s) := by
  obtain ⟨hlt, hpos, hr0, hr1, hgcd, hr10, h1, hle, hss, hts, hsb, htb, -, hs1, -, ht1⟩ := h
  have hr1pos : 0 < s.w.r1 := by omega
  have hq : 0 ≤ s.w.r0 / s.w.r1 := Int.ediv_nonneg (by omega) h1
  obtain ⟨hrem0, hremlt⟩ := remainder_range (r0 := s.w.r0) hr1pos
  have hsb' := coefficient_identity hq hss hsb
  have htb' := coefficient_identity hq hts htb
  refine ⟨hlt, hpos, hr1, ?_, (gcd_division _ _).trans hgcd, hremlt, hrem0, hr10.le.trans hle,
    coefficient_sign hq hss, coefficient_sign hq hts, hsb', htb', hs1,
    coefficient_bound hr1pos hrem0 hsb', ht1, coefficient_bound hr1pos hrem0 htb'⟩
  simp only [xgcdDivide, setW_w, setW_a0, setW_a1]
  linear_combination hr0 - s.w.r0 / s.w.r1 * hr1

theorem xgcdLoop_phaseInv (hp : s.phase = .xgLoop) (h : xgInv s) : Answers phaseInv (xgcdLoop s) := by
  unfold xgcdLoop
  split_ifs with hr
  · simp
  · exact answers_next.2 (by simpa only [phaseInv, setW_phase, hp] using xgInv_divide h hr)

theorem modinvStart_phaseInv (s : State) : Answers phaseInv (modinvStart s) := by
  unfold modinvStart
  split_ifs with hab
  · obtain ⟨hlt, hpos⟩ := hab
    refine answers_next.2 ⟨hlt, hpos, rfl, ?_⟩
    simp [Int.gcd_comm]
    omega
  · simp

theorem miInv_divide (h : miInv s) (hr : s.w.r1 ≠ 0) : miInv (setW (modinvDivide s.w) s) := by
  obtain ⟨hlt, hpos, hn, hd0, hd1, hgcd, hr10, h1, hts, htb, -, ht1⟩ := h
  have hr1pos : 0 < s.w.r1 := by omega
  have hq : 0 ≤ s.w.r0 / s.w.r1 := Int.ediv_nonneg (by omega) h1
  obtain ⟨hrem0, hremlt⟩ := remainder_range (r0 := s.w.r0) hr1pos
  have htb' := coefficient_identity hq hts htb
  refine ⟨hlt, hpos, hn, hd1, ?_, (gcd_division _ _).trans hgcd, hremlt, hrem0,
    coefficient_sign hq hts, htb', ht1, coefficient_bound hr1pos hrem0 htb'⟩
  have hcomb : s.w.r0 - s.w.r0 / s.w.r1 * s.w.r1 - (s.w.t0 - s.w.r0 / s.w.r1 * s.w.t1) * s.a0 =
      s.w.r0 - s.w.t0 * s.a0 - s.w.r0 / s.w.r1 * (s.w.r1 - s.w.t1 * s.a0) := by ring
  simpa only [modinvDivide, setW_w, setW_a0, setW_a1, hcomb] using
    Int.dvd_sub hd0 (hd1.mul_left (s.w.r0 / s.w.r1))

theorem modinvLoop_phaseInv (hp : s.phase = .miLoop) (h : miInv s) :
    Answers phaseInv (modinvLoop s) := by
  unfold modinvLoop
  split_ifs with hr
  · simp
  · simp
  · exact answers_next.2 (by simpa only [phaseInv, setW_phase, hp] using miInv_divide h hr)

end Euclid

section MillerRabin

variable {s : State}

theorem mrwitStart_phaseInv (s : State) : Answers phaseInv (mrwitStart s) := by
  unfold mrwitStart
  split_ifs with h2 heven hbase
  · simp
  · simp
  · refine answers_next.2 ⟨rfl, ?_⟩
    simp
    omega
  · simp

theorem mrtestStart_phaseInv (s : State) : Answers phaseInv (mrtestStart s) := by
  unfold mrtestStart
  split_ifs with hneg h2 heven
  · simp
  · simp
  · simp
  · refine answers_next.2 ⟨rfl, ?_⟩
    simp
    omega

theorem mrDecompStep_phaseInv (hp : s.phase = .mrDecomp) (h : mrInv s) :
    Answers phaseInv (mrDecompStep s) := by
  unfold mrDecompStep
  obtain ⟨hn, hn3, hodd, hm, hsplit, hrem, hbase⟩ := h
  split_ifs with heven
  · have hhalf : s.w.n - 1 = 2 ^ (s.w.k + 1) * (s.w.m / 2) := by
      rw [hsplit, pow_succ, mul_assoc, Int.mul_ediv_cancel' (Int.dvd_of_emod_eq_zero heven)]
    have hmr : mrInv (setW { s.w with m := s.w.m / 2, k := s.w.k + 1 } s) :=
      ⟨hn, hn3, hodd, (by omega : 0 < s.w.m / 2), hhalf, hrem, hbase⟩
    exact answers_next.2 (by simpa only [phaseInv, setW_phase, hp] using hmr)
  · refine answers_next.2 ⟨⟨hn, hn3, hodd, hm, hsplit, hrem, hbase⟩, (by omega : s.w.m % 2 = 1), ?_⟩
    -- n - 1 is even, so an odd m leaves a factor 2
    refine Nat.one_le_iff_ne_zero.2 fun (hk : s.w.k = 0) => ?_
    rw [hk, pow_zero, one_mul] at hsplit
    omega

/-- A trial begins with a legal base (R147). -/
theorem mrExpInv_mrBegin {a : Int} (h : mrSplit s) (hrem : s.w.rem ≠ 0) (ha : 1 ≤ a) (han : a < s.w.n)
    (hbase : s.w.hostbase = true → a = s.a1) : mrExpInv (mrBegin a s) := by
  obtain ⟨⟨hn, hn3, hodd, hm, hsplit, hrem0, -⟩, hmodd, hk⟩ := h
  exact ⟨⟨⟨hn, hn3, hodd, hm, hsplit, (by omega : 0 ≤ s.w.rem - 1), fun hb => ⟨hbase hb, ha, han⟩⟩,
    hmodd, hk⟩, ha, han, rfl, rfl, le_rfl, one_eq_pow_div_bitlen a hm.le (ha.trans_lt han)⟩

theorem mrTrialStep_phaseInv (h : mrSplit s) : Answers phaseInv (mrTrialStep s) := by
  unfold mrTrialStep
  have ⟨⟨_, _, _, _, _, _, hbase⟩, _⟩ := h
  split_ifs with hrem hb hn
  · simp
  · obtain ⟨ha1, ha, han⟩ := hbase hb
    exact answers_next.2 (mrExpInv_mrBegin h hrem ha han fun _ => ha1)
  · obtain ⟨hlo, hhi⟩ := drawIn_range hn (answer s 0)
    exact answers_next.2 (mrExpInv_mrBegin (s := afterDraws 1 s) h hrem hlo hhi fun hb' => absurd hb' hb)
  · simp

theorem mrExpStep_phaseInv (hp : s.phase = .mrExp) (h : mrExpInv s) : Answers phaseInv (mrExpStep s) := by
  unfold mrExpStep
  obtain ⟨hs, ha, han, hx, hc, hib, hz⟩ := h
  have ⟨⟨_, _, _, hm, _⟩, _, hk⟩ := hs
  split_ifs with hi
  · rw [hi, pow_zero, Int.ediv_one] at hz
    exact answers_next.2 ⟨hs, ha, han, hk, hz, fun j hj => absurd hj (Nat.not_lt_zero j),
      fun hj => absurd hj (Nat.not_lt_zero 0)⟩
  · obtain ⟨i, hi⟩ := Nat.exists_eq_succ_of_ne_zero hi
    have hmr : mrExpInv (setW (expStep s.w) s) := by
      refine ⟨hs, ha, han, hx, hc, (Nat.sub_le _ _).trans hib, ?_⟩
      have hpred : (expStep s.w).i = i := by simp [expStep, hi]
      simp only [setW_w, hpred]
      exact expStep_z hx hc rfl hm.le hi (by rw [hz, hi])
    exact answers_next.2 (by simpa only [phaseInv, setW_phase, hp] using hmr)

theorem mrCheckStep_phaseInv (hp : s.phase = .mrCheck) (h : mrCheckInv s) :
    Answers phaseInv (mrCheckStep s) := by
  unfold mrCheckStep
  obtain ⟨hs, ha, han, hjk, hb, hno, hb0⟩ := h
  split_ifs with h1 hlast hk
  · exact answers_next.2 hs
  · exact answers_next.2 hs
  · simp
  · have hsq : mulmod s.w.b s.w.b s.w.n = squares s.w.n (s.w.a ^ s.w.m.toNat % s.w.n) (s.w.j + 1) := by
      rw [hb, mulmod_self_squares]
    have hnot : ∀ j, j < s.w.j + 1 →
        squares s.w.n (s.w.a ^ s.w.m.toNat % s.w.n) j ≠ s.w.n - 1 := by
      intro j hj
      rcases Nat.lt_succ_iff_lt_or_eq.1 hj with hlt | rfl
      · exact hno j hlt
      · rwa [← hb]
    have hone : s.w.a ^ s.w.m.toNat % s.w.n ≠ 1 := by
      rcases Nat.eq_zero_or_pos s.w.j with hj | hj
      · intro hbase
        refine h1 ⟨hj, ?_⟩
        rw [hb, hj, squares, hbase]
      · exact hb0 hj
    have hmr : mrCheckInv (setW { s.w with b := mulmod s.w.b s.w.b s.w.n, j := s.w.j + 1 } s) :=
      ⟨hs, ha, han, (by omega : s.w.j + 1 < s.w.k), hsq, hnot, fun _ => hone⟩
    exact answers_next.2 (by simpa only [phaseInv, setW_phase, hp] using hmr)

end MillerRabin

section Codec

variable {s : State}

theorem encodeStart_phaseInv (s : State) : Answers phaseInv (encodeStart s) :=
  answers_next.2 ⟨rfl, Nat.zero_le _, [], rfl, rfl⟩

theorem encodeScan_phaseInv (hp : s.phase = .enScan) (h : enScanInv s) :
    Answers phaseInv (encodeScan s) := by
  unfold encodeScan
  obtain ⟨hl, hil, str, hstr, hlow⟩ := h
  split
  next hend => exact answers_next.2 ⟨hl, Nat.zero_le _, ⟨str, hend ▸ hstr, hlow⟩, [], rfl, rfl⟩
  next hmore =>
  split
  next => simp
  next ch hch =>
    split
    next hch_low =>
      have hread := ((readCell_ok_iff s s.w.i ch).1 hch).2
      have hen : enScanInv (setW { s.w with i := s.w.i + 1 } s) :=
        ⟨hl, Nat.lt_of_le_of_ne hil hmore, str ++ [ch], cellString_succ hstr hread, by simp [hlow, hch_low]⟩
      exact answers_next.2 (by simpa only [phaseInv, setW_phase, hp] using hen)
    next => simp

theorem encodeAcc_phaseInv (hp : s.phase = .enAcc) (h : enAccInv s) :
    Answers phaseInv (encodeAcc s) := by
  unfold encodeAcc
  obtain ⟨hl, hil, hlow, pre, hpre, hv⟩ := h
  split
  next => split <;> simp
  next hmore =>
  split
  next => simp
  next ch hch =>
    have hread := ((readCell_ok_iff s s.w.i ch).1 hch).2
    have hen : enAccInv (setW { s.w with v := s.w.v * 26 + letterIndex ch, i := s.w.i + 1 } s) :=
      ⟨hl, Nat.lt_of_le_of_ne hil hmore, hlow, pre ++ [ch], cellString_succ hpre hread, by
        simp [encodeText_append, hv]⟩
    exact answers_next.2 (by simpa only [phaseInv, setW_phase, hp] using hen)

theorem decodeStart_phaseInv (s : State) : Answers phaseInv (decodeStart s) := by
  unfold decodeStart
  split_ifs with hneg
  · simp
  · exact answers_next.2 ⟨not_lt.1 hneg, not_lt.1 hneg, (List.append_nil _).symm⟩

theorem decodeLoop_phaseInv (hp : s.phase = .deLoop) (h : deInv s) : Answers phaseInv (decodeLoop s) := by
  unfold decodeLoop decodeFinish
  obtain ⟨ha0, hv0, hdec⟩ := h
  split_ifs with hv
  · simp
  · simp
  · have hde : deInv (setW { s.w with s := chr (s.w.v % 26) :: s.w.s, v := s.w.v / 26 } s) := by
      refine ⟨ha0, Int.ediv_nonneg hv0 (by norm_num), ?_⟩
      simp [hdec, decodeText_pos (show 0 < s.w.v by omega)]
    exact answers_next.2 (by simpa only [phaseInv, setW_phase, hp] using hde)

end Codec

theorem execStart_phaseInv {s : State} (hp : s.phase = .start) (i : Instr) : Answers phaseInv (exec i s) := by
  rw [exec_start hp]
  cases i
  · exact powmodStart_phaseInv s
  · exact xgcdStart_phaseInv s
  · exact modinvStart_phaseInv s
  · exact mrwitStart_phaseInv s
  · exact mrtestStart_phaseInv s
  · exact encodeStart_phaseInv s
  · exact decodeStart_phaseInv s
  · exact answers_next.2 (phaseInv_complete _)

/-- Every step of every command keeps the invariant of the phase. -/
theorem exec_phaseInv {s : State} (h : phaseInv s) (i : Instr) : Answers phaseInv (exec i s) := by
  rcases hp : s.phase with _ | _ | _ | _ | _ | _ | _ | _ | _ | _ | _ | _
  case start => exact execStart_phaseInv hp i
  all_goals
    rw [exec_eq_commandStep]
    simp only [commandStep, hp]
    simp only [phaseInv, hp] at h
  case idle => simp [phaseInv, hp]
  case pmLoop => exact powmodLoop_phaseInv hp h
  case xgLoop => exact xgcdLoop_phaseInv hp h
  case miLoop => exact modinvLoop_phaseInv hp h
  case mrDecomp => exact mrDecompStep_phaseInv hp h
  case mrTrial => exact mrTrialStep_phaseInv h
  case mrExp => exact mrExpStep_phaseInv hp h
  case mrCheck => exact mrCheckStep_phaseInv hp h
  case enScan => exact encodeScan_phaseInv hp h
  case enAcc => exact encodeAcc_phaseInv hp h
  case deLoop => exact decodeLoop_phaseInv hp h

end Sys2Proof.Machine
end

section
/-! SUPPORT. STATUS and the widths of the registers are kept by every step (spec/00_scope.md R7, R8,
spec/10_state.md R25, R26), and with the invariant of the phase the whole invariant is. -/

namespace Sys2Proof.Machine

section Status

/-- STATUS of an idle block whose last command ended, with or without an error (R14, R26). -/
theorem statusInv_ended {t : State} {e : BitVec 3} (hs : t.status = statusOf false true e)
    (hp : t.phase = .idle) (he : e.toNat ≤ 5) : statusInv t := by
  simp [statusInv, hs, hp, he]

theorem statusInv_complete (s : State) : statusInv (complete s) :=
  statusInv_ended rfl rfl (Nat.zero_le 5)

theorem statusInv_raise (k : ErrKind) (s : State) : statusInv (raise k s) :=
  statusInv_ended rfl rfl (errCode_le k)

theorem statusInv_startCommand (k : Byte) (s : State) : statusInv (startCommand k s) := by
  simp [statusInv]

/-- The reset event and power-on leave STATUS 0 and phase IDLE (R40). -/
theorem statusInv_zero {t : State} (hs : t.status = 0x00#8) (hp : t.phase = .idle) : statusInv t := by
  unfold statusInv
  rw [hs, hp]
  decide

/-- STATUS stays while the block stays busy or stays idle. -/
theorem statusInv_congr {s t : State} (h : statusInv s) (hs : t.status = s.status)
    (hp : t.phase = .idle ↔ s.phase = .idle) : statusInv t := by
  simpa only [statusInv, hs, ne_eq, hp] using h

/-- A block that is not busy is idle (R26). -/
theorem phase_idle_of_not_busy {s : State} (h : statusInv s) (hb : isBusy s = false) :
    s.phase = .idle := by
  by_contra hp
  exact absurd (h.2.1.2 hp) (by simpa [isBusy] using hb)

theorem PhaseStep.statusInv {i : Instr} {s t : State} (h : PhaseStep i s t) (hs : statusInv s) :
    statusInv t := by
  cases h with
  | stays => exact hs
  | goesOn p w d hp hi _ _ =>
    refine statusInv_congr hs rfl (iff_of_false hi fun hidle => hi ?_)
    simpa [nextPhases, hidle] using hp
  | raises k => exact statusInv_raise k s
  | completes r => exact statusInv_complete r

theorem seqStep_statusInv {s t : State} (hs : statusInv s) (h : seqStep s = .next t) : statusInv t := by
  rcases seqStep_cases s with ⟨i, -, hi⟩ | ⟨-, hi⟩
  · exact (exec_step i (hi ▸ h)).statusInv hs
  · rw [hi, Host.Outcome.next.injEq] at h
    exact h ▸ statusInv_raise _ _

theorem hostStep_statusInv {op : HostOp} {s t : State} (hs : statusInv s) (h : hostStep op s = .next t) :
    statusInv t := by
  rcases hostStep_next h with rfl | ⟨r, v, -, -, -, rfl⟩ | ⟨i, v, -, -, -, rfl⟩
  · exact hs
  · rcases hostWriteIdle_cases s r v with hw | hw | hw | hw | hw | hw <;> rw [hw]
    case inr.inr.inr.inl => exact statusInv_startCommand _ s
    all_goals exact hs
  · exact hs

theorem step_statusInv {s t : State} (hs : statusInv s) (h : step s = .next t) : statusInv t := by
  rcases step_cases s with ⟨-, hstep⟩ | ⟨op, rest, -, hstep⟩ | ⟨rest, -, hstep⟩ <;> rw [hstep] at h
  · exact seqStep_statusInv (s := dropTurn s) hs h
  · exact hostStep_statusInv (s := dropTurn s) hs h
  · rw [Host.Outcome.next.injEq] at h
    exact h ▸ statusInv_zero rfl rfl

/-- The STATUS bytes that R26 leaves. -/
theorem status_byte_cases : ∀ st : Byte, statusReserved st = 0#3 →
    ¬ (statusBusy st = true ∧ statusDone st = true) →
    (statusErr st ≠ 0#3 → statusDone st = true ∧ statusBusy st = false) → (statusErr st).toNat ≤ 5 →
    (st.toNat : Int) ∈ ([0x00, 0x01, 0x02, 0x06, 0x0A, 0x0E, 0x12, 0x16] : List Int) := by
  decide

/-- Settles O13: SEQ goes on without touching STATUS or ends a command with a STATUS of R26; the host can
only start a command; reset clears STATUS. -/
theorem statusInvariantIsKept : Obligations.StatusInvariantIsKept := by
  refine ⟨fun p => statusInv_zero rfl rfl, fun s t => step_statusInv, fun s hs => ?_⟩
  obtain ⟨hres, -, hbd, herr, hle⟩ := hs
  exact status_byte_cases s.status hres hbd herr hle

end Status

section Widths

/-- A remainder fits where the divisor does. -/
theorem fits_emod {p : Params} {n : Int} (v : Int) (hn : fits p n = true) (h : 0 < n) :
    fits p (v % n) = true :=
  fits_of_le hn (Int.emod_nonneg v h.ne') (Int.emod_lt_of_pos v h).le

variable {s : State}

theorem widthsInv_setR0 (h : widthsInv s) {v : Int} (hv : fits s.params v = true) :
    widthsInv (setR0 v s) := by
  obtain ⟨ha0, ha1, ha2, -, hr1, hr2, hlen, hwf, hin⟩ := h
  exact ⟨ha0, ha1, ha2, hv, hr1, hr2, hlen, hwf, hin⟩

/-- The three results of XGCD fit: R0 is at most a, |R1| at most b, |R2| at most a (R116). -/
theorem widthsInv_xgcdResults (h : widthsInv s) (hx : xgInv s) :
    widthsInv (setR2 s.w.t0 (setR1 s.w.s0 (setR0 s.w.r0 s))) := by
  obtain ⟨ha0, ha1, ha2, -, -, -, hlen, hwf, hin⟩ := h
  obtain ⟨-, -, -, -, -, hr10, h1, hle, -, -, -, -, hs0, -, ht0, -⟩ := hx
  exact ⟨ha0, ha1, ha2, fits_of_le ha0 (h1.trans hr10.le) hle, fits_of_abs_le ha1 hs0,
    fits_of_abs_le ha0 ht0, hlen, hwf, hin⟩

theorem widthsInv_decodeResult (h : widthsInv s) {str : List Byte}
    (hstr : upToLmax s.params str.length = true) :
    widthsInv (setLen str.length (setTxt (s.txt.writeString 0 str) s)) := by
  obtain ⟨ha0, ha1, ha2, hr0, hr1, hr2, -, hwf, hin⟩ := h
  exact ⟨ha0, ha1, ha2, hr0, hr1, hr2, hstr, Text.wf_writeString str hwf 0,
    Text.within_writeString str hin 0 (by simpa using hstr)⟩

/-- A state with every register 0 and an empty list of cells. -/
theorem widthsInv_zero {t : State} (ha0 : t.a0 = 0) (ha1 : t.a1 = 0) (ha2 : t.a2 = 0) (hr0 : t.r0 = 0)
    (hr1 : t.r1 = 0) (hr2 : t.r2 = 0) (hlen : t.len = 0) (hcells : t.txt.cells = []) : widthsInv t := by
  have hz := fits_zero t.params
  have hl : upToLmax t.params 0 = true := by cases t.params <;> simp [upToLmax]
  simp [widthsInv, ha0, ha1, ha2, hr0, hr1, hr2, hlen, hcells, hz, hl, Text.wf, Text.within, rises]

/-- What a completion step writes fits, by the invariant of the phase (R95, R116, R124). -/
theorem widthsInv_of_isResult {i : Instr} {r : State} (h : widthsInv s) (hi : phaseInv s)
    (hr : IsResult i s r) : widthsInv r := by
  have ⟨_, ha1, ha2, _⟩ := h
  unfold IsResult at hr
  rcases hp : s.phase with _ | _ | _ | _ | _ | _ | _ | _ | _ | _ | _ | _ <;>
    simp only [hp] at hr <;> simp only [phaseInv, hp] at hi
  case start =>
    cases i <;> simp only at hr
    case mrwit => rcases hr with rfl | rfl <;> exact widthsInv_setR0 h (by simp [fits_zero, fits_one])
    case mrtest => rcases hr with rfl | rfl <;> exact widthsInv_setR0 h (by simp [fits_zero, fits_one])
    case wipe => exact hr ▸ widthsInv_zero rfl rfl rfl rfl rfl rfl rfl rfl
  case pmLoop =>
    obtain ⟨hn, -, -, -, -, -, hz⟩ := hi
    exact hr ▸ widthsInv_setR0 h (hz ▸ fits_emod _ ha2 (by omega))
  case xgLoop => exact hr ▸ widthsInv_xgcdResults h hi
  case miLoop =>
    obtain ⟨hlt, hpos, hn, -⟩ := hi
    exact hr ▸ widthsInv_setR0 h (hn ▸ fits_emod _ ha1 (hpos.trans hlt))
  case mrTrial => exact hr ▸ widthsInv_setR0 h (fits_one _)
  case mrCheck => exact hr ▸ widthsInv_setR0 h (fits_zero _)
  case enAcc => exact hr.2 ▸ widthsInv_setR0 h hr.1
  case deLoop => exact hr.2 ▸ widthsInv_decodeResult h hr.1

theorem PhaseStep.widthsInv {i : Instr} {t : State} (ht : PhaseStep i s t) (h : widthsInv s)
    (hi : phaseInv s) : widthsInv t := by
  cases ht with
  | stays => exact h
  | goesOn => exact h
  | raises => exact h
  | completes r _ hr =>
    have hw := widthsInv_of_isResult h hi hr
    exact hw

end Widths

section Invariant

variable {s : State}

theorem Inv.dropTurn (h : Inv s) : Inv (dropTurn s) := ⟨h.status, h.widths, h.phase⟩

theorem seqStep_inv {t : State} (h : Inv s) (ht : seqStep s = .next t) : Inv t := by
  rcases seqStep_cases s with ⟨i, -, hi⟩ | ⟨-, hi⟩ <;> rw [hi] at ht
  · have hstep := exec_step i ht
    exact ⟨hstep.statusInv h.status, hstep.widthsInv h.widths h.phase, exec_phaseInv h.phase i t ht⟩
  · rw [Host.Outcome.next.injEq] at ht
    exact ht ▸ ⟨statusInv_raise _ _, h.widths, phaseInv_raise _ _⟩

/-- In an idle block the phase guarantees nothing, so the host may write any argument that fits (R54). -/
theorem hostStep_inv {op : HostOp} {t : State} (h : Inv s) (ht : hostStep op s = .next t) : Inv t := by
  have hstatus := hostStep_statusInv h.status ht
  obtain ⟨ha0, ha1, ha2, hr0, hr1, hr2, hlen, hwf, hin⟩ := h.widths
  rcases hostStep_next ht with rfl | ⟨r, v, -, hv, hb, rfl⟩ | ⟨i, v, -, hi, hb, rfl⟩
  · exact h
  · have hfit : fits s.params v = true := (Bool.and_eq_true_iff.1 hv).1
    have hidle := phase_idle_of_not_busy h.status hb
    rcases hostWriteIdle_cases s r v with hw | hw | hw | hw | hw | hw <;> rw [hw] at hstatus ⊢
    · exact ⟨hstatus, ⟨hfit, ha1, ha2, hr0, hr1, hr2, hlen, hwf, hin⟩, by simp [phaseInv, hidle]⟩
    · exact ⟨hstatus, ⟨ha0, hfit, ha2, hr0, hr1, hr2, hlen, hwf, hin⟩, by simp [phaseInv, hidle]⟩
    · exact ⟨hstatus, ⟨ha0, ha1, hfit, hr0, hr1, hr2, hlen, hwf, hin⟩, by simp [phaseInv, hidle]⟩
    · exact ⟨hstatus, h.widths, trivial⟩
    · exact ⟨hstatus, ⟨ha0, ha1, ha2, hr0, hr1, hr2, upToLmax_lenImage _ v, hwf, hin⟩,
        by simp [phaseInv, hidle]⟩
    · exact h
  · exact ⟨hstatus, ⟨ha0, ha1, ha2, hr0, hr1, hr2, hlen, Text.wf_write hwf i _, Text.within_write hin hi _⟩,
      by simp [phaseInv, phase_idle_of_not_busy h.status hb]⟩

theorem inv_resetWith (p : Params) : Inv (State.resetWith p) :=
  ⟨statusInv_zero rfl rfl, widthsInv_zero rfl rfl rfl rfl rfl rfl rfl rfl, trivial⟩

/-- The reset event leaves the reset state but for what lies outside the block (R270). -/
theorem inv_resetEvent (s : State) : Inv (resetEvent s) :=
  have h := inv_resetWith s.params
  ⟨h.status, h.widths, h.phase⟩

/-- Settles O15: each part is kept by SEQ through `exec_step` and `exec_phaseInv`; a host access changes
an idle block only; the reset event gives the reset state. -/
theorem everyStepKeepsTheInvariant : Obligations.EveryStepKeepsTheInvariant := by
  intro s t h ht
  rcases step_cases s with ⟨-, hstep⟩ | ⟨op, rest, -, hstep⟩ | ⟨rest, -, hstep⟩ <;> rw [hstep] at ht
  · exact seqStep_inv h.dropTurn ht
  · exact hostStep_inv h.dropTurn ht
  · rw [Host.Outcome.next.injEq] at ht
    exact ht ▸ inv_resetEvent _

/-- Settles O14: every register is 0 and no cell is listed. -/
theorem invariantHoldsAtReset : Obligations.InvariantHoldsAtReset := inv_resetWith

end Invariant

end Sys2Proof.Machine
end

section
/-! SUPPORT. The host's port and reset: the CMD write, the STATUS image and what reset leaves
(spec/10_state.md R25, R35, R40, spec/70_reset_and_hazards.md R270). -/

namespace Sys2Proof.Machine

/-- A CMD write whose value fits is one the host can make; only LEN asks for more (R54). -/
theorem valueOk_cmd {p : Params} {v : Int} (h : fits p v = true) : HostOp.valueOk p 0x8#4 v = true := by
  simp [HostOp.valueOk, h]

/-- The host's turn, while BUSY = 0 and with a value that fits (R54). -/
theorem step_writeReg_idle {s : State} {r : RegNum} {v : Int} {rest : List Turn}
    (hb : statusBusy s.status = false) (hv : HostOp.valueOk s.params r v = true)
    (ht : s.turns = .host (.writeReg r v) :: rest) : step s = .next (hostWriteIdle (dropTurn s) r v) := by
  simp [step, ht, hostStep, hv, hostWrite, isBusy, hb]

/-- Settles O6: the host's turn is `startCommand`; the step after it dispatches on the code written. -/
theorem cmdWriteStartsTheCommand : Obligations.CmdWriteStartsTheCommand := by
  intro s v rest hb hfit ht
  have hdrop : startCommand (BitVec.ofInt 8 v) (dropTurn s) =
      { s with
        w := { s.w with cmd := BitVec.ofInt 8 v }, status := statusOf true false 0#3,
        phase := .start, turns := rest } := by
    simp [startCommand, setPhase, setStatus, setW, dropTurn, ht]
  refine ⟨startCommand (BitVec.ofInt 8 v) (dropTurn s), step_writeReg_idle hb (valueOk_cmd hfit) ht, hdrop,
    fun hturn i hi => ?_, fun hturn hnone => ?_⟩
  · rw [step_of_seqNext hturn, seqStep_eq_exec hi]
  · rw [step_of_seqNext hturn, seqStep_illegal hnone rfl]

/-- The value of the STATUS byte (R25). -/
theorem toNat_statusOf : ∀ (b d : Bool) (e : BitVec 3),
    (statusOf b d e).toNat = b.toNat + 2 * d.toNat + 4 * e.toNat := by
  decide

/-- Settles O11: the host reads the byte itself, and each field is a slice of it. -/
theorem statusImageHoldsTheFields : Obligations.StatusImageHoldsTheFields := by
  intro s b d e hs
  have hread : hostRead s 0x9#4 = (s.status.toNat : Int) := rfl
  rw [hread, hs, toNat_statusOf]
  simp

/-- Settles O12: both by the values of `State.resetWith`. -/
theorem resetLeavesTheStatedValues : Obligations.ResetLeavesTheStatedValues := by
  refine ⟨fun p => ⟨rfl, rfl, rfl, rfl, fun _ => rfl, rfl⟩, fun s rest ht => ?_⟩
  refine ⟨resetEvent (dropTurn s), by simp [step, ht], rfl, rfl, rfl, fun _ => rfl, rfl, rfl, ?_, rfl, rfl⟩
  simp [resetEvent, ht]

end Sys2Proof.Machine
end

section
/-! SUPPORT. What each command leaves unchanged and which phase follows which (spec/10_state.md R22, R33, R55,
spec/45_system.md R203), read off `PhaseStep`; and that SEQ always has a step (spec/10_state.md R34). -/

namespace Sys2Proof.Machine

section Phases

theorem idle_notMem_commandPhases (i : Instr) : Phase.idle ∉ commandPhases i := by
  cases i <;> decide

/-- The phases of a command are closed under its steps, but for IDLE (R203). -/
theorem nextPhases_closed (i : Instr) : ∀ p ∈ commandPhases i, ∀ q ∈ nextPhases i p,
    q = .idle ∨ q ∈ commandPhases i := by
  cases i <;> decide

variable {i : Instr} {s t : State}

theorem PhaseStep.phase_mem (h : PhaseStep i s t) : t.phase ∈ nextPhases i s.phase := by
  cases h with
  | stays hp => simp [nextPhases, hp]
  | goesOn p w d hp => exact hp
  | raises k hn => exact hn
  | completes r hn => exact hn

/-- Settles O44: `PhaseStep` names the next phase, and the table of R203 is closed. -/
theorem phasesFollowTheirRules : Obligations.PhasesFollowTheirRules := by
  intro i s t h
  have hmem := (exec_step i h).phase_mem
  exact ⟨hmem, fun hp => nextPhases_closed i s.phase hp t.phase hmem⟩

end Phases

section Frames

variable {i : Instr} {s t : State}

/-- Settles O40: a step that goes on sets the phase, working registers and the oracle's position. -/
theorem resultsAppearOnlyAtCompletion : Obligations.ResultsAppearOnlyAtCompletion := by
  intro i s t h hp
  cases exec_step i h with
  | stays hidle => exact absurd hidle hp
  | goesOn => exact ⟨⟨rfl, rfl, rfl, rfl, rfl, rfl, rfl, rfl⟩, rfl, rfl⟩
  | raises => exact absurd rfl hp
  | completes => exact absurd rfl hp

/-- The four forms of a result (R22): R0 alone, the three of XGCD, the text of DECODE, and what WIPE leaves. -/
theorem isResult_cases {r : State} (h : IsResult i s r) :
    (∃ v, r = setR0 v s) ∨ s.phase = .xgLoop ∨ s.phase = .deLoop ∨ i = .wipe := by
  unfold IsResult at h
  rcases hp : s.phase with _ | _ | _ | _ | _ | _ | _ | _ | _ | _ | _ | _ <;> simp only [hp] at h
  case start =>
    cases i <;> simp only at h
    case mrwit => exact .inl (h.elim (⟨0, ·⟩) (⟨1, ·⟩))
    case mrtest => exact .inl (h.elim (⟨0, ·⟩) (⟨1, ·⟩))
    case wipe => simp
  case xgLoop => simp
  case deLoop => simp
  case enAcc => exact .inl ⟨_, h.2⟩
  all_goals exact .inl ⟨_, h⟩

/-- The commands whose one result is R0, and their phases. -/
theorem oneResult_phases : ∀ i ∈ [Instr.powmod, .modinv, .mrwit, .mrtest, .encode],
    ∀ p ∈ commandPhases i, p ≠ .xgLoop ∧ p ≠ .deLoop ∧ i ≠ .wipe := by
  decide

theorem isResult_oneResult {r : State} (hi : i ∈ [Instr.powmod, .modinv, .mrwit, .mrtest, .encode])
    (hp : s.phase ∈ commandPhases i) (h : IsResult i s r) : ∃ v, r = setR0 v s := by
  obtain ⟨hxg, hde, hwipe⟩ := oneResult_phases i hi s.phase hp
  simpa [hxg, hde, hwipe] using isResult_cases h

/-- Settles O41: going on, an error and the write of R0 at a completion are the only steps. -/
theorem frameOfOneResultCommands : Obligations.FrameOfOneResultCommands := by
  intro i s t hi hp h
  cases exec_step i h with
  | stays hidle => exact absurd (hidle ▸ hp) (idle_notMem_commandPhases i)
  | goesOn p w d _ hp' hc =>
    exact ⟨rfl, rfl, rfl, rfl, rfl, rfl, fun _ => rfl, rfl, rfl, fun _ => ⟨rfl, rfl⟩, fun _ _ => rfl,
      fun hidle => absurd hidle hp', hc⟩
  | raises k =>
    exact ⟨rfl, rfl, rfl, rfl, rfl, rfl, fun _ => rfl, rfl, rfl, fun hne => absurd rfl hne,
      fun _ _ => rfl, by simp, rfl⟩
  | completes r _ hr =>
    obtain ⟨v, rfl⟩ := isResult_oneResult hi hp hr
    exact ⟨rfl, rfl, rfl, rfl, rfl, rfl, fun _ => rfl, rfl, rfl, fun hne => absurd rfl hne,
      by simp, by simp, rfl⟩

theorem isResult_xgcd {r : State} (hp : s.phase ∈ commandPhases .xgcd) (h : IsResult .xgcd s r) :
    r = setR2 s.w.t0 (setR1 s.w.s0 (setR0 s.w.r0 s)) := by
  have hphase : s.phase = .start ∨ s.phase = .xgLoop := by simpa [commandPhases] using hp
  rcases hphase with hp | hp
  · simp [IsResult, hp] at h
  · simpa [IsResult, hp] using h

/-- A phase of a command that is not a Miller-Rabin test draws nothing. -/
theorem ne_mrTrial_of_mem {p : Phase} (hi : i ∉ [Instr.mrwit, .mrtest]) (hp : p ∈ commandPhases i) :
    p ≠ .mrTrial := by
  rintro rfl
  cases i <;> simp [commandPhases] at hi hp

/-- Settles O42: the three results are written by the completion step alone, and no step of XGCD draws. -/
theorem frameOfXgcd : Obligations.FrameOfXgcd := by
  intro s t hp h
  cases exec_step .xgcd h with
  | stays hidle => exact absurd (hidle ▸ hp) (idle_notMem_commandPhases .xgcd)
  | goesOn p w d _ hp' hc hd =>
    rw [hd (ne_mrTrial_of_mem (by decide) hp)]
    exact ⟨rfl, rfl, rfl, rfl, fun _ => rfl, ⟨rfl, rfl, rfl, rfl⟩, fun _ => ⟨rfl, rfl, rfl⟩, fun _ => rfl,
      fun hidle => absurd hidle hp', hc⟩
  | raises k =>
    exact ⟨rfl, rfl, rfl, rfl, fun _ => rfl, ⟨rfl, rfl, rfl, rfl⟩, fun _ => ⟨rfl, rfl, rfl⟩,
      fun hne => absurd rfl hne, by simp, rfl⟩
  | completes r _ hr =>
    rw [isResult_xgcd hp hr]
    exact ⟨rfl, rfl, rfl, rfl, fun _ => rfl, ⟨rfl, rfl, rfl, rfl⟩, by simp,
      fun hne => absurd rfl hne, by simp, rfl⟩

theorem isResult_decode {r : State} (hp : s.phase ∈ commandPhases .decode) (h : IsResult .decode s r) :
    r = setLen s.w.s.length (setTxt (s.txt.writeString 0 s.w.s) s) := by
  have hphase : s.phase = .start ∨ s.phase = .deLoop := by simpa [commandPhases] using hp
  rcases hphase with hp | hp
  · simp [IsResult, hp] at h
  · simp only [IsResult, hp] at h
    exact h.2

/-- Settles O43: LEN and the cells below the length of w.s are written by the completion step alone, and no
step of DECODE draws. -/
theorem frameOfDecode : Obligations.FrameOfDecode := by
  intro s t hp h
  cases exec_step .decode h with
  | stays hidle => exact absurd (hidle ▸ hp) (idle_notMem_commandPhases .decode)
  | goesOn p w d _ hp' hc hd =>
    rw [hd (ne_mrTrial_of_mem (by decide) hp)]
    exact ⟨rfl, rfl, rfl, rfl, rfl, rfl, ⟨rfl, rfl, rfl, rfl⟩, rfl, fun _ _ => rfl,
      fun _ => ⟨rfl, fun _ => rfl⟩, fun _ => rfl, fun hidle => absurd hidle hp', hc⟩
  | raises k =>
    exact ⟨rfl, rfl, rfl, rfl, rfl, rfl, ⟨rfl, rfl, rfl, rfl⟩, rfl, fun _ _ => rfl,
      fun _ => ⟨rfl, fun _ => rfl⟩, fun hne => absurd rfl hne, by simp, rfl⟩
  | completes r _ hr =>
    rw [isResult_decode hp hr]
    exact ⟨rfl, rfl, rfl, rfl, rfl, rfl, ⟨rfl, rfl, rfl, rfl⟩, rfl,
      fun j hj => Text.read_writeString_outside _ _ _ (.inr (by omega)), by simp,
      fun hne => absurd rfl hne, by simp, rfl⟩

end Frames

section Progress

/-- SEQ's step from `s` answers a next state, or it is a step of an ENCODE loop that stops at a cell below LEN
that nothing has written. -/
def Progresses (s : State) (o : StepOutcome) : Prop :=
  (∃ t, o = .next t) ∨
  s.phase ∈ [Phase.enScan, .enAcc] ∧ ∃ i, o = .fault (.unwrittenText i) ∧ i < s.len ∧ s.txt.read i = none

variable {s : State}

theorem progresses_next (s t : State) : Progresses s (.next t) := .inl ⟨t, rfl⟩

/-- A read of a cell that exists fails only where nothing has written it (log entry 4). -/
theorem readCell_error {i : Nat} {f : Fault} (hi : upToLmax s.params i = true)
    (h : readCell s i = .error f) : f = .unwrittenText i ∧ s.txt.read i = none := by
  unfold readCell at h
  rw [if_pos hi] at h
  rcases hr : s.txt.read i with _ | b <;> simp only [hr] at h
  · exact ⟨(Except.error.inj h).symm, rfl⟩
  · exact absurd h (by simp)

theorem progresses_readCell {i : Nat} {f : Fault} (hp : s.phase ∈ [Phase.enScan, .enAcc])
    (hlen : upToLmax s.params s.len = true) (hi : i < s.len) (h : readCell s i = .error f) :
    Progresses s (.fault f) := by
  obtain ⟨rfl, hnone⟩ := readCell_error (upToLmax_mono hi.le hlen) h
  exact .inr ⟨hp, i, rfl, hi, hnone⟩

theorem encodeScan_progresses (hp : s.phase = .enScan) (hlen : upToLmax s.params s.len = true)
    (h : enScanInv s) : Progresses s (encodeScan s) := by
  obtain ⟨hl, hil, -⟩ := h
  unfold encodeScan
  split
  next => exact progresses_next _ _
  next hmore =>
  split
  next f hf => exact progresses_readCell (by simp [hp]) hlen (by omega) hf
  next => split <;> exact progresses_next _ _

theorem encodeAcc_progresses (hp : s.phase = .enAcc) (hlen : upToLmax s.params s.len = true)
    (h : enAccInv s) : Progresses s (encodeAcc s) := by
  obtain ⟨hl, hil, -⟩ := h
  unfold encodeAcc
  split
  next => split <;> exact progresses_next _ _
  next hmore =>
  split
  next f hf => exact progresses_readCell (by simp [hp]) hlen (by omega) hf
  next => exact progresses_next _ _

theorem mrTrialStep_progresses (h : mrSplit s) : Progresses s (mrTrialStep s) := by
  obtain ⟨⟨-, hn3, -⟩, -⟩ := h
  unfold mrTrialStep
  split_ifs with _ _ hn
  · exact progresses_next _ _
  · exact progresses_next _ _
  · exact progresses_next _ _
  · omega

/-- A start step always answers a next state. -/
theorem execStart_progresses (hp : s.phase = .start) (i : Instr) : Progresses s (exec i s) := by
  rw [exec_start hp]
  cases i
  · unfold powmodStart; split_ifs <;> exact progresses_next _ _
  · unfold xgcdStart; split_ifs <;> exact progresses_next _ _
  · unfold modinvStart; split_ifs <;> exact progresses_next _ _
  · unfold mrwitStart; split_ifs <;> exact progresses_next _ _
  · unfold mrtestStart; split_ifs <;> exact progresses_next _ _
  · exact progresses_next _ _
  · unfold decodeStart; split_ifs <;> exact progresses_next _ _
  · exact progresses_next _ _

theorem exec_progresses (h : phaseInv s)
    (hlen : s.phase ∈ [Phase.enScan, .enAcc] → upToLmax s.params s.len = true) (i : Instr) :
    Progresses s (exec i s) := by
  rcases hp : s.phase with _ | _ | _ | _ | _ | _ | _ | _ | _ | _ | _ | _
  case start => exact execStart_progresses hp i
  all_goals
    rw [exec_eq_commandStep]
    simp only [commandStep, hp]
    simp only [phaseInv, hp] at h
  case idle => exact progresses_next _ _
  case pmLoop => unfold powmodLoop; split_ifs <;> exact progresses_next _ _
  case xgLoop => unfold xgcdLoop; split_ifs <;> exact progresses_next _ _
  case miLoop => unfold modinvLoop; split_ifs <;> exact progresses_next _ _
  case mrDecomp => unfold mrDecompStep; split_ifs <;> exact progresses_next _ _
  case mrTrial => exact mrTrialStep_progresses h
  case mrExp => unfold mrExpStep; split_ifs <;> exact progresses_next _ _
  case mrCheck => unfold mrCheckStep; split_ifs <;> exact progresses_next _ _
  case enScan => exact encodeScan_progresses hp (hlen (by simp [hp])) h
  case enAcc => exact encodeAcc_progresses hp (hlen (by simp [hp])) h
  case deLoop => unfold decodeLoop decodeFinish; split_ifs <;> exact progresses_next _ _

theorem seqStep_progresses (h : Inv s) : Progresses s (seqStep s) := by
  rcases seqStep_cases s with ⟨i, -, hi⟩ | ⟨-, hi⟩ <;> rw [hi]
  · obtain ⟨-, -, -, -, -, -, hlen, -⟩ := h.widths
    exact exec_progresses h.phase (fun _ => hlen) i
  · exact progresses_next _ _

/-- The modulus is above 1 in the phases that reduce modulo it or draw below it (R11, R143). -/
theorem one_lt_modulus (h : phaseInv s)
    (hp : s.phase ∈ [Phase.pmLoop, .miLoop, .mrTrial, .mrExp, .mrCheck]) : 1 < s.w.n := by
  simp only [List.mem_cons, List.not_mem_nil, or_false] at hp
  rcases hp with hp | hp | hp | hp | hp <;> simp only [phaseInv, hp] at h
  · obtain ⟨hn1, -, -, -, hn, -⟩ := h
    exact hn ▸ hn1
  · obtain ⟨hlt, hpos, hn, -⟩ := h
    omega
  · obtain ⟨⟨-, hn3, -⟩, -⟩ := h
    omega
  · obtain ⟨⟨⟨-, hn3, -⟩, -⟩, -⟩ := h
    omega
  · obtain ⟨⟨⟨-, hn3, -⟩, -⟩, -⟩ := h
    omega

/-- The divisor of a remainder loop is never negative (R113, R123). -/
theorem remainder_nonneg (h : phaseInv s) (hp : s.phase ∈ [Phase.xgLoop, .miLoop]) : 0 ≤ s.w.r1 := by
  simp only [List.mem_cons, List.not_mem_nil, or_false] at hp
  rcases hp with hp | hp <;> simp only [phaseInv, hp] at h
  · obtain ⟨-, -, -, -, -, -, h1, -⟩ := h
    exact h1
  · obtain ⟨-, -, -, -, -, -, -, h1, -⟩ := h
    exact h1

/-- Settles O16: only the two ENCODE loops and the draw can stop, and the invariant of the phase leaves them
the one unwritten cell. -/
theorem seqIsNeverStuck : Obligations.SeqIsNeverStuck := by
  intro s h
  refine ⟨fun hturn => ?_, fun hturn hidle => ?_, one_lt_modulus h.phase, fun hp hne => ?_⟩
  · rw [step_of_seqNext hturn]
    exact (seqStep_progresses h.dropTurn).imp_right And.right
  · rw [step_of_seqNext hturn, seqStep_idle (by simpa using hidle)]
  · exact lt_of_le_of_ne (remainder_nonneg h.phase hp) (Ne.symm hne)

end Progress

end Sys2Proof.Machine
end

section
/-! SUPPORT. Every command ends (spec/10_state.md R34, spec/70_reset_and_hazards.md R283): a bound on the SEQ
steps that are left, which the start of a command meets and every step lowers. -/

namespace Sys2Proof.Machine

section Bitlen

/-- A value of at most half the size has fewer bits. -/
theorem bitlen_lt_of_two_mul_le {c d : Int} (hd : 0 < d) (h : 2 * c ≤ d) : bitlen c < bitlen d := by
  rcases le_or_gt c 0 with hc | hc
  · rw [bitlen_of_nonpos hc]
    exact bitlen_pos hd
  · have hlow := two_pow_le_of_bitlen hc
    have hhigh := lt_two_pow_bitlen hd.le
    have hpow : (2 : Int) ^ (bitlen c - 1 + 1) < 2 ^ bitlen d := by
      rw [pow_succ]
      omega
    have := (pow_lt_pow_iff_right₀ (by norm_num)).1 hpow
    omega

/-- A remainder is at most half of the dividend, and below the divisor. -/
theorem bitlen_remainder {r0 r1 : Int} (h1 : 0 < r1) (h : r1 < r0) :
    bitlen (r0 - r0 / r1 * r1) < bitlen r0 ∧ bitlen (r0 - r0 / r1 * r1) ≤ bitlen r1 := by
  obtain ⟨hrem0, hremlt⟩ := remainder_range (r0 := r0) h1
  have hq : 1 ≤ r0 / r1 := by rwa [Int.le_ediv_iff_mul_le h1, one_mul, Int.le_iff_lt_or_eq, or_iff_left h.ne]
  have hsum : r1 ≤ r0 / r1 * r1 := le_mul_of_one_le_left h1.le hq
  exact ⟨bitlen_lt_of_two_mul_le (h1.trans h) (by omega), bitlen_mono hremlt.le⟩

/-- The bits of n - 1 = 2^k * m are k and those of m (R146). -/
theorem add_bitlen_le {n m : Int} {k : Nat} (hm : 0 < m) (h : n - 1 = 2 ^ k * m) :
    k + bitlen m ≤ bitlen n := by
  have hlow : (2 : Int) ^ (k + (bitlen m - 1)) ≤ 2 ^ k * m := by
    rw [pow_add]
    exact mul_le_mul_of_nonneg_left (two_pow_le_of_bitlen hm) (by positivity)
  have hpos : (0 : Int) < 2 ^ k * m := by positivity
  have hhigh := lt_two_pow_bitlen (c := n) (by omega)
  have hpow : (2 : Int) ^ (k + (bitlen m - 1)) < 2 ^ bitlen n := by omega
  have := (pow_lt_pow_iff_right₀ (by norm_num)).1 hpow
  have := bitlen_pos hm
  omega

end Bitlen

section Measure

/-- The steps of the trials not yet begun: a trial takes at most bitlen(n) + 2 (R283). -/
def trialSteps (w : Working) : Nat := w.rem.toNat * (bitlen w.n + 2)

/-- The divisions left in a remainder loop, and the completion: at most two a bit of r1, and one a bit of r0
and r1 together. -/
def divisionSteps (w : Working) : Nat := min (2 * bitlen w.r1 + 1) (bitlen w.r0 + bitlen w.r1)

/-- A bound on the SEQ steps until the command ends (R283). -/
def stepsLeft (s : State) : Nat :=
  match s.phase with
  | .idle => 0
  | .start => seqBound s
  | .pmLoop => s.w.i + 1
  | .xgLoop => divisionSteps s.w
  | .miLoop => divisionSteps s.w
  | .mrDecomp => bitlen s.w.m + trialSteps s.w + 1
  | .mrTrial => trialSteps s.w + 1
  | .mrExp => s.w.i + 1 + s.w.k + trialSteps s.w + 1
  | .mrCheck => s.w.k - s.w.j + trialSteps s.w + 1
  | .enScan => s.w.l - s.w.i + s.w.l + 2
  | .enAcc => s.w.l - s.w.i + 1
  | .deLoop => bitlen s.w.v + 1

@[simp] theorem stepsLeft_complete (s : State) : stepsLeft (complete s) = 0 := rfl

@[simp] theorem stepsLeft_raise (k : ErrKind) (s : State) : stepsLeft (raise k s) = 0 := rfl

/-- A step from here lowers the bound. -/
abbrev Lowers (s : State) (o : StepOutcome) : Prop := Answers (fun t => stepsLeft t < stepsLeft s) o

variable {s : State}

/-- A start step leaves what `seqBound` counts for the loop (R283). -/
theorem execStart_lowers (hp : s.phase = .start) {i : Instr} (hd : decode s.w.cmd = some i) :
    Lowers s (exec i s) := by
  have hbound : stepsLeft s = seqBound s := by simp [stepsLeft, hp]
  rw [exec_start hp]
  unfold Lowers
  rw [hbound]
  cases i <;> simp only [seqBound, hd]
  case powmod => unfold powmodStart; split_ifs <;> simp [stepsLeft]
  case xgcd => unfold xgcdStart; split_ifs <;> simp [stepsLeft, divisionSteps]
  case modinv => unfold modinvStart; split_ifs <;> simp [stepsLeft, divisionSteps]
  case mrwit =>
    have := bitlen_mono (show s.a0 - 1 ≤ s.a0 by omega)
    unfold mrwitStart
    split_ifs <;> simp [stepsLeft, trialSteps]
    omega
  case mrtest =>
    have := bitlen_mono (show s.a0 - 1 ≤ s.a0 by omega)
    unfold mrtestStart
    split_ifs <;> simp [stepsLeft, trialSteps]
    omega
  case encode => simp [encodeStart, stepsLeft]; omega
  case decode => unfold decodeStart; split_ifs <;> simp [stepsLeft]
  case wipe => simp [wipeStart]

theorem powmodLoop_lowers (hp : s.phase = .pmLoop) : Lowers s (powmodLoop s) := by
  unfold powmodLoop
  split_ifs <;> simp [stepsLeft, hp, expStep]
  omega

/-- A division makes r0 the old r1 and r1 the remainder. -/
theorem divisionSteps_lt {u w : Working} (h1 : 0 < w.r1) (h : w.r1 < w.r0) (hu0 : u.r0 = w.r1)
    (hu1 : u.r1 = w.r0 - w.r0 / w.r1 * w.r1) : divisionSteps u < divisionSteps w := by
  obtain ⟨hlt, hle⟩ := bitlen_remainder h1 h
  unfold divisionSteps
  rw [hu0, hu1]
  omega

theorem divisionSteps_pos {w : Working} (h : 0 < w.r0) : 0 < divisionSteps w := by
  have := bitlen_pos h
  unfold divisionSteps
  omega

theorem xgcdLoop_lowers (hp : s.phase = .xgLoop) (h : xgInv s) : Lowers s (xgcdLoop s) := by
  obtain ⟨-, -, -, -, -, hlt, h1, -⟩ := h
  have hleft : stepsLeft s = divisionSteps s.w := by simp [stepsLeft, hp]
  unfold xgcdLoop
  split_ifs with hr
  · exact answers_next.2 (by simpa [hleft] using divisionSteps_pos (by omega))
  · exact answers_next.2
      (by simpa [stepsLeft, hp] using divisionSteps_lt (u := xgcdDivide s.w) (by omega) hlt rfl rfl)

theorem modinvLoop_lowers (hp : s.phase = .miLoop) (h : miInv s) : Lowers s (modinvLoop s) := by
  obtain ⟨-, -, -, -, -, -, hlt, h1, -⟩ := h
  have hleft : 0 < stepsLeft s := by
    simpa [stepsLeft, hp] using divisionSteps_pos (w := s.w) (by omega)
  unfold modinvLoop
  split_ifs with hr
  · exact answers_next.2 hleft
  · exact answers_next.2 hleft
  · exact answers_next.2
      (by simpa [stepsLeft, hp] using divisionSteps_lt (u := modinvDivide s.w) (by omega) hlt rfl rfl)

theorem mrDecompStep_lowers (hp : s.phase = .mrDecomp) (h : mrInv s) : Lowers s (mrDecompStep s) := by
  obtain ⟨-, -, -, hm, -⟩ := h
  unfold mrDecompStep
  split_ifs
  · have := bitlen_lt_of_two_mul_le (c := s.w.m / 2) hm (by omega)
    simp [stepsLeft, hp, trialSteps]
    omega
  · have := bitlen_pos hm
    simp [stepsLeft, hp]
    omega

/-- A trial that begins takes its steps out of `trialSteps`. -/
theorem stepsLeft_mrBegin (h : mrSplit s) (hrem : s.w.rem ≠ 0) (a : Int) :
    stepsLeft (mrBegin a s) < trialSteps s.w + 1 := by
  obtain ⟨⟨-, -, -, hm, hsplit, hrem0, -⟩, -⟩ := h
  have hbits := add_bitlen_le hm hsplit
  have hone : trialSteps s.w = (s.w.rem - 1).toNat * (bitlen s.w.n + 2) + (bitlen s.w.n + 2) := by
    rw [trialSteps, show s.w.rem.toNat = (s.w.rem - 1).toNat + 1 by omega, Nat.succ_mul]
  have hbegun : stepsLeft (mrBegin a s) =
      bitlen s.w.m + 1 + s.w.k + (s.w.rem - 1).toNat * (bitlen s.w.n + 2) + 1 := rfl
  omega

theorem mrTrialStep_lowers (hp : s.phase = .mrTrial) (h : mrSplit s) : Lowers s (mrTrialStep s) := by
  have hleft : stepsLeft s = trialSteps s.w + 1 := by simp [stepsLeft, hp]
  unfold mrTrialStep Lowers
  rw [hleft]
  split_ifs with hrem
  · simp
  · exact answers_next.2 (stepsLeft_mrBegin h hrem _)
  · exact answers_next.2 (stepsLeft_mrBegin (s := afterDraws 1 s) h hrem _)
  · exact answers_fault _ _

theorem mrExpStep_lowers (hp : s.phase = .mrExp) : Lowers s (mrExpStep s) := by
  unfold mrExpStep
  split_ifs
  · simp [stepsLeft, hp, trialSteps]
  · simp [stepsLeft, hp, expStep, trialSteps]
    omega

theorem mrCheckStep_lowers (hp : s.phase = .mrCheck) (h : mrCheckInv s) : Lowers s (mrCheckStep s) := by
  obtain ⟨-, -, -, hjk, -⟩ := h
  unfold mrCheckStep
  split_ifs
  · simp [stepsLeft, hp, trialSteps]
    omega
  · simp [stepsLeft, hp, trialSteps]
    omega
  · simp [stepsLeft, hp]
  · simp [stepsLeft, hp, trialSteps]
    omega

theorem encodeScan_lowers (hp : s.phase = .enScan) (h : enScanInv s) : Lowers s (encodeScan s) := by
  obtain ⟨-, hil, -⟩ := h
  unfold encodeScan
  split
  next => simp [stepsLeft, hp]
  next hmore =>
  split
  next => simp
  next =>
    split_ifs
    · simp [stepsLeft, hp]
      omega
    · simp [stepsLeft, hp]

theorem encodeAcc_lowers (hp : s.phase = .enAcc) (h : enAccInv s) : Lowers s (encodeAcc s) := by
  obtain ⟨-, hil, -⟩ := h
  unfold encodeAcc
  split
  next => split <;> simp [stepsLeft, hp]
  next hmore =>
  split
  next => simp
  next => simp [stepsLeft, hp]; omega

theorem decodeLoop_lowers (hp : s.phase = .deLoop) (h : deInv s) : Lowers s (decodeLoop s) := by
  obtain ⟨-, hv0, -⟩ := h
  unfold decodeLoop decodeFinish
  split_ifs with hv
  · simp [stepsLeft, hp]
  · simp [stepsLeft, hp]
  · simpa [stepsLeft, hp] using bitlen_div_lt (show 0 < s.w.v by omega)

/-- Every step of a running command lowers the bound. -/
theorem exec_lowers (h : phaseInv s) (hidle : s.phase ≠ .idle) {i : Instr}
    (hd : decode s.w.cmd = some i) : Lowers s (exec i s) := by
  rcases hp : s.phase with _ | _ | _ | _ | _ | _ | _ | _ | _ | _ | _ | _
  case idle => exact absurd hp hidle
  case start => exact execStart_lowers hp hd
  all_goals
    rw [exec_eq_commandStep]
    simp only [commandStep, hp]
    simp only [phaseInv, hp] at h
  case pmLoop => exact powmodLoop_lowers hp
  case xgLoop => exact xgcdLoop_lowers hp h
  case miLoop => exact modinvLoop_lowers hp h
  case mrDecomp => exact mrDecompStep_lowers hp h
  case mrTrial => exact mrTrialStep_lowers hp h
  case mrExp => exact mrExpStep_lowers hp
  case mrCheck => exact mrCheckStep_lowers hp h
  case enScan => exact encodeScan_lowers hp h
  case enAcc => exact encodeAcc_lowers hp h
  case deLoop => exact decodeLoop_lowers hp h

end Measure

section Termination

/-- A command that has ended: idle, DONE = 1, BUSY = 0. -/
def Ended (t : State) : Prop :=
  t.phase = .idle ∧ statusDone t.status = true ∧ statusBusy t.status = false

/-- Command `i` runs and nothing disturbs it; for ENCODE the cells below LEN exist and hold values (R273). -/
structure Running (i : Instr) (s : State) : Prop where
  turns : s.turns = []
  cmd : decode s.w.cmd = some i
  phase_mem : s.phase ∈ commandPhases i
  inv : phaseInv s
  readable : i = .encode →
    upToLmax s.params s.len = true ∧ ∃ str, cellString s.txt.read s.len = some str

/-- In a string of cells every cell holds a value. -/
theorem read_ne_none_of_cellString {read : Nat → Option Byte} {n : Nat} :
    ∀ {str : List Byte}, cellString read n = some str → ∀ i, i < n → read i ≠ none := by
  induction n with
  | zero => intro _ _ i hi; exact absurd hi (Nat.not_lt_zero i)
  | succ n ih =>
    intro str h i hi
    simp only [cellString] at h
    split at h
    next pre ch hpre hch =>
      rcases Nat.lt_succ_iff_lt_or_eq.1 hi with hlt | rfl
      · exact ih hpre i hlt
      · simp [hch]
    next => exact absurd h (by simp)

theorem encode_of_enPhase {i : Instr} {p : Phase} (hp : p ∈ [Phase.enScan, .enAcc])
    (hi : p ∈ commandPhases i) : i = .encode := by
  revert p
  cases i <;> decide

variable {i : Instr} {s : State}

theorem Running.exec_next (h : Running i s) : ∃ t, exec i s = .next t := by
  have hencode := fun hp => h.readable (encode_of_enPhase hp h.phase_mem)
  rcases exec_progresses h.inv (fun hp => (hencode hp).1) i with ht | ⟨hp, j, -, hj, hnone⟩
  · exact ht
  · obtain ⟨str, hstr⟩ := (hencode hp).2
    exact absurd hnone (read_ne_none_of_cellString hstr j hj)

/-- A step ends the command or leaves it running. -/
theorem PhaseStep.ended_or_running {t : State} (ht : PhaseStep i s t) (h : Running i s) (hinv : phaseInv t) :
    Ended t ∨ Running i t := by
  cases ht with
  | stays hidle => exact absurd (hidle ▸ h.phase_mem) (idle_notMem_commandPhases i)
  | goesOn p w d hp hi hc =>
    have hmem := (nextPhases_closed i s.phase h.phase_mem p hp).resolve_left hi
    exact .inr ⟨h.turns, hc ▸ h.cmd, hmem, hinv, h.readable⟩
  | raises k => exact .inl (by simp [Ended])
  | completes r => exact .inl (by simp [Ended])

/-- A running command takes a step, which lowers the bound and ends it or leaves it running. -/
theorem Running.step (h : Running i s) :
    ∃ t, step s = .next t ∧ stepsLeft t < stepsLeft s ∧ (Ended t ∨ Running i t) := by
  obtain ⟨t, ht⟩ := h.exec_next
  have hbusy : s.phase ≠ .idle := fun hidle => idle_notMem_commandPhases i (hidle ▸ h.phase_mem)
  exact ⟨t, by rw [step_of_no_turns h.turns, seqStep_eq_exec h.cmd, ht],
    exec_lowers h.inv hbusy h.cmd t ht,
    (exec_step i ht).ended_or_running h (exec_phaseInv h.inv i t ht)⟩

/-- Within the steps counted the command has ended, by induction on their number. -/
theorem Running.ends (n : Nat) : ∀ {s : State}, Running i s → stepsLeft s ≤ n →
    ∃ k t, 1 ≤ k ∧ k ≤ n ∧ runSteps k s = .next t ∧ Ended t := by
  induction n with
  | zero =>
    intro s h hn
    obtain ⟨t, -, hlt, -⟩ := h.step
    omega
  | succ n ih =>
    intro s h hn
    obtain ⟨t, ht, hlt, hended | hrunning⟩ := h.step
    · exact ⟨1, t, le_rfl, Nat.succ_le_succ (Nat.zero_le n), by rw [runSteps_succ ht, runSteps_zero], hended⟩
    · obtain ⟨k, u, -, hkn, hrun, hu⟩ := ih hrunning (by omega)
      exact ⟨k + 1, u, Nat.succ_le_succ (Nat.zero_le k), Nat.succ_le_succ hkn,
        by rw [runSteps_succ ht, hrun], hu⟩

theorem start_mem_commandPhases (i : Instr) : Phase.start ∈ commandPhases i := by
  cases i <;> decide

/-- Settles O45: a legal code by the bound of `stepsLeft`, which is `seqBound` in START; an illegal code by
its one step. -/
theorem everyCommandEnds : Obligations.EveryCommandEnds := by
  intro s ⟨hp, hturns⟩ hread
  rcases hd : decode s.w.cmd with _ | i
  · have hstep : Machine.step s = .next (raise .illegalCommand s) := by
      rw [step_of_no_turns hturns, seqStep_illegal hd hp]
    exact ⟨1, raise .illegalCommand s, le_rfl, by simp [seqBound, hd],
      by rw [runSteps_succ hstep, runSteps_zero], by simp⟩
  · have hrunning : Running i s :=
      ⟨hturns, hd, hp ▸ start_mem_commandPhases i, by simp [phaseInv, hp], fun hi => hread (hi ▸ hd)⟩
    exact hrunning.ends (seqBound s) (by simp [stepsLeft, hp])

end Termination

end Sys2Proof.Machine
end

section
/-! SUPPORT. Steps from states that agree (spec/10_state.md R32, R40, spec/70_reset_and_hazards.md R273): each
state operation keeps `Agree`, each step of SEQ reads only what `liveEq` and the host's duty cover, and a
host access and the reset event read no register. -/

namespace Sys2Proof.Machine

@[simp] theorem agreeOutcome_next {s t : State} : agreeOutcome (.next s) (.next t) ↔ Agree s t := by
  simp [agreeOutcome]

@[simp] theorem agreeOutcome_fault (f : Fault) : agreeOutcome (.fault f) (.fault f) := rfl

section Operations

variable {s t : State}

theorem Agree.raise (h : Agree s t) (k : ErrKind) : Agree (raise k s) (raise k t) :=
  { h with status := rfl, phase := rfl, live := trivial }

theorem Agree.complete (h : Agree s t) : Agree (complete s) (complete t) :=
  { h with status := rfl, phase := rfl, live := trivial }

theorem Agree.setA0 (h : Agree s t) (v : Int) : Agree (setA0 v s) (setA0 v t) :=
  { h with a0 := fun _ => rfl, written := by simp [h.written] }

theorem Agree.setA1 (h : Agree s t) (v : Int) : Agree (setA1 v s) (setA1 v t) :=
  { h with a1 := fun _ => rfl, written := by simp [h.written] }

theorem Agree.setA2 (h : Agree s t) (v : Int) : Agree (setA2 v s) (setA2 v t) :=
  { h with a2 := fun _ => rfl, written := by simp [h.written] }

theorem Agree.setR0 (h : Agree s t) {u v : Int} (huv : u = v) : Agree (setR0 u s) (setR0 v t) :=
  { h with r0 := fun _ => huv, written := by simp [h.written] }

theorem Agree.setR1 (h : Agree s t) {u v : Int} (huv : u = v) : Agree (setR1 u s) (setR1 v t) :=
  { h with r1 := fun _ => huv, written := by simp [h.written] }

theorem Agree.setR2 (h : Agree s t) {u v : Int} (huv : u = v) : Agree (setR2 u s) (setR2 v t) :=
  { h with r2 := fun _ => huv, written := by simp [h.written] }

theorem Agree.setLen (h : Agree s t) {m n : Nat} (hmn : m = n) : Agree (setLen m s) (setLen n t) :=
  { h with len := hmn }

theorem Agree.setTxt (h : Agree s t) {x y : Text} (hxy : x = y) : Agree (setTxt x s) (setTxt y t) :=
  { h with txt := hxy }

theorem Agree.startCommand (h : Agree s t) (k : Byte) : Agree (startCommand k s) (startCommand k t) :=
  { h with status := rfl, phase := rfl, live := rfl }

theorem Agree.dropTurn (h : Agree s t) : Agree (dropTurn s) (dropTurn t) :=
  { h with turns := by simp [h.turns] }

theorem Agree.afterDraws (h : Agree s t) (k : Nat) : Agree (afterDraws k s) (afterDraws k t) :=
  { h with draws := by simp [h.draws], drawCount := by simp [h.drawCount] }

/-- Working registers that the next phase reads are set alike. -/
theorem Agree.enters (h : Agree s t) (p : Phase) {u v : Working} (huv : liveEq p u v) :
    Agree (setPhase p (setW u s)) (setPhase p (setW v t)) :=
  { h with phase := rfl, live := huv }

theorem Agree.loops (h : Agree s t) {p : Phase} (hp : s.phase = p) {u v : Working} (huv : liveEq p u v) :
    Agree (setW u s) (setW v t) := by
  subst hp; exact { h with live := huv }

theorem Agree.changesPhase (h : Agree s t) (p : Phase) (hl : liveEq p s.w t.w) :
    Agree (setPhase p s) (setPhase p t) :=
  { h with phase := rfl, live := hl }

/-- WIPE writes every register. -/
theorem Agree.wipe (h : Agree s t) :
    Agree (Machine.complete (wiped s)) (Machine.complete (wiped t)) :=
  { h with len := rfl, txt := rfl, status := rfl, phase := rfl, written := rfl, live := trivial,
           a0 := fun _ => rfl, a1 := fun _ => rfl, a2 := fun _ => rfl,
           r0 := fun _ => rfl, r1 := fun _ => rfl, r2 := fun _ => rfl }

/-- The reset event leaves nothing of the block as it was. -/
theorem Agree.resetEvent (h : Agree s t) : Agree (resetEvent s) (resetEvent t) :=
  { h with len := rfl, txt := rfl, status := rfl, phase := rfl, written := rfl, live := trivial,
           a0 := fun _ => rfl, a1 := fun _ => rfl, a2 := fun _ => rfl,
           r0 := fun _ => rfl, r1 := fun _ => rfl, r2 := fun _ => rfl }

theorem Agree.answer (h : Agree s t) (k : Nat) : answer s k = answer t k := by
  simp [Machine.answer, h.draws, h.drawCount]

theorem Agree.readCell (h : Agree s t) (i : Nat) : readCell s i = readCell t i := by
  simp [Machine.readCell, h.params, h.txt]

end Operations

section Starts

variable {s t : State} (h : Agree s t)
include h

theorem Agree.powmodStart (ho : owed .powmod s.written) :
    agreeOutcome (powmodStart s) (powmodStart t) := by
  obtain ⟨h0, h1, h2⟩ := ho
  unfold Machine.powmodStart
  rw [← h.a0 h0, ← h.a1 h1, ← h.a2 h2]
  split_ifs
  · exact agreeOutcome_next.2 (h.raise _)
  · exact agreeOutcome_next.2 (h.raise _)
  · exact agreeOutcome_next.2 (h.enters _ ⟨rfl, rfl, rfl, rfl, rfl⟩)

theorem Agree.xgcdStart (ho : owed .xgcd s.written) : agreeOutcome (xgcdStart s) (xgcdStart t) := by
  obtain ⟨h0, h1⟩ := ho
  unfold Machine.xgcdStart
  rw [← h.a0 h0, ← h.a1 h1]
  split_ifs
  · exact agreeOutcome_next.2 (h.enters _ ⟨rfl, rfl, rfl, rfl, rfl, rfl⟩)
  · exact agreeOutcome_next.2 (h.raise _)

theorem Agree.modinvStart (ho : owed .modinv s.written) :
    agreeOutcome (modinvStart s) (modinvStart t) := by
  obtain ⟨h0, h1⟩ := ho
  unfold Machine.modinvStart
  rw [← h.a0 h0, ← h.a1 h1]
  split_ifs
  · exact agreeOutcome_next.2 (h.enters _ ⟨rfl, rfl, rfl, rfl, rfl⟩)
  · exact agreeOutcome_next.2 (h.raise _)

theorem Agree.mrwitStart (ho : owed .mrwit s.written) : agreeOutcome (mrwitStart s) (mrwitStart t) := by
  obtain ⟨h0, h1⟩ := ho
  unfold Machine.mrwitStart
  rw [← h.a0 h0, ← h.a1 h1]
  split_ifs
  · exact agreeOutcome_next.2 (h.setR0 rfl).complete
  · exact agreeOutcome_next.2 (h.setR0 rfl).complete
  · exact agreeOutcome_next.2 (h.enters _ ⟨rfl, rfl, rfl, rfl, rfl, fun _ => rfl⟩)
  · exact agreeOutcome_next.2 (h.raise _)

/-- The base is drawn later, so w.a need not agree (R145). -/
theorem Agree.mrtestStart (ho : owed .mrtest s.written) :
    agreeOutcome (mrtestStart s) (mrtestStart t) := by
  obtain ⟨h0, h1⟩ := ho
  unfold Machine.mrtestStart
  rw [← h.a0 h0, ← h.a1 h1]
  split_ifs
  · exact agreeOutcome_next.2 (h.raise _)
  · exact agreeOutcome_next.2 (h.setR0 rfl).complete
  · exact agreeOutcome_next.2 (h.setR0 rfl).complete
  · exact agreeOutcome_next.2 (h.enters _ ⟨rfl, rfl, rfl, rfl, rfl, fun hb => absurd hb Bool.false_ne_true⟩)

theorem Agree.encodeStart : agreeOutcome (encodeStart s) (encodeStart t) :=
  agreeOutcome_next.2 (h.enters _ ⟨h.len, rfl⟩)

theorem Agree.decodeStart (ho : owed .decode s.written) :
    agreeOutcome (decodeStart s) (decodeStart t) := by
  unfold Machine.decodeStart
  rw [← h.a0 ho]
  split_ifs
  · exact agreeOutcome_next.2 (h.raise _)
  · exact agreeOutcome_next.2 (h.enters _ ⟨rfl, rfl⟩)

theorem Agree.execStart (hp : s.phase = .start) {i : Instr} (ho : owed i s.written) :
    agreeOutcome (exec i s) (exec i t) := by
  rw [exec_start hp, exec_start (h.phase ▸ hp)]
  cases i
  · exact h.powmodStart ho
  · exact h.xgcdStart ho
  · exact h.modinvStart ho
  · exact h.mrwitStart ho
  · exact h.mrtestStart ho
  · exact h.encodeStart
  · exact h.decodeStart ho
  · exact agreeOutcome_next.2 h.wipe

end Starts

section Loops

variable {s t : State} (h : Agree s t)
include h

theorem Agree.powmodLoop (hp : s.phase = .pmLoop) (hl : liveEq .pmLoop s.w t.w) :
    agreeOutcome (powmodLoop s) (powmodLoop t) := by
  obtain ⟨hx, hc, hn, hz, hi⟩ := hl
  unfold Machine.powmodLoop
  rw [← hi]
  split_ifs
  · exact agreeOutcome_next.2 (h.setR0 hz).complete
  · exact agreeOutcome_next.2 (h.loops hp (by simp [liveEq, expStep, hx, hc, hn, hz, hi]))

theorem Agree.xgcdLoop (hp : s.phase = .xgLoop) (hl : liveEq .xgLoop s.w t.w) :
    agreeOutcome (xgcdLoop s) (xgcdLoop t) := by
  obtain ⟨hr0, hr1, hs0, hs1, ht0, ht1⟩ := hl
  unfold Machine.xgcdLoop
  rw [← hr1]
  split_ifs
  · exact agreeOutcome_next.2 (((h.setR0 hr0).setR1 hs0).setR2 ht0).complete
  · exact agreeOutcome_next.2 (h.loops hp (by simp [liveEq, xgcdDivide, hr0, hr1, hs0, hs1, ht0, ht1]))

theorem Agree.modinvLoop (hp : s.phase = .miLoop) (hl : liveEq .miLoop s.w t.w) :
    agreeOutcome (modinvLoop s) (modinvLoop t) := by
  obtain ⟨hn, hr0, hr1, ht0, ht1⟩ := hl
  unfold Machine.modinvLoop
  rw [← hr1, ← hr0]
  split_ifs
  · exact agreeOutcome_next.2 (h.raise _)
  · exact agreeOutcome_next.2 (h.setR0 (by rw [ht0, hn])).complete
  · exact agreeOutcome_next.2 (h.loops hp (by simp [liveEq, modinvDivide, hn, hr0, hr1, ht0, ht1]))

theorem Agree.mrDecompStep (hp : s.phase = .mrDecomp) (hl : mrLive s.w t.w) :
    agreeOutcome (mrDecompStep s) (mrDecompStep t) := by
  have ⟨hn, hm, hk, hrem, hb, ha⟩ := hl
  unfold Machine.mrDecompStep
  rw [← hm]
  split_ifs
  · exact agreeOutcome_next.2 (h.loops hp ⟨hn, rfl, congrArg (· + 1) hk, hrem, hb, ha⟩)
  · exact agreeOutcome_next.2 (h.changesPhase _ hl)

theorem Agree.mrBegin (hl : mrLive s.w t.w) (a : Int) : Agree (mrBegin a s) (mrBegin a t) := by
  obtain ⟨hn, hm, hk, hrem, hb, -⟩ := hl
  exact h.enters .mrExp
    ⟨⟨hn, hm, hk, congrArg (· - 1) hrem, hb, fun _ => rfl⟩, rfl, hm, rfl, congrArg bitlen hm⟩

theorem Agree.mrTrialStep (hl : mrLive s.w t.w) : agreeOutcome (mrTrialStep s) (mrTrialStep t) := by
  have ⟨hn, _, _, hrem, hb, ha⟩ := hl
  unfold Machine.mrTrialStep
  rw [← hrem, ← hb, ← hn, ← h.answer 0]
  split_ifs with _ hbase
  · exact agreeOutcome_next.2 (h.setR0 rfl).complete
  · rw [← ha hbase]
    exact agreeOutcome_next.2 (h.mrBegin hl _)
  · exact agreeOutcome_next.2 ((h.afterDraws 1).mrBegin hl _)
  · exact agreeOutcome_fault _

theorem Agree.mrExpStep (hp : s.phase = .mrExp) (hl : liveEq .mrExp s.w t.w) :
    agreeOutcome (mrExpStep s) (mrExpStep t) := by
  obtain ⟨hmr, hx, hc, hz, hi⟩ := hl
  unfold Machine.mrExpStep
  rw [← hi]
  split_ifs
  · exact agreeOutcome_next.2 (h.enters _ ⟨hmr, hz, rfl⟩)
  · refine agreeOutcome_next.2 (h.loops hp ⟨hmr, hx, hc, ?_⟩)
    simp [expStep, hx, hc, hmr.1, hz, hi]

theorem Agree.mrCheckStep (hp : s.phase = .mrCheck) (hl : liveEq .mrCheck s.w t.w) :
    agreeOutcome (mrCheckStep s) (mrCheckStep t) := by
  obtain ⟨hmr, hb, hj⟩ := hl
  have ⟨hn, _, hk, _⟩ := hmr
  unfold Machine.mrCheckStep
  rw [← hj, ← hb, ← hn, ← hk]
  split_ifs
  · exact agreeOutcome_next.2 (h.changesPhase _ hmr)
  · exact agreeOutcome_next.2 (h.changesPhase _ hmr)
  · exact agreeOutcome_next.2 (h.setR0 rfl).complete
  · exact agreeOutcome_next.2 (h.loops hp ⟨hmr, rfl, rfl⟩)

theorem Agree.encodeScan (hp : s.phase = .enScan) (hl : liveEq .enScan s.w t.w) :
    agreeOutcome (encodeScan s) (encodeScan t) := by
  obtain ⟨hl, hi⟩ := hl
  unfold Machine.encodeScan
  rw [← hi, ← hl, ← h.readCell]
  split
  next => exact agreeOutcome_next.2 (h.enters _ ⟨hl, rfl, rfl⟩)
  rcases Machine.readCell s s.w.i with f | ch
  · exact agreeOutcome_fault f
  · simp only
    split_ifs
    · exact agreeOutcome_next.2 (h.loops hp ⟨hl, rfl⟩)
    · exact agreeOutcome_next.2 (h.raise _)

theorem Agree.encodeAcc (hp : s.phase = .enAcc) (hl : liveEq .enAcc s.w t.w) :
    agreeOutcome (encodeAcc s) (encodeAcc t) := by
  obtain ⟨hl, hi, hv⟩ := hl
  unfold Machine.encodeAcc
  rw [← hi, ← hl, ← hv, ← h.readCell, ← h.params]
  split_ifs
  · exact agreeOutcome_next.2 (h.setR0 rfl).complete
  · exact agreeOutcome_next.2 (h.raise _)
  rcases Machine.readCell s s.w.i with f | ch
  · exact agreeOutcome_fault f
  · exact agreeOutcome_next.2 (h.loops hp ⟨hl, rfl, rfl⟩)

theorem Agree.decodeLoop (hp : s.phase = .deLoop) (hl : liveEq .deLoop s.w t.w) :
    agreeOutcome (decodeLoop s) (decodeLoop t) := by
  obtain ⟨hv, hs⟩ := hl
  unfold Machine.decodeLoop decodeFinish
  rw [← hv, ← hs, ← h.params, ← h.txt]
  split_ifs
  · exact agreeOutcome_next.2 ((h.setTxt rfl).setLen rfl).complete
  · exact agreeOutcome_next.2 (h.raise _)
  · exact agreeOutcome_next.2 (h.loops hp ⟨rfl, rfl⟩)

/-- Outside START a command reads live working registers only. -/
theorem Agree.execLoop (hp : s.phase ≠ .start) (i j : Instr) : agreeOutcome (exec i s) (exec j t) := by
  have hpt : t.phase ≠ .start := h.phase ▸ hp
  rw [exec_eq_loop hp i (exec i), exec_eq_loop hpt j (exec i)]
  have hl := h.live
  unfold commandStep
  rw [← h.phase]
  rcases hph : s.phase with _ | _ | _ | _ | _ | _ | _ | _ | _ | _ | _ | _ <;>
    simp only [hph] at hl ⊢
  case idle => exact agreeOutcome_next.2 h
  case start => exact absurd hph hp
  case pmLoop => exact h.powmodLoop hph hl
  case xgLoop => exact h.xgcdLoop hph hl
  case miLoop => exact h.modinvLoop hph hl
  case mrDecomp => exact h.mrDecompStep hph hl
  case mrTrial => exact h.mrTrialStep hl
  case mrExp => exact h.mrExpStep hph hl
  case mrCheck => exact h.mrCheckStep hph hl
  case enScan => exact h.encodeScan hph hl
  case enAcc => exact h.encodeAcc hph hl
  case deLoop => exact h.decodeLoop hph hl

end Loops

section Agents

variable {s t : State} (h : Agree s t)
include h

theorem Agree.seqStep (hd : dutyMet s) : agreeOutcome (seqStep s) (seqStep t) := by
  by_cases hp : s.phase = .start
  · have hpt : t.phase = .start := h.phase ▸ hp
    have hcmd : s.w.cmd = t.w.cmd := by simpa only [hp, liveEq] using h.live
    rcases hi : decode s.w.cmd with _ | i
    · rw [seqStep_illegal hi hp, seqStep_illegal (hcmd ▸ hi) hpt]
      exact agreeOutcome_next.2 (h.raise _)
    · rw [seqStep_eq_exec hi, seqStep_eq_exec (hcmd ▸ hi)]
      exact h.execStart hp (hd hp i hi)
  · rcases seqStep_cases s with ⟨i, -, hi⟩ | ⟨hps, -⟩
    · rcases seqStep_cases t with ⟨j, -, hj⟩ | ⟨hpt, -⟩
      · rw [hi, hj]
        exact h.execLoop hp i j
      · exact absurd (h.phase.trans hpt) hp
    · exact absurd hps hp

theorem Agree.hostWriteIdle (r : RegNum) (v : Int) :
    Agree (hostWriteIdle s r v) (hostWriteIdle t r v) := by
  unfold Machine.hostWriteIdle
  split
  · exact h.setA0 v
  · exact h.setA1 v
  · exact h.setA2 v
  · exact h.startCommand _
  · exact h.setLen (by rw [h.params])
  · exact h

theorem Agree.hostStep (op : HostOp) : agreeOutcome (hostStep op s) (hostStep op t) := by
  have hbusy : isBusy s = isBusy t := by rw [isBusy, isBusy, h.status]
  cases op with
  | readReg r => exact agreeOutcome_next.2 h
  | readTxt i =>
    simp only [Machine.hostStep, ← h.params]
    split_ifs
    · exact agreeOutcome_next.2 h
    · exact agreeOutcome_fault _
  | writeReg r v =>
    simp only [Machine.hostStep, hostWrite, ← h.params, ← hbusy]
    split_ifs
    · exact agreeOutcome_next.2 h
    · exact agreeOutcome_next.2 (h.hostWriteIdle r v)
    · rfl
  | writeTxt i v =>
    simp only [Machine.hostStep, hostWriteTxt, ← h.params, ← hbusy]
    split_ifs
    · exact agreeOutcome_next.2 h
    · exact agreeOutcome_next.2 (h.setTxt (by rw [h.txt]))
    · exact agreeOutcome_fault _

theorem Agree.step (hd : dutyMet s) : agreeOutcome (step s) (step t) := by
  have hdrop := h.dropTurn
  unfold Machine.step
  rw [← h.turns]
  split
  · exact h.seqStep hd
  · exact hdrop.seqStep hd
  · exact hdrop.hostStep _
  · exact agreeOutcome_next.2 hdrop.resetEvent

end Agents

/-- Settles O46: a simulation of each agent's step, register by register that the step reads. -/
theorem unwrittenValuesDoNotMatter : Obligations.UnwrittenValuesDoNotMatter :=
  fun _ _ h hd => h.step hd

/-- Settles O47: no register counts as written and nothing is live in IDLE. -/
theorem resetAgreesWithAnyUnwrittenValues : Obligations.ResetAgreesWithAnyUnwrittenValues := by
  intro p t ht
  refine ⟨?_, fun hstart => absurd (show Phase.idle = .start from hstart) (by decide)⟩
  rw [ht]
  exact { params := rfl, len := rfl, txt := rfl, status := rfl, phase := rfl, written := rfl, turns := rfl,
          draws := rfl, drawCount := rfl, live := trivial,
          a0 := fun hw => absurd hw Bool.false_ne_true, a1 := fun hw => absurd hw Bool.false_ne_true,
          a2 := fun hw => absurd hw Bool.false_ne_true, r0 := fun hw => absurd hw Bool.false_ne_true,
          r1 := fun hw => absurd hw Bool.false_ne_true, r2 := fun hw => absurd hw Bool.false_ne_true }

end Sys2Proof.Machine
end

section
/-! SUPPORT. The host's accesses of registers and TXT cells (spec/20_memory.md R51 to R56). -/

namespace Sys2Proof.Machine

section HostAccess

variable {s : State} {rest : List Turn}

theorem dropTurn_of_turns {turn : Turn} (ht : s.turns = turn :: rest) :
    dropTurn s = { s with turns := rest } := by
  simp [dropTurn, ht]

/-- On the host's turn the machine's step is the access, with the turn taken (R62). -/
theorem step_host {op : HostOp} (ht : s.turns = .host op :: rest) :
    step s = hostStep op { s with turns := rest } := by
  simp [step, ht, dropTurn_of_turns ht]

theorem hostStep_writeReg_busy {r : RegNum} {v : Int} (hb : statusBusy s.status = true)
    (hv : HostOp.valueOk s.params r v = true) : hostStep (.writeReg r v) s = .next s := by
  simp [hostStep, hv, hostWrite, isBusy, hb]

theorem hostStep_writeReg_unfit {r : RegNum} {v : Int} (hv : HostOp.valueOk s.params r v = false) :
    hostStep (.writeReg r v) s = .refused (.hostValueUnfit r v) := by
  simp [hostStep, hv]

theorem hostStep_writeTxt_busy {i : Nat} (v : Int) (hb : statusBusy s.status = true)
    (hi : upToLmax s.params i = true) : hostStep (.writeTxt i v) s = .next s := by
  simp [hostStep, hi, hostWriteTxt, isBusy, hb]

theorem hostStep_writeTxt_idle {i : Nat} (v : Int) (hb : statusBusy s.status = false)
    (hi : upToLmax s.params i = true) :
    hostStep (.writeTxt i v) s = .next (setTxt (s.txt.write i (BitVec.ofInt 8 v)) s) := by
  simp [hostStep, hi, hostWriteTxt, isBusy, hb]

theorem hostStep_writeTxt_noCell {i : Nat} (v : Int) (hi : upToLmax s.params i = false) :
    hostStep (.writeTxt i v) s = .fault (.noSuchCell i) := by
  simp [hostStep, hi]

theorem hostStep_readTxt {i : Nat} (hi : upToLmax s.params i = true) :
    hostStep (.readTxt i) s = .next s := by
  simp [hostStep, hi]

theorem hostStep_readTxt_noCell {i : Nat} (hi : upToLmax s.params i = false) :
    hostStep (.readTxt i) s = .fault (.noSuchCell i) := by
  simp [hostStep, hi]

/-- A write of a result register, of STATUS or of a reserved number does nothing (R52, R54). -/
theorem hostWriteIdle_other {r : RegNum} (v : Int)
    (hr : r ∉ [0x0#4, 0x1#4, 0x2#4, 0x8#4, 0xA#4]) : hostWriteIdle s r v = s := by
  unfold hostWriteIdle
  split
  case h_6 => rfl
  all_goals exact absurd hr (by decide)

/-- CMD and the reserved numbers read 0 (R53). -/
theorem hostRead_other {r : RegNum}
    (hr : r ∉ [0x0#4, 0x1#4, 0x2#4, 0x4#4, 0x5#4, 0x6#4, 0x9#4, 0xA#4]) : hostRead s r = 0 := by
  unfold hostRead
  split
  case h_9 => rfl
  all_goals exact absurd hr (by decide)

end HostAccess

/-- Settles O10: while idle the write is `Text.write`, which keeps the canonical form. -/
theorem hostTextAccess : Obligations.HostTextAccess := by
  intro s i v rest hwf
  refine ⟨fun hi ht => ?_, fun hi hb ht => ?_, fun hi => ⟨fun ht => ?_, fun ht => ?_⟩⟩ <;> rw [step_host ht]
  · exact hostStep_readTxt hi
  · exact ⟨s.txt.write i (BitVec.ofInt 8 v), hostStep_writeTxt_idle v hb hi, Text.wf_write hwf i _,
      Text.read_write_same hwf i _, fun j hj => Text.read_write_other _ hj _⟩
  · exact hostStep_readTxt_noCell hi
  · exact hostStep_writeTxt_noCell v hi

/-- Settles O7: the idle write register by register, after the test of the value. -/
theorem hostRegisterWriteWhileIdle : Obligations.HostRegisterWriteWhileIdle := by
  intro s r v rest hb ht
  refine ⟨fun hv => ?_, fun hv => ?_⟩
  · rw [step_host ht]
    exact hostStep_writeReg_unfit hv
  · rw [step_writeReg_idle hb hv ht, dropTurn_of_turns ht]
    refine ⟨?_, ?_, ?_, ?_, fun hr => by rw [hostWriteIdle_other v hr]⟩ <;> rintro rfl <;> rfl

/-- Settles O8: both accesses are dropped once BUSY is seen (R55). -/
theorem hostWriteWhileBusyIsDropped : Obligations.HostWriteWhileBusyIsDropped := by
  intro s rest hb
  refine ⟨fun r v hv ht => ?_, fun i v hi ht => ?_⟩ <;> rw [step_host ht]
  · exact hostStep_writeReg_busy hb hv
  · exact hostStep_writeTxt_busy v hb hi

/-- Settles O9: the map by the value of `hostRead` at each number; the access itself leaves the state. -/
theorem hostReadsTheRegisterMap : Obligations.HostReadsTheRegisterMap := fun _ =>
  ⟨rfl, rfl, rfl, rfl, rfl, rfl, rfl, rfl, fun _ => hostRead_other, fun _ _ => step_host⟩

end Sys2Proof.Machine
end

section
/-! SUPPORT. The opcode map and the dispatch of a command by its code (spec/30_encoding.md R70 to R74). -/

namespace Sys2Proof.Machine

section Codes

/-- The laws of every command's code (R70 to R73). -/
theorem roundTrip : ∀ i : Instr, Laws.RoundTrip.Statement i
  | .powmod => Laws.RoundTrip.powmod
  | .xgcd => Laws.RoundTrip.xgcd
  | .modinv => Laws.RoundTrip.modinv
  | .mrwit => Laws.RoundTrip.mrwit
  | .mrtest => Laws.RoundTrip.mrtest
  | .encode => Laws.RoundTrip.encode
  | .decode => Laws.RoundTrip.decode
  | .wipe => Laws.RoundTrip.wipe

@[simp] theorem decode_encode (i : Instr) : decode (encode i) = some i :=
  have ⟨_, h, _⟩ := roundTrip i
  h

theorem decodeTableWord_encode (i : Instr) : decodeTableWord 8 (encode i).toNat = some i :=
  have ⟨_, _, h, _⟩ := roundTrip i
  h

/-- The codes of the map are 0x01 to 0x08 (R72). -/
theorem encode_range (i : Instr) : 1 ≤ (encode i).toNat ∧ (encode i).toNat ≤ 8 :=
  have ⟨_, _, _, h⟩ := roundTrip i
  h

/-- The decoder matches all 8 bits, so a command has one code (R73). -/
theorem eq_encode_of_decode {k : Byte} {i : Instr} (h : decode k = some i) : k = encode i := by
  unfold decode at h
  split at h <;> cases h <;> rfl

/-- A code beside the map names no command (R74). -/
theorem decode_illegal {k : Byte} (h : k = 0x00#8 ∨ 9 ≤ k.toNat) : decode k = none := by
  rcases hd : decode k with _ | i
  · rfl
  · obtain ⟨hlow, hhigh⟩ := encode_range i
    rw [← eq_encode_of_decode hd] at hlow hhigh
    rcases h with rfl | h
    · exact absurd hlow (by decide)
    · omega

/-- Settles O1: each code is one line of the decoder's table. -/
theorem commandCodesDecode : Obligations.CommandCodesDecode :=
  ⟨decode_encode .powmod, decode_encode .xgcd, decode_encode .modinv, decode_encode .mrwit,
    decode_encode .mrtest, decode_encode .encode, decode_encode .decode, decode_encode .wipe,
    decode_illegal (by decide), decode_illegal (by decide), decode_illegal (by decide),
    decode_illegal (by decide)⟩

/-- Settles O2: the round trip of each code, and the decoder's table read backward. -/
theorem decodeEncodeAgree : Obligations.DecodeEncodeAgree :=
  ⟨fun i _ => decode_encode i, fun _ i => ⟨eq_encode_of_decode, fun h => h ▸ decode_encode i⟩,
    decodeTableWord_encode⟩

end Codes

section Dispatch

variable {s : State}

/-- SEQ's turn is a step of the latched command (R34, R73). -/
theorem step_of_decode {i : Instr} (hturn : seqNext s) (hd : decode s.w.cmd = some i) :
    step s = exec i (dropTurn s) :=
  (step_of_seqNext hturn).trans (seqStep_eq_exec hd)

/-- SEQ's turn in START on a code beside the map (R74). -/
theorem step_illegal (hturn : seqNext s) (hp : s.phase = .start)
    (hcmd : s.w.cmd = 0x00#8 ∨ 9 ≤ s.w.cmd.toNat) :
    step s = .next (raise .illegalCommand (dropTurn s)) :=
  (step_of_seqNext hturn).trans (seqStep_illegal (decode_illegal hcmd) hp)

/-- Settles O3: `seqStep` runs the command the decoder names; the word placed is the command's own code. -/
theorem stepRunsTheDecodedCommand : Obligations.StepRunsTheDecodedCommand :=
  ⟨fun _ _ => step_of_decode, fun _ i => step_of_decode (.inl rfl) (decodeTableWord_encode i)⟩

/-- No step returns to START: only a CMD write enters it (R35, R203). -/
theorem start_notMem_nextPhases (i : Instr) (p : Phase) : Phase.start ∉ nextPhases i p := by
  cases p <;> cases i <;> decide

theorem seqStep_leaves_start {t : State} (h : seqStep s = .next t) : t.phase ≠ .start := by
  rcases seqStep_cases s with ⟨i, -, hi⟩ | ⟨-, hi⟩ <;> rw [hi] at h
  · exact fun hp => start_notMem_nextPhases i s.phase (hp ▸ (exec_step i h).phase_mem)
  · cases h
    simp

/-- Settles O4: the code decodes to its command, whose step in START is its start step. -/
theorem startDispatchesOnTheCode : Obligations.StartDispatchesOnTheCode := by
  intro s hturn hp
  have hrun : ∀ i, s.w.cmd = encode i → step s = exec i (dropTurn s) := fun i hcmd =>
    step_of_decode hturn (hcmd ▸ decode_encode i)
  have hdrop : (dropTurn s).phase = .start := hp
  exact ⟨fun h => (hrun .powmod h).trans (exec_start hdrop .powmod),
    fun h => (hrun .xgcd h).trans (exec_start hdrop .xgcd),
    fun h => (hrun .modinv h).trans (exec_start hdrop .modinv),
    fun h => (hrun .mrwit h).trans (exec_start hdrop .mrwit),
    fun h => (hrun .mrtest h).trans (exec_start hdrop .mrtest),
    fun h => (hrun .encode h).trans (exec_start hdrop .encode),
    fun h => (hrun .decode h).trans (exec_start hdrop .decode),
    fun h => (hrun .wipe h).trans (exec_start hdrop .wipe),
    step_illegal hturn hp,
    fun t ht => seqStep_leaves_start (step_of_seqNext hturn ▸ ht)⟩

/-- Settles O5: an illegal code is the error completion with kind 5, whose frame is `raise`'s. -/
theorem illegalCodeRaisesIllegalCommand : Obligations.IllegalCodeRaisesIllegalCommand :=
  fun _ => step_illegal

end Dispatch

end Sys2Proof.Machine
end

section
/-! SUPPORT. The string that the cells below LEN hold, and how the host reads and writes it
(spec/10_state.md R29, spec/30_encoding.md R76). -/

namespace Sys2Proof.Machine

section Cells

/-- The string of the first n cells, cell by cell. -/
theorem cellString_eq_some_iff {read : Nat → Option Byte} {n : Nat} :
    ∀ {str : List Byte}, cellString read n = some str ↔ str.length = n ∧ ∀ j, j < n → read j = str[j]? := by
  induction n with
  | zero => simp [cellString, eq_comm (a := ([] : List Byte))]
  | succ n ih =>
    intro str
    constructor
    · intro h
      simp only [cellString] at h
      split at h
      next pre ch hpre hch =>
        obtain ⟨hlen, hread⟩ := ih.1 hpre
        cases h
        refine ⟨by simp [hlen], fun j hj => ?_⟩
        rcases Nat.lt_succ_iff_lt_or_eq.1 hj with hlt | rfl
        · rw [hread j hlt, List.getElem?_append_left (hlen ▸ hlt)]
        · rw [hch, ← hlen, List.getElem?_concat_length]
      next => exact absurd h (by simp)
    · rintro ⟨hlen, hread⟩
      have hn : n < str.length := by omega
      have hpre : cellString read n = some (str.take n) :=
        ih.2 ⟨by simp; omega, fun j hj => by rw [hread j (by omega), List.getElem?_take_of_lt hj]⟩
      rw [cellString_succ hpre ((hread n (by omega)).trans (List.getElem?_eq_getElem hn)),
        List.take_concat_get' _ _ hn, ← hlen, List.take_length]

/-- A string just written from cell 0 is read back (R182). -/
theorem cellString_writeString {t : Text} (h : t.wf = true) (str : List Byte) :
    cellString (t.writeString 0 str).read str.length = some str := by
  refine cellString_eq_some_iff.2 ⟨rfl, fun j hj => ?_⟩
  rw [List.getElem?_eq_getElem hj, ← Text.read_writeString_inside str h 0 hj, Nat.zero_add]

end Cells

section RdText

/-- `rdtxt` from cell `i` on, while the cells hold the string (R76). -/
theorem rdCells_eq_value (s : State) : ∀ (str : List Byte) (i : Nat),
    upToLmax s.params (i + str.length) = true →
    (∀ j, j < str.length → s.txt.read (i + j) = str[j]?) →
    rdCells i str.length { s with turns := [] } = .value str { s with turns := [] }
  | [], _, _, _ => rfl
  | ch :: rest, i, hcell, hread => by
    simp only [List.length_cons] at hcell hread ⊢
    have hrest : rdCells (i + 1) rest.length { s with turns := [] } =
        .value rest { s with turns := [] } := by
      refine rdCells_eq_value s rest (i + 1) (upToLmax_mono (by omega) hcell) fun j hj => ?_
      rw [Nat.add_right_comm]
      exact hread (j + 1) (Nat.succ_lt_succ hj)
    refine (rdCells_succ (s := { s with turns := [] }) (upToLmax_mono (Nat.le_add_right i _) hcell)
      (hread 0 (Nat.succ_pos _)) _).trans ?_
    rw [hrest, andThen_value]

/-- `rdtxt` stops at the first cell that holds no value (log entry 14). -/
theorem rdCells_stops (s : State) (d : Nat) : ∀ (i n : Nat), d < n →
    upToLmax s.params (i + d) = true → (∀ j, j < d → s.txt.read (i + j) ≠ none) →
    s.txt.read (i + d) = none →
    rdCells i n { s with turns := [] } = .stopped (.fault (.unwrittenText (i + d))) := by
  induction d with
  | zero =>
    intro i n hn hcell _ hnone
    obtain ⟨n, rfl⟩ := Nat.exists_eq_succ_of_ne_zero hn.ne'
    exact rdCells_unwritten hcell hnone n
  | succ d ih =>
    intro i n hn hcell hsome hnone
    obtain ⟨n, rfl⟩ := Nat.exists_eq_succ_of_ne_zero (Nat.ne_zero_of_lt hn)
    obtain ⟨ch, hch⟩ := Option.ne_none_iff_exists'.1 (hsome 0 (Nat.succ_pos d))
    rw [show i + (d + 1) = i + 1 + d by omega] at hcell hnone ⊢
    have hrest := ih (i + 1) n (Nat.lt_of_succ_lt_succ hn) hcell
      (fun j hj => by rw [Nat.add_right_comm]; exact hsome (j + 1) (Nat.succ_lt_succ hj)) hnone
    refine (rdCells_succ (s := { s with turns := [] }) (upToLmax_mono (by omega) hcell) hch _).trans ?_
    rw [hrest, andThen_stopped]

/-- `rdtxt` reads LEN, then the cells below it (R76). -/
theorem rdText_eq (s : State) : rdText s = rdCells 0 s.len { s with turns := [] } := rfl

theorem rdText_of_cellString {s : State} {str : List Byte} (hlen : upToLmax s.params s.len = true)
    (h : cellString s.txt.read s.len = some str) : rdText s = .value str { s with turns := [] } := by
  obtain ⟨hstr, hread⟩ := cellString_eq_some_iff.1 h
  have hcells := rdCells_eq_value s str 0 (by rwa [hstr, Nat.zero_add])
    fun j hj => by rw [Nat.zero_add]; exact hread j (hstr ▸ hj)
  rwa [hstr] at hcells

/-- Settles O48: by induction on the string, and on the distance to the first cell without a value. -/
theorem rdTextReadsEveryCell : Obligations.RdTextReadsEveryCell := by
  intro s hlen
  refine ⟨fun str => rdText_of_cellString hlen, fun i hi hnone hsome => ?_⟩
  have h := rdCells_stops s i 0 s.len hi
  simp only [Nat.zero_add] at h
  exact h (upToLmax_mono hi.le hlen) hsome hnone

end RdText

end Sys2Proof.Machine
end

section
/-! SUPPORT. The pieces of a CALL (spec/30_encoding.md R76, R77): the host's writes to an idle block, the wait
for DONE, and the last step of the command that was started. -/

namespace Sys2Proof.Machine

section Writes

/-- An idle block with no other agent's turn pending. -/
structure AtRest (s : State) : Prop where
  notBusy : statusBusy s.status = false
  turns : s.turns = []

theorem eq_of_no_turns {s : State} (h : s.turns = []) : { s with turns := [] } = s := by
  rw [← h]

theorem not_busy_of_idle {s : State} (h : statusInv s) (hp : s.phase = .idle) :
    statusBusy s.status = false := by
  obtain ⟨-, hbusy, -⟩ := h
  simpa [hp] using hbusy

variable {s : State} (h : AtRest s)
include h

/-- `wr` to an idle block (R54, R76). -/
theorem AtRest.wr_eq {r : RegNum} {v : Int} (hv : HostOp.valueOk s.params r v = true) :
    wr r v s = .value () (hostWriteIdle s r v) := by
  simp [wr, hostDo_eq, eq_of_no_turns h.turns, hostStep, hv, hostWrite, isBusy, h.notBusy]

theorem AtRest.wr_a0 {v : Int} (hv : fits s.params v = true) : wr 0x0#4 v s = .value () (setA0 v s) :=
  h.wr_eq (by simp [HostOp.valueOk, hv])

theorem AtRest.wr_a1 {v : Int} (hv : fits s.params v = true) : wr 0x1#4 v s = .value () (setA1 v s) :=
  h.wr_eq (by simp [HostOp.valueOk, hv])

theorem AtRest.wr_a2 {v : Int} (hv : fits s.params v = true) : wr 0x2#4 v s = .value () (setA2 v s) :=
  h.wr_eq (by simp [HostOp.valueOk, hv])

theorem AtRest.with_a0 (v : Int) : AtRest (setA0 v s) := ⟨h.notBusy, h.turns⟩

theorem AtRest.with_a1 (v : Int) : AtRest (setA1 v s) := ⟨h.notBusy, h.turns⟩

theorem AtRest.with_a2 (v : Int) : AtRest (setA2 v s) := ⟨h.notBusy, h.turns⟩

theorem AtRest.with_len (n : Nat) : AtRest (setLen n s) := ⟨h.notBusy, h.turns⟩

theorem AtRest.with_txt (t : Text) : AtRest (setTxt t s) := ⟨h.notBusy, h.turns⟩

end Writes

section WriteText

/-- The host's text, cell by cell (R56, R76). -/
theorem AtRest.wrCells_eq (str : List Byte) : ∀ {s : State} (_ : AtRest s) (i : Nat),
    upToLmax s.params (i + str.length) = true →
    wrCells i str s = .value () (setTxt (s.txt.writeString i str) s) := by
  induction str with
  | nil => intro s _ i _; rfl
  | cons ch rest ih =>
    intro s h i hi
    simp only [List.length_cons] at hi
    have hwrite : hostDo (.writeTxt i ch.toNat) s = .next (setTxt (s.txt.write i ch) s) := by
      rw [hostDo_eq, eq_of_no_turns h.turns,
        hostStep_writeTxt_idle _ h.notBusy (upToLmax_mono (Nat.le_add_right i _) hi)]
      simp
    rw [wrCells, hwrite, afterStep_next]
    exact ih (h.with_txt (s.txt.write i ch)) (i + 1) (upToLmax_mono (by omega) hi)

/-- LEN takes a length up to LMAX as it is (R28). -/
theorem lenImage_of_upToLmax {p : Params} {n : Nat} (h : upToLmax p n = true) : lenImage p n = n := by
  cases p with
  | unbounded => simp [lenImage]
  | bounded x l =>
    have hlt : n < 2 ^ (l + 3) := by simpa [upToLmax] using h
    show ((n : Int) % 2 ^ (l + 3)).toNat = n
    rw [Int.emod_eq_of_lt (by omega) (by exact_mod_cast hlt), Int.toNat_natCast]

/-- `txt`: the cells, then LEN (R76). -/
theorem AtRest.wrText_eq {s : State} (h : AtRest s) {str : List Byte}
    (hlen : upToLmax s.params str.length = true) (hfit : fits s.params str.length = true) :
    wrText str s = .value () (setLen str.length (setTxt (s.txt.writeString 0 str) s)) := by
  rw [wrText, AtRest.wrCells_eq str h 0 (by simpa using hlen), andThen_value,
    (h.with_txt _).wr_eq (by simp [HostOp.valueOk, hfit])]
  simp [hostWriteIdle, lenImage_of_upToLmax hlen]

end WriteText

section Waiting

variable {i : Instr} {s t : State}

theorem waitDone_done (n : Nat) (hd : statusDone s.status = true) : waitDone n s = .value () s := by
  cases n <;> simp [waitDone, hd]

theorem waitDone_succ (n : Nat) (hd : statusDone s.status = false) (hturns : s.turns = [])
    (hstep : seqStep s = .next t) : waitDone (n + 1) s = waitDone n t := by
  simp [waitDone, hd, seqDo_eq, eq_of_no_turns hturns, hstep]

/-- The wait on a running command finds it ended by a last step, and what every step but the last keeps holds
before that step. -/
theorem Running.waitDone_lastStep {I : State → Prop}
    (hkeep : ∀ u v, Running i u → I u → exec i u = .next v → v.phase ≠ .idle → I v) (n : Nat) :
    ∀ {s : State}, Running i s → I s → statusDone s.status = false → stepsLeft s ≤ n →
      ∃ u t, Running i u ∧ I u ∧ exec i u = .next t ∧ t.phase = .idle ∧ waitDone n s = .value () t := by
  induction n with
  | zero =>
    intro s h _ _ hn
    obtain ⟨t, -, hlt, -⟩ := h.step
    omega
  | succ n ih =>
    intro s h hI hd hn
    obtain ⟨t, hstep, hlt, hnext⟩ := h.step
    rw [step_of_no_turns h.turns] at hstep
    have hexec : exec i s = .next t := (seqStep_eq_exec h.cmd).symm.trans hstep
    rw [waitDone_succ n hd h.turns hstep]
    rcases hnext with ⟨hidle, hdone, -⟩ | hrun
    · exact ⟨s, t, h, hI, hexec, hidle, waitDone_done n hdone⟩
    · have hne : t.phase ≠ .idle := fun hidle => idle_notMem_commandPhases i (hidle ▸ hrun.phase_mem)
      obtain ⟨-, hstatus, -⟩ := resultsAppearOnlyAtCompletion i s t hexec hne
      exact ih hrun (hkeep s t h hI hexec hne) (hstatus ▸ hd) (by omega)

/-- The command `i`, written to CMD in state `s` and waited for, is found ended in state `t` (R76). -/
def EndsIn (i : Instr) (s t : State) : Prop :=
  waitDone (seqBound (startCommand (encode i) s)) (startCommand (encode i) s) = .value () t

theorem stepsLeft_startCommand (k : Byte) (s : State) :
    stepsLeft (startCommand k s) = seqBound (startCommand k s) := rfl

/-- A command that its start step ends. -/
theorem endsIn_of_start (hturns : s.turns = []) (hexec : exec i (startCommand (encode i) s) = .next t)
    (hd : statusDone t.status = true) : EndsIn i s t := by
  have hcode : decode (startCommand (encode i) s).w.cmd = some i := decode_encode i
  have hlt := execStart_lowers rfl hcode t hexec
  rw [stepsLeft_startCommand] at hlt
  obtain ⟨n, hn⟩ := Nat.exists_eq_succ_of_ne_zero (Nat.ne_zero_of_lt hlt)
  rw [EndsIn, hn, waitDone_succ (s := startCommand (encode i) s) n (by simp) hturns
    ((seqStep_eq_exec hcode).trans hexec), waitDone_done n hd]

theorem commandPhases_eq_cons (i : Instr) : commandPhases i = .start :: (commandPhases i).tail := by
  cases i <;> rfl

theorem mem_tail_commandPhases {p : Phase} (hmem : p ∈ commandPhases i) (hne : p ≠ .start) :
    p ∈ (commandPhases i).tail := by
  rw [commandPhases_eq_cons, List.mem_cons] at hmem
  exact hmem.resolve_left hne

/-- A command that can read its text, and that its start step does not end, ends by a last step of its loop.
What the start step gives and every step but the last keeps holds before that step. -/
theorem exists_lastStep {I : State → Prop} (hturns : s.turns = [])
    (hread : i = .encode → upToLmax s.params s.len = true ∧ ∃ str, cellString s.txt.read s.len = some str)
    (henter : Answers (fun v => v.phase ≠ .idle ∧ I v) (exec i (startCommand (encode i) s)))
    (hkeep : ∀ u v, u.phase ∈ (commandPhases i).tail → phaseInv u → I u → exec i u = .next v →
      v.phase ≠ .idle → I v) :
    ∃ u t, I u ∧ u.phase ∈ (commandPhases i).tail ∧ phaseInv u ∧ exec i u = .next t ∧ t.phase = .idle ∧
      EndsIn i s t := by
  have hrun : Running i (startCommand (encode i) s) :=
    ⟨hturns, decode_encode i, start_mem_commandPhases i, trivial, hread⟩
  have hkeep' : ∀ u v, Running i u →
      (u.phase = .start → u = startCommand (encode i) s) ∧ (u.phase ≠ .start → I u) →
      exec i u = .next v → v.phase ≠ .idle →
      (v.phase = .start → v = startCommand (encode i) s) ∧ (v.phase ≠ .start → I v) := by
    intro u v hu ⟨hstart, hI⟩ hexec hne
    refine ⟨fun hp => absurd (hp ▸ (exec_step i hexec).phase_mem) (start_notMem_nextPhases i u.phase),
      fun _ => ?_⟩
    by_cases hp : u.phase = .start
    · exact (henter v (hstart hp ▸ hexec)).2
    · exact hkeep u v (mem_tail_commandPhases hu.phase_mem hp) hu.inv (hI hp) hexec hne
  obtain ⟨u, t, hu, ⟨hstart, hI⟩, hexec, hidle, hends⟩ :=
    hrun.waitDone_lastStep hkeep' _ ⟨fun _ => rfl, fun hne => absurd rfl hne⟩ (by simp) le_rfl
  have hne : u.phase ≠ .start := fun hp => (henter t (hstart hp ▸ hexec)).1 hidle
  exact ⟨u, t, hI hne, mem_tail_commandPhases hu.phase_mem hne, hu.inv, hexec, hidle, hends⟩

/-- Since state `s` only STATUS, the phase and working registers have changed (R22, R55). -/
def Underway (s u : State) : Prop := ∃ st p w, u = { s with status := st, phase := p, w := w }

theorem underway_startCommand (k : Byte) (s : State) : Underway s (startCommand k s) :=
  ⟨statusOf true false 0#3, .start, { s.w with cmd := k }, by
    simp only [startCommand, setPhase, setStatus, setW]⟩

section Underway

variable {u : State} (h : Underway s u)
include h

theorem Underway.with_w (w : Working) : Underway s (setW w u) := by
  obtain ⟨st, p, _, rfl⟩ := h
  exact ⟨st, p, w, rfl⟩

theorem Underway.with_phase (p : Phase) : Underway s (setPhase p u) := by
  obtain ⟨st, _, w, rfl⟩ := h
  exact ⟨st, p, w, rfl⟩

theorem Underway.after_draws (d : Nat) : Underway (afterDraws d s) (afterDraws d u) := by
  obtain ⟨st, p, w, rfl⟩ := h
  exact ⟨st, p, w, rfl⟩

theorem Underway.params : u.params = s.params := by obtain ⟨st, p, w, rfl⟩ := h; rfl

theorem Underway.a0 : u.a0 = s.a0 := by obtain ⟨st, p, w, rfl⟩ := h; rfl

theorem Underway.a1 : u.a1 = s.a1 := by obtain ⟨st, p, w, rfl⟩ := h; rfl

theorem Underway.a2 : u.a2 = s.a2 := by obtain ⟨st, p, w, rfl⟩ := h; rfl

theorem Underway.len : u.len = s.len := by obtain ⟨st, p, w, rfl⟩ := h; rfl

theorem Underway.txt : u.txt = s.txt := by obtain ⟨st, p, w, rfl⟩ := h; rfl

theorem Underway.answer_eq (k : Nat) : answer u k = answer s k := by obtain ⟨st, p, w, rfl⟩ := h; rfl

/-! The end of the command sets STATUS and phase again (R14). -/

theorem Underway.raise_eq (k : ErrKind) : raise k u = raise k (setW u.w s) := by
  obtain ⟨st, p, w, rfl⟩ := h
  simp only [raise, setPhase, setStatus, setW]

theorem Underway.complete_setR0 (v : Int) :
    complete (setR0 v u) = complete (setR0 v (setW u.w s)) := by
  obtain ⟨st, p, w, rfl⟩ := h
  simp only [complete, setPhase, setStatus, setW, setR0]

theorem Underway.complete_setR2 (g x y : Int) :
    complete (setR2 y (setR1 x (setR0 g u))) =
      complete (setR2 y (setR1 x (setR0 g (setW u.w s)))) := by
  obtain ⟨st, p, w, rfl⟩ := h
  simp only [complete, setPhase, setStatus, setW, setR0, setR1, setR2]

theorem Underway.complete_setLen (n : Nat) (t : Text) :
    complete (setLen n (setTxt t u)) =
      complete (setLen n (setTxt t (setW u.w s))) := by
  obtain ⟨st, p, w, rfl⟩ := h
  simp only [complete, setPhase, setStatus, setW, setLen, setTxt]

end Underway

theorem Underway.next {u v : State} (hi : i ∉ [Instr.mrwit, .mrtest]) (hp : u.phase ∈ commandPhases i)
    (h : Underway s u) (hexec : exec i u = .next v) (hne : v.phase ≠ .idle) : Underway s v := by
  cases exec_step i hexec with
  | stays hidle => exact absurd hidle hne
  | goesOn q w d _ _ _ hd =>
    rw [hd (ne_mrTrial_of_mem hi hp)]
    exact (h.with_w w).with_phase q
  | raises => exact absurd rfl hne
  | completes => exact absurd rfl hne

/-- A step with this outcome does not end the command. -/
def Enters (o : StepOutcome) : Prop := Answers (fun t => t.phase ≠ .idle) o

/-- The last step of a command that is no Miller-Rabin test and that its start step does not end. -/
theorem exists_lastStep_underway (hi : i ∉ [Instr.mrwit, .mrtest]) (hturns : s.turns = [])
    (hread : i = .encode → upToLmax s.params s.len = true ∧ ∃ str, cellString s.txt.read s.len = some str)
    (henter : Enters (exec i (startCommand (encode i) s))) :
    ∃ u t, Underway s u ∧ u.phase ∈ (commandPhases i).tail ∧ phaseInv u ∧ exec i u = .next t ∧
      t.phase = .idle ∧ EndsIn i s t := by
  refine exists_lastStep hturns hread (fun v hexec => ?_) fun u v hp _ h => h.next hi (List.mem_of_mem_tail hp)
  have hne := henter v hexec
  exact ⟨hne, (underway_startCommand _ s).next hi (start_mem_commandPhases i) hexec hne⟩

theorem raises_of_start {k : ErrKind} (hturns : s.turns = [])
    (hexec : exec i (startCommand (encode i) s) = .next (raise k (startCommand (encode i) s))) :
    ∃ w, EndsIn i s (raise k (setW w s)) := by
  rw [(underway_startCommand _ s).raise_eq] at hexec
  exact ⟨_, endsIn_of_start hturns hexec (by simp)⟩

theorem completes_of_start {v : Int} (hturns : s.turns = [])
    (hexec : exec i (startCommand (encode i) s) =
      .next (complete (setR0 v (startCommand (encode i) s)))) :
    ∃ w, EndsIn i s (complete (setR0 v (setW w s))) := by
  rw [(underway_startCommand _ s).complete_setR0] at hexec
  exact ⟨_, endsIn_of_start hturns hexec (by simp)⟩

end Waiting

section Calls

theorem fits_of_small {p : Params} {v : Int} (h0 : 0 ≤ v) (h : v < 2 ^ 7) : fits p v = true := by
  cases p with
  | unbounded => rfl
  | bounded x l =>
    have hpow : (2 : Int) ^ 7 ≤ 2 ^ (x + 7) := pow_le_pow_right₀ (by norm_num) (Nat.le_add_left 7 x)
    exact (fits_iff x l v).2 ⟨by omega, by omega⟩

variable {i : Instr} {s r : State} (h : AtRest s)
include h

/-- The code of a command can be written to CMD whatever XLEN is (R7, R72). -/
theorem AtRest.wr_cmd (i : Instr) :
    wr 0x8#4 (encode i).toNat s = .value () (startCommand (encode i) s) := by
  have hcode := encode_range i
  rw [h.wr_eq (valueOk_cmd (fits_of_small (by omega) (by omega)))]
  simp [hostWriteIdle]

/-- A command that completes without error lets the CALL go on (R77). -/
theorem AtRest.call_completes (he : EndsIn i s (complete r)) :
    call i s = .value () (complete { r with turns := [] }) := by
  unfold EndsIn at he
  rw [call, h.wr_cmd, andThen_value, he, andThen_value, rd_eq, andThen_value,
    ofInt_hostRead_status]
  simp [complete, setPhase, setStatus]

/-- A command that raises an error makes the CALL fail with its kind (R77). -/
theorem AtRest.call_raises {k : ErrKind} (he : EndsIn i s (raise k r)) :
    call i s = .failed k (raise k { r with turns := [] }) := by
  unfold EndsIn at he
  rw [call, h.wr_cmd, andThen_value, he, andThen_value, rd_eq, andThen_value,
    ofInt_hostRead_status]
  simp [raise, setPhase, setStatus]

theorem AtRest.call2_eq {x y : Int} (hx : fits s.params x = true) (hy : fits s.params y = true) :
    call2 i x y s = call i (setA1 y (setA0 x s)) := by
  rw [call2, h.wr_a0 hx, andThen_value, (h.with_a0 x).wr_a1 hy, andThen_value]

end Calls

end Sys2Proof.Machine
end

section
/-! SUPPORT. The end of POWMOD, XGCD, MODINV, ENCODE and DECODE, read off the invariant of the phase in which it
comes (spec/41_modexp.md R90, R91, spec/42_extended_gcd.md R110, R111, R120, R121, spec/44_codec.md R172,
R179). -/

namespace Sys2Proof.Machine

/-- If this step ends the command, it does so in a state that satisfies `P`. -/
def EndsWith (P : State → Prop) (o : StepOutcome) : Prop := Answers (fun t => t.phase = .idle → P t) o

theorem EndsWith.result {P : State → Prop} {t : State} (h : P t) : EndsWith P (.next t) :=
  answers_next.2 fun _ => h

theorem EndsWith.goesOn {P : State → Prop} {t : State} (h : t.phase ≠ .idle) : EndsWith P (.next t) :=
  answers_next.2 fun hidle => absurd hidle h

theorem EndsWith.stops {P : State → Prop} (f : Fault) : EndsWith P (.fault f) := answers_fault _ f

section Powmod

variable {s : State}

theorem powmodStart_raises (h : s.a2 ≤ 1 ∨ s.a1 < 0) : powmodStart s = .next (raise .domainError s) := by
  unfold powmodStart
  split_ifs
  · rfl
  · rfl
  · omega

theorem powmodStart_enters (hn : 1 < s.a2) (hc : 0 ≤ s.a1) :
    Enters (powmodStart s) := by
  unfold powmodStart
  rw [if_neg (by omega), if_neg (by omega)]
  exact answers_next.2 (by simp)

/-- With no bit left the accumulator is the power (R94). -/
theorem powmodLoop_endsWith (hp : s.phase = .pmLoop) (h : phaseInv s) :
    EndsWith (· = complete (setR0 (s.a0 ^ s.a1.toNat % s.a2) s)) (exec .powmod s) := by
  rw [exec_eq_commandStep]
  simp only [commandStep, hp]
  simp only [phaseInv, hp] at h
  obtain ⟨-, -, -, -, -, -, hz⟩ := h
  unfold powmodLoop
  split_ifs with hi
  · rw [hi, pow_zero, Int.ediv_one] at hz
    exact .result (by rw [hz])
  · exact .goesOn (by simp [hp])

theorem powmod_completes (hturns : s.turns = []) (hn : 1 < s.a2) (hc : 0 ≤ s.a1) :
    ∃ w, EndsIn .powmod s (complete (setR0 (s.a0 ^ s.a1.toNat % s.a2) (setW w s))) := by
  obtain ⟨u, t, hs, hp, hinv, ht, hidle, hends⟩ :=
    exists_lastStep_underway (i := .powmod) (by decide) hturns (by simp) (powmodStart_enters hn hc)
  rw [powmodLoop_endsWith (List.mem_singleton.1 hp) hinv t ht hidle, hs.a0, hs.a1, hs.a2,
    hs.complete_setR0] at hends
  exact ⟨u.w, hends⟩

theorem powmod_raises (hturns : s.turns = []) (h : s.a2 ≤ 1 ∨ s.a1 < 0) :
    ∃ w, EndsIn .powmod s (raise .domainError (setW w s)) :=
  raises_of_start hturns ((exec_start rfl .powmod).trans (powmodStart_raises h))

end Powmod

section Euclid

variable {s : State}

theorem xgcdStart_raises (h : ¬ (s.a1 < s.a0 ∧ 0 < s.a1)) : xgcdStart s = .next (raise .domainError s) := by
  rw [xgcdStart, if_neg h]

theorem xgcdStart_enters (h : s.a1 < s.a0 ∧ 0 < s.a1) : Enters (xgcdStart s) := by
  rw [xgcdStart, if_pos h]
  exact answers_next.2 (by simp)

/-- With remainder 0 the other remainder is the gcd (R115). -/
theorem gcd_of_remainder_zero {r0 r1 a b : Int} (hr : r1 = 0) (h0 : 0 ≤ r0)
    (h : Int.gcd r0 r1 = Int.gcd a b) : (Int.gcd a b : Int) = r0 := by
  rw [← h, hr, Int.gcd_zero_right, Int.natAbs_of_nonneg h0]

/-- The last step of XGCD: the gcd and coefficients that give it (R110). -/
theorem xgcdLoop_endsWith (hp : s.phase = .xgLoop) (h : phaseInv s) :
    EndsWith (fun t => ∃ x y, (Int.gcd s.a0 s.a1 : Int) = x * s.a0 + y * s.a1 ∧
      t = complete (setR2 y (setR1 x (setR0 (Int.gcd s.a0 s.a1) s)))) (exec .xgcd s) := by
  rw [exec_eq_commandStep]
  simp only [commandStep, hp]
  simp only [phaseInv, hp] at h
  obtain ⟨-, -, hr0, -, hgcd, hlt, h1, -⟩ := h
  unfold xgcdLoop
  split_ifs with hr
  · have hg := gcd_of_remainder_zero hr (h1.trans hlt.le) hgcd
    exact .result ⟨s.w.s0, s.w.t0, hg ▸ hr0, by rw [hg]⟩
  · exact .goesOn (by simp [hp])

theorem xgcd_completes (hturns : s.turns = []) (hab : s.a1 < s.a0 ∧ 0 < s.a1) :
    ∃ x y w, (Int.gcd s.a0 s.a1 : Int) = x * s.a0 + y * s.a1 ∧
      EndsIn .xgcd s (complete (setR2 y (setR1 x (setR0 (Int.gcd s.a0 s.a1) (setW w s))))) := by
  obtain ⟨u, t, hs, hp, hinv, ht, hidle, hends⟩ :=
    exists_lastStep_underway (i := .xgcd) (by decide) hturns (by simp) (xgcdStart_enters hab)
  obtain ⟨x, y, hxy, hlast⟩ := xgcdLoop_endsWith (List.mem_singleton.1 hp) hinv t ht hidle
  rw [hs.a0, hs.a1] at hxy
  rw [hlast, hs.a0, hs.a1, hs.complete_setR2] at hends
  exact ⟨x, y, u.w, hxy, hends⟩

theorem xgcd_raises (hturns : s.turns = []) (h : ¬ (s.a1 < s.a0 ∧ 0 < s.a1)) :
    ∃ w, EndsIn .xgcd s (raise .domainError (setW w s)) :=
  raises_of_start hturns ((exec_start rfl .xgcd).trans (xgcdStart_raises h))

theorem modinvStart_raises (h : ¬ (s.a0 < s.a1 ∧ 0 < s.a0)) :
    modinvStart s = .next (raise .domainError s) := by
  rw [modinvStart, if_neg h]

theorem modinvStart_enters (h : s.a0 < s.a1 ∧ 0 < s.a0) : Enters (modinvStart s) := by
  rw [modinvStart, if_pos h]
  exact answers_next.2 (by simp)

/-- A coefficient congruent to the inverse, reduced (R120). -/
theorem mul_emod_of_dvd_one_sub {m t a : Int} (hm : 1 < m) (h : m ∣ 1 - t * a) : a * (t % m) % m = 1 := by
  rw [Int.mul_emod, Int.emod_emod_of_dvd t dvd_rfl, ← Int.mul_emod, mul_comm,
    ← Int.emod_eq_emod_iff_emod_sub_eq_zero.2 (Int.emod_eq_zero_of_dvd h), Int.emod_eq_of_lt (by omega) hm]

/-- What MODINV leaves once the gcd is known (R120, R121). -/
def ModinvEnd (s t : State) : Prop :=
  (Int.gcd s.a0 s.a1 = 1 →
    ∃ u, 0 ≤ u ∧ u < s.a1 ∧ s.a0 * u % s.a1 = 1 ∧ t = complete (setR0 u s)) ∧
  (Int.gcd s.a0 s.a1 ≠ 1 → t = raise .noInverseError s)

theorem modinvLoop_endsWith (hp : s.phase = .miLoop) (h : phaseInv s) :
    EndsWith (ModinvEnd s) (exec .modinv s) := by
  rw [exec_eq_commandStep]
  simp only [commandStep, hp]
  simp only [phaseInv, hp] at h
  obtain ⟨hlt, hpos, hn, hd0, -, hgcd, hr10, h1, -⟩ := h
  unfold modinvLoop
  split_ifs with hr hone
  · have hg := gcd_of_remainder_zero hr (h1.trans hr10.le) hgcd
    exact .result ⟨fun h => by omega, fun _ => rfl⟩
  · have hg := gcd_of_remainder_zero hr (h1.trans hr10.le) hgcd
    refine .result ⟨fun _ => ⟨s.w.t0 % s.a1, Int.emod_nonneg _ (by omega), Int.emod_lt_of_pos _ (by omega),
      mul_emod_of_dvd_one_sub (by omega) ?_, by rw [hn]⟩, fun h => by omega⟩
    rwa [not_not.1 hone] at hd0
  · exact .goesOn (by simp [hp])

theorem modinv_endsIn (hturns : s.turns = []) (ham : s.a0 < s.a1 ∧ 0 < s.a0) :
    ∃ u t, Underway s u ∧ ModinvEnd u t ∧ EndsIn .modinv s t := by
  obtain ⟨u, t, hs, hp, hinv, ht, hidle, hends⟩ :=
    exists_lastStep_underway (i := .modinv) (by decide) hturns (by simp) (modinvStart_enters ham)
  exact ⟨u, t, hs, modinvLoop_endsWith (List.mem_singleton.1 hp) hinv t ht hidle, hends⟩

theorem modinv_completes (hturns : s.turns = []) (ham : s.a0 < s.a1 ∧ 0 < s.a0)
    (hgcd : Int.gcd s.a0 s.a1 = 1) :
    ∃ v w, 0 ≤ v ∧ v < s.a1 ∧ s.a0 * v % s.a1 = 1 ∧ EndsIn .modinv s (complete (setR0 v (setW w s))) := by
  obtain ⟨u, t, hs, ⟨hone, -⟩, hends⟩ := modinv_endsIn hturns ham
  rw [hs.a0, hs.a1] at hone
  obtain ⟨v, h0, hlt, hinv, hlast⟩ := hone hgcd
  rw [hlast, hs.complete_setR0] at hends
  exact ⟨v, u.w, h0, hlt, hinv, hends⟩

theorem modinv_raises_domainError (hturns : s.turns = []) (h : ¬ (s.a0 < s.a1 ∧ 0 < s.a0)) :
    ∃ w, EndsIn .modinv s (raise .domainError (setW w s)) :=
  raises_of_start hturns ((exec_start rfl .modinv).trans (modinvStart_raises h))

theorem modinv_raises_noInverseError (hturns : s.turns = []) (ham : s.a0 < s.a1 ∧ 0 < s.a0)
    (hgcd : Int.gcd s.a0 s.a1 ≠ 1) : ∃ w, EndsIn .modinv s (raise .noInverseError (setW w s)) := by
  obtain ⟨u, t, hs, ⟨-, hne⟩, hends⟩ := modinv_endsIn hturns ham
  rw [hs.a0, hs.a1] at hne
  rw [hne hgcd, hs.raise_eq] at hends
  exact ⟨u.w, hends⟩

end Euclid

section Codec

variable {s : State} {str : List Byte}

/-- What ENCODE leaves of a text `str` (R172): the first that fails of the letters and the width, else the
value. -/
def encodeEnd (str : List Byte) (s : State) : State :=
  if str.all isLower = true then
    if fits s.params (encodeText str) = true then complete (setR0 (encodeText str) s)
    else raise .capacityError s
  else raise .invalidCharacterError s

theorem encodeScan_endsWith (hp : s.phase = .enScan) (h : phaseInv s)
    (hstr : cellString s.txt.read s.len = some str) :
    EndsWith (· = encodeEnd str s) (exec .encode s) := by
  rw [exec_eq_commandStep]
  simp only [commandStep, hp]
  simp only [phaseInv, hp] at h
  obtain ⟨hl, hil, -⟩ := h
  obtain ⟨-, hread⟩ := cellString_eq_some_iff.1 hstr
  unfold encodeScan
  split
  next => exact .goesOn (by simp)
  next hmore =>
  split
  next => exact .stops _
  next ch hch =>
    split
    next => exact .goesOn (by simp [hp])
    next hlow =>
      have hcell := hread s.w.i (hl ▸ Nat.lt_of_le_of_ne hil hmore)
      rw [((readCell_ok_iff s s.w.i ch).1 hch).2] at hcell
      have hall : ¬ str.all isLower = true := fun hall =>
        hlow (List.all_eq_true.1 hall ch (List.mem_of_getElem? hcell.symm))
      exact .result (by rw [encodeEnd, if_neg hall])

theorem encodeAcc_endsWith (hp : s.phase = .enAcc) (h : phaseInv s)
    (hstr : cellString s.txt.read s.len = some str) :
    EndsWith (· = encodeEnd str s) (exec .encode s) := by
  rw [exec_eq_commandStep]
  simp only [commandStep, hp]
  simp only [phaseInv, hp] at h
  obtain ⟨hl, -, ⟨str', hstr', hall⟩, pre, hpre, hv⟩ := h
  obtain rfl : str' = str := Option.some.inj (by rw [← hstr', hl, hstr])
  unfold encodeAcc
  split
  next hend =>
    obtain rfl : pre = str' := Option.some.inj (by rw [← hpre, hend, hstr'])
    split
    next hfit => exact .result (by rw [encodeEnd, if_pos hall, ← hv, if_pos hfit])
    next hfit => exact .result (by rw [encodeEnd, if_pos hall, ← hv, if_neg hfit])
  next =>
  split
  next => exact .stops _
  next => exact .goesOn (by simp [hp])

theorem encode_endsIn (hturns : s.turns = []) (hlen : upToLmax s.params s.len = true)
    (hstr : cellString s.txt.read s.len = some str) : ∃ w, EndsIn .encode s (encodeEnd str (setW w s)) := by
  obtain ⟨u, t, hs, hp, hinv, ht, hidle, hends⟩ :=
    exists_lastStep_underway (i := .encode) (by decide) hturns (fun _ => ⟨hlen, str, hstr⟩)
      (answers_next.2 (by simp))
  have hcells : cellString u.txt.read u.len = some str := by rwa [hs.txt, hs.len]
  have hlast : t = encodeEnd str u := by
    rcases List.mem_pair.1 hp with hp | hp
    · exact encodeScan_endsWith hp hinv hcells t ht hidle
    · exact encodeAcc_endsWith hp hinv hcells t ht hidle
  rw [hlast, encodeEnd, hs.params, hs.raise_eq, hs.raise_eq, hs.complete_setR0] at hends
  exact ⟨u.w, hends⟩

theorem encode_completes (hturns : s.turns = []) (hlen : upToLmax s.params s.len = true)
    (hstr : cellString s.txt.read s.len = some str) (hall : str.all isLower = true)
    (hfit : fits s.params (encodeText str) = true) :
    ∃ w, EndsIn .encode s (complete (setR0 (encodeText str) (setW w s))) := by
  obtain ⟨w, hends⟩ := encode_endsIn hturns hlen hstr
  rw [encodeEnd, if_pos hall, setW_params, if_pos hfit] at hends
  exact ⟨w, hends⟩

theorem encode_raises_capacityError (hturns : s.turns = []) (hlen : upToLmax s.params s.len = true)
    (hstr : cellString s.txt.read s.len = some str) (hall : str.all isLower = true)
    (hfit : fits s.params (encodeText str) = false) :
    ∃ w, EndsIn .encode s (raise .capacityError (setW w s)) := by
  obtain ⟨w, hends⟩ := encode_endsIn hturns hlen hstr
  rw [encodeEnd, if_pos hall, setW_params, if_neg (by simp [hfit])] at hends
  exact ⟨w, hends⟩

theorem encode_raises_invalidCharacterError (hturns : s.turns = []) (hlen : upToLmax s.params s.len = true)
    (hstr : cellString s.txt.read s.len = some str) (hall : str.all isLower = false) :
    ∃ w, EndsIn .encode s (raise .invalidCharacterError (setW w s)) := by
  obtain ⟨w, hends⟩ := encode_endsIn hturns hlen hstr
  rw [encodeEnd, if_neg (by simp [hall])] at hends
  exact ⟨w, hends⟩

theorem decodeStart_raises (h : s.a0 < 0) : decodeStart s = .next (raise .domainError s) := by
  rw [decodeStart, if_pos h]

theorem decodeStart_enters (h : 0 ≤ s.a0) : Enters (decodeStart s) := by
  rw [decodeStart, if_neg (not_lt.2 h)]
  exact answers_next.2 (by simp)

/-- What DECODE leaves of a string (R179, R182). -/
def decodeEnd (str : List Byte) (s : State) : State :=
  if upToLmax s.params str.length = true then
    complete (setLen str.length (setTxt (s.txt.writeString 0 str) s))
  else raise .capacityError s

/-- Nothing left to divide: the letters so far are the string (R181). -/
theorem decodeLoop_endsWith (hp : s.phase = .deLoop) (h : phaseInv s) :
    EndsWith (· = decodeEnd (decodeText s.a0) s) (exec .decode s) := by
  rw [exec_eq_commandStep]
  simp only [commandStep, hp]
  simp only [phaseInv, hp] at h
  obtain ⟨-, -, hdec⟩ := h
  unfold decodeLoop decodeFinish
  split
  next hv =>
    rw [hv, decodeText_zero, List.nil_append] at hdec
    split
    next hfit => exact .result (by rw [hdec, decodeEnd, if_pos hfit])
    next hfit => exact .result (by rw [hdec, decodeEnd, if_neg hfit])
  next => exact .goesOn (by simp [hp])

theorem decode_endsIn (hturns : s.turns = []) (h0 : 0 ≤ s.a0) :
    ∃ w, EndsIn .decode s (decodeEnd (decodeText s.a0) (setW w s)) := by
  obtain ⟨u, t, hs, hp, hinv, ht, hidle, hends⟩ :=
    exists_lastStep_underway (i := .decode) (by decide) hturns (by simp) (decodeStart_enters h0)
  rw [decodeLoop_endsWith (List.mem_singleton.1 hp) hinv t ht hidle, hs.a0, decodeEnd, hs.params, hs.txt,
    hs.raise_eq, hs.complete_setLen] at hends
  exact ⟨u.w, hends⟩

theorem decode_completes (hturns : s.turns = []) (h0 : 0 ≤ s.a0)
    (hlen : upToLmax s.params (decodeText s.a0).length = true) :
    ∃ w, EndsIn .decode s (complete (setLen (decodeText s.a0).length
      (setTxt (s.txt.writeString 0 (decodeText s.a0)) (setW w s)))) := by
  obtain ⟨w, hends⟩ := decode_endsIn hturns h0
  rw [decodeEnd, setW_params, if_pos hlen] at hends
  exact ⟨w, hends⟩

theorem decode_raises_capacityError (hturns : s.turns = []) (h0 : 0 ≤ s.a0)
    (hlen : upToLmax s.params (decodeText s.a0).length = false) :
    ∃ w, EndsIn .decode s (raise .capacityError (setW w s)) := by
  obtain ⟨w, hends⟩ := decode_endsIn hturns h0
  rw [decodeEnd, setW_params, if_neg (by simp [hlen])] at hends
  exact ⟨w, hends⟩

theorem decode_raises_domainError (hturns : s.turns = []) (h0 : s.a0 < 0) :
    ∃ w, EndsIn .decode s (raise .domainError (setW w s)) :=
  raises_of_start hturns ((exec_start rfl .decode).trans (decodeStart_raises h0))

end Codec

end Sys2Proof.Machine
end

section
/-! SUPPORT. The trials of MRWIT and MRTEST, counted along the run: how many have begun, how many draws that
took, and that all before the last passed (spec/43_miller_rabin.md R141, R142, R146 to R149). -/

namespace Sys2Proof.Machine

/-- The base of trial `k` of a command started in state `s`: A1 for MRWIT, the draw of its own for MRTEST
(R141, R142). -/
def trialBase (host : Bool) (s : State) (k : Nat) : Int := if host then s.a1 else drawnBase s k

/-- The draws that `k` begun trials have taken (R147). -/
def drawsMade (host : Bool) (k : Nat) : Nat := if host then 0 else k

/-- Of the `rounds` trials of a command started in state `s`, `begun` have begun and the first `passed` have
passed. -/
structure Trials (host : Bool) (rounds : Int) (s : State) (begun passed : Nat) (u : State) : Prop where
  frame : Underway (afterDraws (drawsMade host begun) s) u
  hostbase : u.w.hostbase = host
  rem : u.w.rem + begun = rounds
  passes : ∀ k, k < passed → trial s.a0 (trialBase host s k) = true

/-- The state of the trials in each phase of the kernel; in MR_EXP and MR_CHECK one is in progress. -/
def TrialsInPhase (host : Bool) (rounds : Int) (s u : State) : Prop :=
  match u.phase with
  | .mrDecomp => ∃ f, Trials host rounds s f f u
  | .mrTrial => ∃ f, Trials host rounds s f f u
  | .mrExp => ∃ f, Trials host rounds s (f + 1) f u ∧ u.w.a = trialBase host s f
  | .mrCheck => ∃ f, Trials host rounds s (f + 1) f u ∧ u.w.a = trialBase host s f
  | _ => True

/-- How the trials end (R141, R142): the first that fails gives 0, all of them passed give 1. -/
inductive Verdict (host : Bool) (rounds : Int) (s : State) : State → Prop where
  | fails (f : Nat) (w : Working) (hf : (f : Int) < rounds)
      (hfail : trial s.a0 (trialBase host s f) = false)
      (hpass : ∀ k, k < f → trial s.a0 (trialBase host s k) = true) :
      Verdict host rounds s (complete (setR0 0 (setW w (afterDraws (drawsMade host (f + 1)) s))))
  | passes (w : Working) (hpass : ∀ k : Nat, (k : Int) < rounds → trial s.a0 (trialBase host s k) = true) :
      Verdict host rounds s (complete (setR0 1 (setW w (afterDraws (drawsMade host rounds.toNat) s))))

section Verdicts

variable {host : Bool} {rounds : Int} {s t : State}

/-- The first trial that fails decides (R142). -/
theorem Verdict.of_first_failure (h : Verdict host rounds s t) {f : Nat} (hf : (f : Int) < rounds)
    (hfail : trial s.a0 (trialBase host s f) = false)
    (hpass : ∀ k, k < f → trial s.a0 (trialBase host s k) = true) :
    ∃ w, t = complete (setR0 0 (setW w (afterDraws (drawsMade host (f + 1)) s))) := by
  cases h with
  | fails g w _ hfail' hpass' =>
    rcases lt_trichotomy g f with hlt | rfl | hlt
    · exact absurd (hpass g hlt) (by simp [hfail'])
    · exact ⟨w, rfl⟩
    · exact absurd (hpass' f hlt) (by simp [hfail])
  | passes w hall => exact absurd (hall f hf) (by simp [hfail])

theorem Verdict.of_all_pass (h : Verdict host rounds s t)
    (hpass : ∀ k : Nat, (k : Int) < rounds → trial s.a0 (trialBase host s k) = true) :
    ∃ w, t = complete (setR0 1 (setW w (afterDraws (drawsMade host rounds.toNat) s))) := by
  cases h with
  | fails f w hf hfail => exact absurd (hpass f hf) (by simp [hfail])
  | passes w => exact ⟨w, rfl⟩

end Verdicts

section Kernel

variable {host : Bool} {rounds : Int} {s u : State}

theorem Trials.with_w {b p : Nat} (h : Trials host rounds s b p u) {w : Working}
    (hb : w.hostbase = u.w.hostbase) (hr : w.rem = u.w.rem) : Trials host rounds s b p (setW w u) :=
  ⟨h.frame.with_w w, hb.trans h.hostbase, (congrArg (· + (b : Int)) hr).trans h.rem, h.passes⟩

theorem Trials.with_phase {b p : Nat} (h : Trials host rounds s b p u) (q : Phase) :
    Trials host rounds s b p (setPhase q u) :=
  ⟨h.frame.with_phase q, h.hostbase, h.rem, h.passes⟩

theorem Trials.mrDecompStep_keeps {f : Nat} (hp : u.phase = .mrDecomp) (h : Trials host rounds s f f u) :
    Answers (TrialsInPhase host rounds s) (mrDecompStep u) := by
  unfold mrDecompStep
  split_ifs
  · exact answers_next.2 (by simpa only [TrialsInPhase, setW_phase, hp] using ⟨f, h.with_w rfl rfl⟩)
  · exact answers_next.2 ⟨f, h.with_phase .mrTrial⟩

/-- The oracle's answers from draw `d` on. -/
theorem answer_afterDraws (d k : Nat) (s : State) : answer (afterDraws d s) k = answer s (d + k) := by
  simp [answer, Nat.add_assoc, List.getD_eq_getElem?_getD]

theorem afterDraws_afterDraws (d e : Nat) (s : State) :
    afterDraws e (afterDraws d s) = afterDraws (d + e) s := by
  simp [afterDraws, Nat.add_assoc]

/-- A trial begins: with A1 it takes no draw, else its base is the next draw (R147). -/
theorem Trials.mrTrialStep_keeps {f : Nat} (h : Trials host rounds s f f u) (hs : mrSplit u)
    (hrem : u.w.rem ≠ 0) : Answers (TrialsInPhase host rounds s) (mrTrialStep u) := by
  obtain ⟨⟨hn, -, -, -, -, -, hbase⟩, -⟩ := hs
  have hrounds : u.w.rem - 1 + ((f + 1 : Nat) : Int) = rounds := by
    rw [← h.rem]
    push_cast
    ring
  unfold mrTrialStep
  rw [if_neg hrem]
  cases host with
  | true =>
    obtain ⟨ha, -⟩ := hbase h.hostbase
    rw [if_pos h.hostbase]
    exact answers_next.2
      ⟨f, ⟨(h.frame.with_w _).with_phase _, h.hostbase, hrounds, h.passes⟩, ha.trans h.frame.a1⟩
  | false =>
    rw [if_neg (by simp [h.hostbase])]
    split_ifs
    · have hdraw : Underway (afterDraws (f + 1) s) (afterDraws 1 u) := by
        rw [← afterDraws_afterDraws]
        exact h.frame.after_draws 1
      have hbase : drawIn 1 u.w.n (answer u 0) = trialBase false s f := by
        rw [hn, h.frame.a0, h.frame.answer_eq, answer_afterDraws]
        rfl
      exact answers_next.2 ⟨f, ⟨(hdraw.with_w _).with_phase _, h.hostbase, hrounds, h.passes⟩, hbase⟩
    · exact answers_fault _ _

theorem Trials.mrExpStep_keeps {f : Nat} (hp : u.phase = .mrExp) (h : Trials host rounds s (f + 1) f u)
    (ha : u.w.a = trialBase host s f) : Answers (TrialsInPhase host rounds s) (mrExpStep u) := by
  unfold mrExpStep
  split_ifs
  · exact answers_next.2
      ⟨f, (h.with_w (w := { u.w with b := u.w.z, j := 0 }) rfl rfl).with_phase .mrCheck, ha⟩
  · exact answers_next.2 (by simpa only [TrialsInPhase, setW_phase, hp] using ⟨f, h.with_w rfl rfl, ha⟩)

/-- The check passes only on a base that passes the trial (R140, R149). -/
theorem trial_of_mrCheck (h : mrCheckInv u) (hpass : (u.w.j = 0 ∧ u.w.b = 1) ∨ u.w.b = u.w.n - 1) :
    trial u.w.n u.w.a = true := by
  obtain ⟨⟨⟨-, -, -, hm, hsplit, -⟩, hodd, -⟩, -, -, hjk, hb, -⟩ := h
  rw [trial_iff hm hodd hsplit]
  rcases hpass with ⟨hj, hone⟩ | hlast
  · rw [hj, squares] at hb
    exact .inl (hb.symm.trans hone)
  · exact .inr ⟨u.w.j, hjk, hb ▸ hlast⟩

/-- The check fails only on a base that fails the trial (R140, R149). -/
theorem not_trial_of_mrCheck (h : mrCheckInv u) (hone : ¬ (u.w.j = 0 ∧ u.w.b = 1))
    (hlast : u.w.b ≠ u.w.n - 1) (hk : u.w.j + 1 = u.w.k) : trial u.w.n u.w.a = false := by
  obtain ⟨⟨⟨-, -, -, hm, hsplit, -⟩, hodd, -⟩, -, -, -, hb, hno, hb0⟩ := h
  rw [← Bool.not_eq_true, trial_iff hm hodd hsplit]
  rintro (hbase | ⟨j, hj, hsq⟩)
  · rcases Nat.eq_zero_or_pos u.w.j with hj | hj
    · rw [hj, squares] at hb
      exact hone ⟨hj, hb.trans hbase⟩
    · exact hb0 hj hbase
  · rcases Nat.lt_succ_iff_lt_or_eq.1 (hk ▸ hj) with hlt | rfl
    · exact hno j hlt hsq
    · exact hlast (hb.trans hsq)

theorem Trials.modulus {b p : Nat} (h : Trials host rounds s b p u) (hn : u.w.n = u.a0) : u.w.n = s.a0 :=
  hn.trans h.frame.a0

theorem Trials.mrCheckStep_keeps {f : Nat} (hp : u.phase = .mrCheck) (h : Trials host rounds s (f + 1) f u)
    (ha : u.w.a = trialBase host s f) (hinv : mrCheckInv u) :
    Answers (TrialsInPhase host rounds s) (mrCheckStep u) := by
  have ⟨⟨⟨hn, _⟩, _⟩, _⟩ := hinv
  have hnext : trial u.w.n u.w.a = true →
      TrialsInPhase host rounds s (setPhase .mrTrial u) := by
    intro hpass
    rw [h.modulus hn, ha] at hpass
    refine ⟨f + 1, h.frame.with_phase _, h.hostbase, h.rem, fun k hk => ?_⟩
    rcases Nat.lt_succ_iff_lt_or_eq.1 hk with hlt | rfl
    · exact h.passes k hlt
    · exact hpass
  unfold mrCheckStep
  split_ifs with hone hlast
  · exact answers_next.2 (hnext (trial_of_mrCheck hinv (.inl hone)))
  · exact answers_next.2 (hnext (trial_of_mrCheck hinv (.inr hlast)))
  · exact answers_next.2 trivial
  · exact answers_next.2 (by simpa only [TrialsInPhase, setW_phase, hp] using ⟨f, h.with_w rfl rfl, ha⟩)

/-- No trial is left, and all have passed (R147). -/
theorem Trials.mrTrialStep_endsWith {f : Nat} (h : Trials host rounds s f f u) :
    EndsWith (Verdict host rounds s) (mrTrialStep u) := by
  unfold mrTrialStep
  split_ifs with hrem
  · have hrounds : rounds = f := by
      rw [← h.rem, hrem, Int.zero_add]
    refine .result ?_
    rw [h.frame.complete_setR0, show f = rounds.toNat by omega]
    exact .passes u.w fun k hk => h.passes k (by omega)
  · exact .goesOn (by simp [mrBegin])
  · exact .goesOn (by simp [mrBegin])
  · exact .stops _

/-- The trial in progress fails and gives the verdict (R149). -/
theorem Trials.mrCheckStep_endsWith {f : Nat} (hp : u.phase = .mrCheck)
    (h : Trials host rounds s (f + 1) f u) (ha : u.w.a = trialBase host s f) (hinv : mrCheckInv u) :
    EndsWith (Verdict host rounds s) (mrCheckStep u) := by
  have ⟨⟨⟨hn, _, _, _, _, hrem0, _⟩, _⟩, _⟩ := hinv
  unfold mrCheckStep
  split_ifs with hone hlast hk
  · exact .goesOn (by simp)
  · exact .goesOn (by simp)
  · have hfail := not_trial_of_mrCheck hinv hone hlast hk
    rw [h.modulus hn, ha] at hfail
    have hrem := h.rem
    refine .result ?_
    rw [h.frame.complete_setR0]
    exact .fails f u.w (by push_cast at hrem; omega) hfail h.passes
  · exact .goesOn (by simp [hp])

end Kernel

section Run

variable {i : Instr} {host : Bool} {rounds : Int} {s : State} {w : Working}

theorem mr_tail_phases (hi : i ∈ [Instr.mrwit, .mrtest]) :
    (commandPhases i).tail = [.mrDecomp, .mrTrial, .mrExp, .mrCheck] := by
  rcases List.mem_pair.1 hi with rfl | rfl <;> rfl

/-- Every step of the kernel keeps the count of the trials, and the last one gives the verdict. -/
theorem TrialsInPhase.exec {u : State} (hp : u.phase ∈ [Phase.mrDecomp, .mrTrial, .mrExp, .mrCheck])
    (h : TrialsInPhase host rounds s u) (hinv : phaseInv u) (i : Instr) :
    Answers (TrialsInPhase host rounds s) (exec i u) ∧ EndsWith (Verdict host rounds s) (exec i u) := by
  rw [exec_eq_commandStep]
  simp only [List.mem_cons, List.not_mem_nil, or_false] at hp
  rcases hp with hp | hp | hp | hp
  all_goals
    simp only [commandStep, hp]
    simp only [phaseInv, hp] at hinv
    simp only [TrialsInPhase, hp] at h
    obtain ⟨f, h⟩ := h
  · refine ⟨h.mrDecompStep_keeps hp, ?_⟩
    unfold mrDecompStep
    split_ifs
    · exact .goesOn (by simp [hp])
    · exact .goesOn (by simp)
  · refine ⟨?_, h.mrTrialStep_endsWith⟩
    by_cases hrem : u.w.rem = 0
    · rw [mrTrialStep, if_pos hrem]
      exact answers_next.2 trivial
    · exact h.mrTrialStep_keeps hinv hrem
  · obtain ⟨h, ha⟩ := h
    refine ⟨h.mrExpStep_keeps hp ha, ?_⟩
    unfold mrExpStep
    split_ifs
    · exact .goesOn (by simp)
    · exact .goesOn (by simp [hp])
  · obtain ⟨h, ha⟩ := h
    exact ⟨h.mrCheckStep_keeps hp ha hinv, h.mrCheckStep_endsWith hp ha hinv⟩

/-- A test that its start step does not end gives the verdict of its trials. -/
theorem trials_endIn (hi : i ∈ [Instr.mrwit, .mrtest]) (hturns : s.turns = [])
    (hexec : exec i (startCommand (encode i) s) =
      .next (setPhase .mrDecomp (setW w (startCommand (encode i) s))))
    (hb : w.hostbase = host) (hr : w.rem = rounds) :
    ∃ t, Verdict host rounds s t ∧ EndsIn i s t := by
  have henter : Answers (fun v => v.phase ≠ .idle ∧ TrialsInPhase host rounds s v)
      (exec i (startCommand (encode i) s)) := by
    rw [hexec]
    refine answers_next.2 ⟨by simp, 0, ⟨?_, hb, by simp [hr], fun k hk => absurd hk (Nat.not_lt_zero k)⟩⟩
    rw [show drawsMade host 0 = 0 by cases host <;> rfl]
    exact ((underway_startCommand _ s).with_w w).with_phase _
  obtain ⟨u, t, h, hp, hinv, ht, hidle, hends⟩ := exists_lastStep hturns
    (fun hi' => absurd (hi' ▸ hi) (by decide)) henter
    fun u v hp hinv h ht _ => (h.exec (mr_tail_phases hi ▸ hp) hinv i).1 v ht
  exact ⟨t, (h.exec (mr_tail_phases hi ▸ hp) hinv i).2 t ht hidle, hends⟩

theorem mrwitStart_completes_one (h : s.a0 = 2) : mrwitStart s = .next (complete (setR0 1 s)) := by
  rw [mrwitStart, if_pos h]

theorem mrwitStart_completes_zero (h : s.a0 < 2 ∨ (s.a0 % 2 = 0 ∧ s.a0 ≠ 2)) :
    mrwitStart s = .next (complete (setR0 0 s)) := by
  rw [mrwitStart, if_neg (by omega), if_pos (by omega)]

theorem mrwitStart_raises (h3 : 3 ≤ s.a0) (hodd : s.a0 % 2 = 1) (h : ¬ (1 ≤ s.a1 ∧ s.a1 < s.a0)) :
    mrwitStart s = .next (raise .domainError s) := by
  rw [mrwitStart, if_neg (by omega), if_neg (by omega), if_pos h]

theorem mrtestStart_raises (h : s.a1 < 0) : mrtestStart s = .next (raise .domainError s) := by
  rw [mrtestStart, if_pos h]

theorem mrtestStart_completes_one (h0 : 0 ≤ s.a1) (h : s.a0 = 2) :
    mrtestStart s = .next (complete (setR0 1 s)) := by
  rw [mrtestStart, if_neg (by omega), if_pos h]

theorem mrtestStart_completes_zero (h0 : 0 ≤ s.a1) (h : s.a0 < 2 ∨ (s.a0 % 2 = 0 ∧ s.a0 ≠ 2)) :
    mrtestStart s = .next (complete (setR0 0 s)) := by
  rw [mrtestStart, if_neg (by omega), if_neg (by omega), if_pos (by omega)]

theorem mrwitStart_enters (h3 : 3 ≤ s.a0) (hodd : s.a0 % 2 = 1) (h : 1 ≤ s.a1 ∧ s.a1 < s.a0) :
    ∃ w, mrwitStart s = .next (setPhase .mrDecomp (setW w s)) ∧ w.hostbase = true ∧ w.rem = 1 := by
  rw [mrwitStart, if_neg (by omega), if_neg (by omega), if_neg (not_not.2 h)]
  exact ⟨_, rfl, rfl, rfl⟩

theorem mrtestStart_enters (h3 : 3 ≤ s.a0) (hodd : s.a0 % 2 = 1) (h0 : 0 ≤ s.a1) :
    ∃ w, mrtestStart s = .next (setPhase .mrDecomp (setW w s)) ∧ w.hostbase = false ∧ w.rem = s.a1 := by
  rw [mrtestStart, if_neg (by omega), if_neg (by omega), if_neg (by omega)]
  exact ⟨_, rfl, rfl, rfl⟩

/-- MRWIT runs one trial, whose base is A1 (R141). -/
theorem mrwit_completes (hturns : s.turns = []) (h3 : 3 ≤ s.a0) (hodd : s.a0 % 2 = 1)
    (h : 1 ≤ s.a1 ∧ s.a1 < s.a0) :
    ∃ w, EndsIn .mrwit s (complete (setR0 (if trial s.a0 s.a1 = true then 1 else 0) (setW w s))) := by
  obtain ⟨w, hexec, hb, hr⟩ := mrwitStart_enters (s := startCommand (encode .mrwit) s) h3 hodd h
  obtain ⟨t, hverdict, hends⟩ := trials_endIn (i := .mrwit) (by decide) hturns hexec hb hr
  cases hverdict with
  | fails f w' _ hfail => exact ⟨w', by rwa [if_neg (by simpa [trialBase] using hfail)]⟩
  | passes w' hpass =>
    have htrial : trial s.a0 s.a1 = true := hpass 0 (by decide)
    exact ⟨w', by rwa [if_pos htrial]⟩

/-- MRTEST runs its trials (R142). -/
theorem mrtest_endsIn (hturns : s.turns = []) (h3 : 3 ≤ s.a0) (hodd : s.a0 % 2 = 1) (h0 : 0 ≤ s.a1) :
    ∃ t, Verdict false s.a1 s t ∧ EndsIn .mrtest s t := by
  obtain ⟨w, hexec, hb, hr⟩ := mrtestStart_enters (s := startCommand (encode .mrtest) s) h3 hodd h0
  exact trials_endIn (by decide) hturns hexec hb hr

end Run

end Sys2Proof.Machine
end

section
/-! SUPPORT. CALL of each command from a block at rest (spec/30_encoding.md R77): the arguments written, the end
of the command, and the result read. -/

namespace Sys2Proof.Machine

section Results

variable {i : Instr} {s r : State} (h : AtRest s)
include h

/-- The result of a command that leaves R0 (R22, R77). -/
theorem AtRest.call_rd_r0 {v : Int} (he : EndsIn i s (complete (setR0 v r))) :
    ∃ t, andThen (call i s) (fun _ => rd 0x4#4) = .value v t ∧ t.drawCount = r.drawCount := by
  rw [h.call_completes he, andThen_value]
  exact ⟨_, rfl, rfl⟩

/-- A failed command leaves nothing to read (R77). -/
theorem AtRest.call_fails {α : Type} {k : ErrKind} (f : Unit → State → HostResult α)
    (he : ∃ w, EndsIn i s (raise k (setW w s))) : ∃ t, andThen (call i s) f = .failed k t := by
  obtain ⟨w, he⟩ := he
  rw [h.call_raises he, andThen_failed]
  exact ⟨_, rfl⟩

end Results

section Arguments

variable {s : State} (h : AtRest s)
include h

theorem AtRest.callPowmod_eq {x c n : Int} (hx : fits s.params x = true) (hc : fits s.params c = true)
    (hn : fits s.params n = true) :
    callPowmod x c n s =
      andThen (call .powmod (setA2 n (setA1 c (setA0 x s)))) (fun _ => rd 0x4#4) := by
  rw [callPowmod, h.wr_a0 hx, andThen_value, (h.with_a0 x).wr_a1 hc, andThen_value,
    ((h.with_a0 x).with_a1 c).wr_a2 hn, andThen_value]

theorem AtRest.callEncode_eq {text : List Byte} (hlen : upToLmax s.params text.length = true)
    (hfit : fits s.params text.length = true) :
    callEncode text s =
      andThen (call .encode (setLen text.length (setTxt (s.txt.writeString 0 text) s)))
        (fun _ => rd 0x4#4) := by
  rw [callEncode, h.wrText_eq hlen hfit, andThen_value]

theorem AtRest.callDecode_eq {v : Int} (hv : fits s.params v = true) :
    callDecode v s = andThen (call .decode (setA0 v s)) (fun _ => rdText) := by
  rw [callDecode, h.wr_a0 hv, andThen_value]

end Arguments

section Values

variable {s : State} (h : AtRest s)
include h

theorem AtRest.callPowmod_value {x c n : Int} (hx : fits s.params x = true) (hc : fits s.params c = true)
    (hn : fits s.params n = true) (h1 : 1 < n) (h0 : 0 ≤ c) :
    ∃ t, callPowmod x c n s = .value (x ^ c.toNat % n) t := by
  have hrest := ((h.with_a0 x).with_a1 c).with_a2 n
  obtain ⟨w, hends⟩ := powmod_completes hrest.turns h1 h0
  obtain ⟨t, ht, -⟩ := hrest.call_rd_r0 hends
  exact ⟨t, (h.callPowmod_eq hx hc hn).trans ht⟩

theorem AtRest.callXgcd_value {a b : Int} (ha : fits s.params a = true) (hb : fits s.params b = true)
    (hab : b < a ∧ 0 < b) :
    ∃ g x y t, callXgcd a b s = .value (g, x, y) t ∧ g = Int.gcd a b ∧ g = x * a + y * b := by
  have hrest := (h.with_a0 a).with_a1 b
  obtain ⟨x, y, w, hxy, hends⟩ := xgcd_completes hrest.turns hab
  simp only [setA1_a0, setA1_a1, setA0_a0] at hxy hends
  rw [callXgcd, h.call2_eq ha hb, hrest.call_completes hends]
  exact ⟨_, x, y, _, rfl, rfl, hxy⟩

theorem AtRest.callModinv_value {a m : Int} (ha : fits s.params a = true) (hm : fits s.params m = true)
    (ham : a < m ∧ 0 < a) (hgcd : Int.gcd a m = 1) :
    ∃ u t, callModinv a m s = .value u t ∧ 0 ≤ u ∧ u < m ∧ a * u % m = 1 := by
  have hrest := (h.with_a0 a).with_a1 m
  obtain ⟨u, w, h0, hlt, hinv, hends⟩ := modinv_completes hrest.turns ham hgcd
  obtain ⟨t, ht, -⟩ := hrest.call_rd_r0 hends
  exact ⟨u, t, by rw [callModinv, h.call2_eq ha hm, ht], h0, hlt, hinv⟩

/-- A CALL of MRWIT or MRTEST that its start step ends with result `v` (R141, R142). -/
theorem AtRest.call2_start_value {i : Instr} {x y v : Int} (hx : fits s.params x = true)
    (hy : fits s.params y = true)
    (hexec : exec i (startCommand (encode i) (setA1 y (setA0 x s))) =
      .next (complete (setR0 v (startCommand (encode i) (setA1 y (setA0 x s)))))) :
    ∃ t, andThen (call2 i x y s) (fun _ => rd 0x4#4) = .value v t ∧ t.drawCount = s.drawCount := by
  have hrest := (h.with_a0 x).with_a1 y
  obtain ⟨w, hends⟩ := completes_of_start hrest.turns hexec
  rw [h.call2_eq hx hy]
  obtain ⟨t, ht, hdraws⟩ := hrest.call_rd_r0 hends
  exact ⟨t, ht, hdraws⟩

theorem AtRest.callMrwit_two {n a : Int} (hn : fits s.params n = true) (ha : fits s.params a = true)
    (h2 : n = 2) : ∃ t, callMrwit n a s = .value 1 t := by
  obtain ⟨t, ht, -⟩ := h.call2_start_value (i := .mrwit) hn ha (mrwitStart_completes_one h2)
  exact ⟨t, ht⟩

theorem AtRest.callMrwit_zero {n a : Int} (hn : fits s.params n = true) (ha : fits s.params a = true)
    (h0 : n < 2 ∨ (n % 2 = 0 ∧ n ≠ 2)) : ∃ t, callMrwit n a s = .value 0 t := by
  obtain ⟨t, ht, -⟩ := h.call2_start_value (i := .mrwit) hn ha (mrwitStart_completes_zero h0)
  exact ⟨t, ht⟩

theorem AtRest.callMrwit_trial {n a : Int} (hn : fits s.params n = true) (ha : fits s.params a = true)
    (h3 : 3 ≤ n) (hodd : n % 2 = 1) (hbase : 1 ≤ a ∧ a < n) :
    ∃ t, callMrwit n a s = .value (if trial n a = true then 1 else 0) t := by
  have hrest := (h.with_a0 n).with_a1 a
  obtain ⟨w, hends⟩ := mrwit_completes hrest.turns h3 hodd hbase
  obtain ⟨t, ht, -⟩ := hrest.call_rd_r0 hends
  exact ⟨t, by rw [callMrwit, h.call2_eq hn ha]; exact ht⟩

theorem AtRest.callMrtest_two {n rounds : Int} (hn : fits s.params n = true)
    (hr : fits s.params rounds = true) (h0 : 0 ≤ rounds) (h2 : n = 2) :
    ∃ t, callMrtest n rounds s = .value 1 t ∧ t.drawCount = s.drawCount :=
  h.call2_start_value (i := .mrtest) hn hr (mrtestStart_completes_one h0 h2)

theorem AtRest.callMrtest_zero {n rounds : Int} (hn : fits s.params n = true)
    (hr : fits s.params rounds = true) (h0 : 0 ≤ rounds) (hn0 : n < 2 ∨ (n % 2 = 0 ∧ n ≠ 2)) :
    ∃ t, callMrtest n rounds s = .value 0 t ∧ t.drawCount = s.drawCount :=
  h.call2_start_value (i := .mrtest) hn hr (mrtestStart_completes_zero h0 hn0)

theorem AtRest.callMrtest_fails {n rounds : Int} (hn : fits s.params n = true)
    (hr : fits s.params rounds = true) (h0 : 0 ≤ rounds) (h3 : 3 ≤ n) (hodd : n % 2 = 1) {f : Nat}
    (hf : (f : Int) < rounds) (hfail : trial n (drawIn 1 n (answer s f)) = false)
    (hpass : ∀ k, k < f → trial n (drawIn 1 n (answer s k)) = true) :
    ∃ t, callMrtest n rounds s = .value 0 t ∧ t.drawCount = s.drawCount + (f + 1) := by
  have hrest := (h.with_a0 n).with_a1 rounds
  obtain ⟨t, hverdict, hends⟩ := mrtest_endsIn hrest.turns h3 hodd h0
  obtain ⟨w, rfl⟩ := hverdict.of_first_failure hf hfail hpass
  rw [callMrtest, h.call2_eq hn hr]
  exact hrest.call_rd_r0 hends

theorem AtRest.callMrtest_passes {n rounds : Int} (hn : fits s.params n = true)
    (hr : fits s.params rounds = true) (h0 : 0 ≤ rounds) (h3 : 3 ≤ n) (hodd : n % 2 = 1)
    (hpass : ∀ k : Nat, (k : Int) < rounds → trial n (drawIn 1 n (answer s k)) = true) :
    ∃ t, callMrtest n rounds s = .value 1 t ∧ t.drawCount = s.drawCount + rounds.toNat := by
  have hrest := (h.with_a0 n).with_a1 rounds
  obtain ⟨t, hverdict, hends⟩ := mrtest_endsIn hrest.turns h3 hodd h0
  obtain ⟨w, rfl⟩ := hverdict.of_all_pass hpass
  rw [callMrtest, h.call2_eq hn hr]
  exact hrest.call_rd_r0 hends

theorem AtRest.callEncode_value {text : List Byte} (hwf : s.txt.wf = true)
    (hlen : upToLmax s.params text.length = true) (hfit : fits s.params text.length = true)
    (hall : text.all isLower = true) (hv : fits s.params (encodeText text) = true) :
    ∃ t, callEncode text s = .value (encodeText text) t := by
  have hrest := (h.with_txt (s.txt.writeString 0 text)).with_len text.length
  obtain ⟨w, hends⟩ := encode_completes hrest.turns hlen (cellString_writeString hwf text) hall hv
  obtain ⟨t, ht, -⟩ := hrest.call_rd_r0 hends
  exact ⟨t, (h.callEncode_eq hlen hfit).trans ht⟩

theorem AtRest.callDecode_value {v : Int} (hwf : s.txt.wf = true) (hv : fits s.params v = true) (h0 : 0 ≤ v)
    (hlen : upToLmax s.params (decodeText v).length = true) :
    ∃ t, callDecode v s = .value (decodeText v) t := by
  have hrest := h.with_a0 v
  obtain ⟨w, hends⟩ := decode_completes hrest.turns h0 hlen
  rw [h.callDecode_eq hv, hrest.call_completes hends, andThen_value]
  exact ⟨_, rdText_of_cellString hlen (cellString_writeString hwf _)⟩

/-- After WIPE every register that held an operand or a result reads 0 (R200). -/
theorem AtRest.callWipe_value :
    ∃ t, callWipe s = .value () t ∧ t.a0 = 0 ∧ t.a1 = 0 ∧ t.r0 = 0 ∧ t.w = Working.zero := by
  have hexec : exec .wipe (startCommand (encode .wipe) s) =
      .next (complete (wiped (startCommand (encode .wipe) s))) := rfl
  exact ⟨_, h.call_completes (endsIn_of_start h.turns hexec (by simp)), rfl, rfl, rfl, rfl⟩

end Values

section Failures

variable {s : State} (h : AtRest s)
include h

theorem AtRest.callPowmod_fails {x c n : Int} (hx : fits s.params x = true) (hc : fits s.params c = true)
    (hn : fits s.params n = true) (hbad : n ≤ 1 ∨ c < 0) :
    ∃ t, callPowmod x c n s = .failed .domainError t := by
  have hrest := ((h.with_a0 x).with_a1 c).with_a2 n
  rw [h.callPowmod_eq hx hc hn]
  exact hrest.call_fails _ (powmod_raises hrest.turns hbad)

/-- A CALL with two arguments that fails (R77). -/
theorem AtRest.call2_fails {α : Type} {i : Instr} {x y : Int} {k : ErrKind} (f : Unit → State → HostResult α)
    (hx : fits s.params x = true) (hy : fits s.params y = true)
    (he : (setA1 y (setA0 x s)).turns = [] →
      ∃ w, EndsIn i (setA1 y (setA0 x s)) (raise k (setW w (setA1 y (setA0 x s))))) :
    ∃ t, andThen (call2 i x y s) f = .failed k t := by
  have hrest := (h.with_a0 x).with_a1 y
  rw [h.call2_eq hx hy]
  exact hrest.call_fails f (he hrest.turns)

theorem AtRest.callEncode_fails {text : List Byte} {k : ErrKind}
    (hlen : upToLmax s.params text.length = true) (hfit : fits s.params text.length = true)
    (he : (setLen text.length (setTxt (s.txt.writeString 0 text) s)).turns = [] →
      ∃ w, EndsIn .encode (setLen text.length (setTxt (s.txt.writeString 0 text) s))
        (raise k (setW w (setLen text.length (setTxt (s.txt.writeString 0 text) s))))) :
    ∃ t, callEncode text s = .failed k t := by
  have hrest := (h.with_txt (s.txt.writeString 0 text)).with_len text.length
  rw [h.callEncode_eq hlen hfit]
  exact hrest.call_fails _ (he hrest.turns)

theorem AtRest.callDecode_fails {v : Int} {k : ErrKind} (hv : fits s.params v = true)
    (he : (setA0 v s).turns = [] → ∃ w, EndsIn .decode (setA0 v s) (raise k (setW w (setA0 v s)))) :
    ∃ t, callDecode v s = .failed k t := by
  have hrest := h.with_a0 v
  rw [h.callDecode_eq hv]
  exact hrest.call_fails _ (he hrest.turns)

end Failures

section Settled

/-- A host program takes the turns itself, so those pending do not matter (R62). -/
theorem atRest_of_idle {s : State} (hs : statusInv s) (hp : s.phase = .idle) :
    AtRest { s with turns := [] } := ⟨not_busy_of_idle hs hp, rfl⟩

theorem callEncode_no_turns (text : List Byte) (s : State) :
    callEncode text s = callEncode text { s with turns := [] } := by
  cases text <;> rfl

/-- Settles O49: each CALL from the block at rest. -/
theorem callsReturnTheirResults : Obligations.CallsReturnTheirResults := by
  intro s hs hp hwf
  have h := atRest_of_idle hs hp
  refine ⟨fun x c n hx hc hn h1 h0 => h.callPowmod_value hx hc hn h1 h0,
    fun a b ha hb hlt h0 => h.callXgcd_value ha hb ⟨hlt, h0⟩,
    fun a m ha hm hlt h0 hgcd => h.callModinv_value ha hm ⟨hlt, h0⟩ hgcd,
    fun n a hn ha => ⟨fun h2 => h.callMrwit_two hn ha h2, fun h0 => h.callMrwit_zero hn ha h0,
      fun h3 hodd h1 hlt => h.callMrwit_trial hn ha h3 hodd ⟨h1, hlt⟩⟩,
    fun n rounds hn hr h0 => ⟨fun h2 => h.callMrtest_two hn hr h0 h2,
      fun hn0 => h.callMrtest_zero hn hr h0 hn0, fun h3 hodd =>
      ⟨fun f hf hfail hpass => h.callMrtest_fails hn hr h0 h3 hodd hf hfail hpass,
        fun hpass => h.callMrtest_passes hn hr h0 h3 hodd hpass⟩⟩,
    fun text hlen hfit hall hv => ?_,
    fun v hv h0 hlen => h.callDecode_value hwf hv h0 hlen, h.callWipe_value⟩
  rw [callEncode_no_turns]
  exact h.callEncode_value hwf hlen hfit hall hv

/-- Settles O50: each cause of an error raises it at the command's last step, and `call` reports its kind. -/
theorem callsFailWithTheErrorKind : Obligations.CallsFailWithTheErrorKind := by
  intro s hs hp hwf
  have h := atRest_of_idle hs hp
  refine ⟨fun x c n hx hc hn hbad => h.callPowmod_fails hx hc hn hbad,
    fun a b ha hb hbad => ?_,
    fun a m ha hm => ⟨fun hbad => ?_, fun hlt h0 hgcd => ?_⟩,
    fun n a hn ha h3 hodd hbad => ?_,
    fun n rounds hn hr hbad => ?_,
    fun text hlen hfit => ⟨fun hall => ?_, fun hall hv => ?_⟩,
    fun v hv => ⟨fun hbad => ?_, fun h0 hlen => ?_⟩⟩
  · exact h.call2_fails _ ha hb fun hturns => xgcd_raises hturns hbad
  · exact h.call2_fails _ ha hm fun hturns => modinv_raises_domainError hturns hbad
  · exact h.call2_fails _ ha hm fun hturns => modinv_raises_noInverseError hturns ⟨hlt, h0⟩ hgcd
  · exact h.call2_fails _ hn ha fun hturns => raises_of_start hturns (mrwitStart_raises h3 hodd hbad)
  · exact h.call2_fails _ hn hr fun hturns => raises_of_start hturns (mrtestStart_raises hbad)
  · rw [callEncode_no_turns]
    exact h.callEncode_fails hlen hfit fun hturns =>
      encode_raises_invalidCharacterError hturns hlen (cellString_writeString hwf text) hall
  · rw [callEncode_no_turns]
    exact h.callEncode_fails hlen hfit fun hturns =>
      encode_raises_capacityError hturns hlen (cellString_writeString hwf text) hall hv
  · exact h.callDecode_fails hv fun hturns => decode_raises_domainError hturns hbad
  · exact h.callDecode_fails hv fun hturns => decode_raises_capacityError hturns h0 hlen

end Settled

end Sys2Proof.Machine
end

section
/-! SUPPORT. POWMOD step by step, and its whole run counted in steps (spec/41_modexp.md R90 to R94,
spec/70_reset_and_hazards.md R283). -/

namespace Sys2Proof.Machine

section ExpStep

variable {w : Working} {i : Nat}

/-- A bit 1: square, then multiply (R93). -/
theorem expStep_of_bit_one (hi : w.i = i + 1) (hb : bit w.c i = 1) :
    expStep w = { w with i := i, z := mulmod (mulmod w.z w.z w.n) w.x w.n } := by
  simp [expStep, hi, hb]

/-- A bit 0: square only (R93). -/
theorem expStep_of_bit_zero (hi : w.i = i + 1) (hb : bit w.c i = 0) :
    expStep w = { w with i := i, z := mulmod w.z w.z w.n } := by
  simp [expStep, hi, hb]

end ExpStep

section PowmodSteps

variable {s : State}

/-- With both checks passed the start step latches the operands (R92). -/
theorem powmodStart_latches (hn : 1 < s.a2) (hc : 0 ≤ s.a1) :
    powmodStart s = .next (setPhase .pmLoop
      (setW { s.w with x := s.a0, c := s.a1, n := s.a2, z := 1, i := bitlen s.a1 } s)) := by
  rw [powmodStart, if_neg (not_le.2 hn), if_neg (not_lt.2 hc)]

theorem powmodLoop_last (hi : s.w.i = 0) : powmodLoop s = .next (complete (setR0 s.w.z s)) :=
  if_pos hi

theorem powmodLoop_bit {i : Nat} (hi : s.w.i = i + 1) :
    powmodLoop s = .next (setW (expStep s.w) s) := if_neg (by omega)

theorem exec_pmLoop (hp : s.phase = .pmLoop) (j : Instr) : exec j s = powmodLoop s := by
  rw [exec_eq_commandStep]
  simp only [commandStep, hp]

theorem step_pmLoop (hp : s.phase = .pmLoop) (hturns : s.turns = []) : step s = powmodLoop s := by
  rw [step_of_no_turns hturns, seqStep_eq_loop (by simp [hp]) powmodStart]
  simp only [commandStep, hp]

end PowmodSteps

/-- From PM_LOOP with `i` bits left, `i` steps take the bits and one more writes the power (R93, R94). -/
theorem runSteps_pmLoop (i : Nat) : ∀ {s : State}, phaseInv s → s.phase = .pmLoop → s.turns = [] →
    s.w.i = i →
    ∃ w, runSteps (i + 1) s = .next (complete (setR0 (s.a0 ^ s.a1.toNat % s.a2) (setW w s))) := by
  induction i with
  | zero =>
    intro s hinv hp hturns hi
    have hlast := powmodLoop_last hi
    have hpower := powmodLoop_endsWith hp hinv _ ((exec_pmLoop hp _).trans hlast) rfl
    exact ⟨s.w, by rw [runSteps_succ ((step_pmLoop hp hturns).trans hlast), runSteps_zero, hpower]; rfl⟩
  | succ i ih =>
    intro s hinv hp hturns hi
    have hbit := powmodLoop_bit hi
    have hinv' : phaseInv (setW (expStep s.w) s) :=
      exec_phaseInv hinv .powmod _ ((exec_pmLoop hp _).trans hbit)
    obtain ⟨w, hrun⟩ := ih hinv' hp hturns (by simp [expStep, hi])
    exact ⟨w, (runSteps_succ ((step_pmLoop hp hturns).trans hbit) _).trans hrun⟩

/-- Settles O17: the start step meets the invariant of PM_LOOP with bitlen(c) bits left. -/
theorem powmodComputesThePower : Obligations.PowmodComputesThePower := by
  intro s ⟨hp, hturns⟩ hn hc
  have hstart : exec .powmod s = .next _ := (exec_start hp .powmod).trans (powmodStart_latches hn hc)
  have hinv := execStart_phaseInv hp .powmod _ hstart
  obtain ⟨w, hrun⟩ := runSteps_pmLoop (bitlen s.a1) hinv rfl hturns rfl
  refine ⟨hstart, w, fun hcmd => ?_, Int.emod_nonneg _ (by omega), Int.emod_lt_of_pos _ (by omega)⟩
  have hstep : step s = .next _ :=
    (step_of_no_turns hturns).trans ((seqStep_eq_exec (by rw [hcmd]; rfl)).trans hstart)
  exact (runSteps_succ hstep _).trans hrun

/-- Settles O18: where neither check fails the step goes to PM_LOOP, and an error would have gone to IDLE. -/
theorem powmodDomainError : Obligations.PowmodDomainError := by
  intro s hp
  have hexec : exec .powmod s = powmodStart s := exec_start hp .powmod
  rw [hexec]
  refine ⟨powmodStart_raises, fun hraise => ?_⟩
  by_contra hok
  exact powmodStart_enters (by omega) (by omega) _ hraise rfl

/-- Settles O19: the three cases of the loop step. -/
theorem powmodLoopStep : Obligations.PowmodLoopStep := by
  intro s hp
  rw [exec_pmLoop hp]
  refine ⟨powmodLoop_last, fun i hi hb => ?_, fun i hi hb => ?_⟩
  · rw [powmodLoop_bit hi, expStep_of_bit_one hi hb]
  · rw [powmodLoop_bit hi, expStep_of_bit_zero hi hb]

end Sys2Proof.Machine
end

section
/-! SUPPORT. XGCD and MODINV step by step, and their whole runs counted in steps (spec/42_extended_gcd.md
R110 to R117, R120 to R124, spec/70_reset_and_hazards.md R283). -/

namespace Sys2Proof.Machine

section EuclidSteps

variable {s : State}

/-- XGCD has latched its arguments and the first two pairs of coefficients (R112). -/
def xgcdLatched (s : State) : State :=
  setPhase .xgLoop (setW { s.w with r0 := s.a0, r1 := s.a1, s0 := 1, s1 := 0, t0 := 0, t1 := 1 } s)

/-- MODINV has latched its arguments and the first coefficients of a (R122). -/
def modinvLatched (s : State) : State :=
  setPhase .miLoop (setW { s.w with n := s.a1, r0 := s.a1, r1 := s.a0, t0 := 0, t1 := 1 } s)

theorem exec_xgcd_latches (hp : s.phase = .start) (h : s.a1 < s.a0 ∧ 0 < s.a1) :
    exec .xgcd s = .next (xgcdLatched s) := (exec_start hp .xgcd).trans (if_pos h)

theorem exec_modinv_latches (hp : s.phase = .start) (h : s.a0 < s.a1 ∧ 0 < s.a0) :
    exec .modinv s = .next (modinvLatched s) := (exec_start hp .modinv).trans (if_pos h)

theorem xgcdLoop_last (hr : s.w.r1 = 0) :
    xgcdLoop s = .next (complete (setR2 s.w.t0 (setR1 s.w.s0 (setR0 s.w.r0 s)))) := if_pos hr

theorem xgcdLoop_divides (hr : s.w.r1 ≠ 0) : xgcdLoop s = .next (setW (xgcdDivide s.w) s) := if_neg hr

/-- With remainder 0 the loop step of MODINV ends the command, with the inverse or the error (R121, R123). -/
theorem modinvLoop_ends (hr : s.w.r1 = 0) : ∃ t, modinvLoop s = .next t ∧ t.phase = .idle := by
  rw [modinvLoop, if_pos hr]
  split_ifs
  · exact ⟨_, rfl, rfl⟩
  · exact ⟨_, rfl, rfl⟩

theorem modinvLoop_divides (hr : s.w.r1 ≠ 0) : modinvLoop s = .next (setW (modinvDivide s.w) s) := if_neg hr

theorem exec_xgLoop (hp : s.phase = .xgLoop) (i : Instr) : exec i s = xgcdLoop s := by
  rw [exec_eq_commandStep]
  simp only [commandStep, hp]

theorem exec_miLoop (hp : s.phase = .miLoop) (i : Instr) : exec i s = modinvLoop s := by
  rw [exec_eq_commandStep]
  simp only [commandStep, hp]

/-- In a loop phase the machine's step is that of any command: the latched code is not looked at (R34). -/
theorem step_eq_exec_of_loop (hturns : s.turns = []) (hp : s.phase ≠ .start) (i : Instr) :
    step s = exec i s := by
  rw [step_of_no_turns hturns, seqStep_eq_loop hp (exec i), exec_eq_loop hp i (exec i)]

theorem step_xgLoop (hp : s.phase = .xgLoop) (hturns : s.turns = []) : step s = xgcdLoop s :=
  (step_eq_exec_of_loop hturns (by simp [hp]) .xgcd).trans (exec_xgLoop hp .xgcd)

theorem step_miLoop (hp : s.phase = .miLoop) (hturns : s.turns = []) : step s = modinvLoop s :=
  (step_eq_exec_of_loop hturns (by simp [hp]) .modinv).trans (exec_miLoop hp .modinv)

/-- A whole command: its start step, the steps of its loop, its last step. -/
theorem runSteps_command {i : Instr} {u v t : State} {k : Nat} (hturns : s.turns = [])
    (hcmd : decode s.w.cmd = some i) (hstart : exec i s = .next u) (hloop : runSteps k u = .next v)
    (hlast : step v = .next t) : runSteps (k + 2) s = .next t := by
  have hstep : step s = .next u := by rw [step_of_no_turns hturns, seqStep_eq_exec hcmd, hstart]
  calc runSteps (k + 2) s = runSteps (k + 1) u := runSteps_succ hstep (k + 1)
    _ = runSteps 1 v := runSteps_add hloop 1
    _ = .next t := runSteps_succ hlast 0

end EuclidSteps

section Divisions

variable {s : State}

/-- In a remainder loop the first remainder is positive (R115, R124). -/
theorem remainder_pos (hp : s.phase ∈ [Phase.xgLoop, .miLoop]) (h : phaseInv s) : 0 < s.w.r0 := by
  have h1 := remainder_nonneg h hp
  simp only [List.mem_cons, List.not_mem_nil, or_false] at hp
  rcases hp with hp | hp <;> simp only [phaseInv, hp] at h
  · obtain ⟨-, -, -, -, -, hlt, -⟩ := h
    omega
  · obtain ⟨-, -, -, -, -, -, hlt, -⟩ := h
    omega

/-- Where the remainder is not 0, a step of either loop is a division: it changes only working registers,
keeps the invariant and lowers the bound on the divisions left (R113, R123). -/
theorem exists_division (hp : s.phase ∈ [Phase.xgLoop, .miLoop]) (hturns : s.turns = []) (h : phaseInv s)
    (hr : s.w.r1 ≠ 0) :
    ∃ w, step s = .next (setW w s) ∧ phaseInv (setW w s) ∧ divisionSteps w < divisionSteps s.w := by
  have h1 := remainder_nonneg h hp
  simp only [List.mem_cons, List.not_mem_nil, or_false] at hp
  rcases hp with hp | hp
  case inl =>
    have hdiv := xgcdLoop_divides hr
    have hinv := exec_phaseInv h .xgcd _ ((exec_xgLoop hp _).trans hdiv)
    simp only [phaseInv, hp] at h
    obtain ⟨-, -, -, -, -, hlt, -⟩ := h
    exact ⟨xgcdDivide s.w, (step_xgLoop hp hturns).trans hdiv, hinv,
      divisionSteps_lt (by omega) hlt rfl rfl⟩
  case inr =>
    have hdiv := modinvLoop_divides hr
    have hinv := exec_phaseInv h .modinv _ ((exec_miLoop hp _).trans hdiv)
    simp only [phaseInv, hp] at h
    obtain ⟨-, -, -, -, -, -, hlt, -⟩ := h
    exact ⟨modinvDivide s.w, (step_miLoop hp hturns).trans hdiv, hinv,
      divisionSteps_lt (by omega) hlt rfl rfl⟩

/-- The divisions of either loop lead to remainder 0, in fewer steps than `divisionSteps` counts, which has
the completion in it. -/
theorem runSteps_divisions (hp : s.phase ∈ [Phase.xgLoop, .miLoop]) (hturns : s.turns = [])
    (h : phaseInv s) :
    ∃ k w, k < divisionSteps s.w ∧ (s.w.r1 ≠ 0 → 1 ≤ k) ∧ runSteps k s = .next (setW w s) ∧ w.r1 = 0 ∧
      phaseInv (setW w s) := by
  induction hn : divisionSteps s.w using Nat.strong_induction_on generalizing s with
  | _ n ih =>
    by_cases hr : s.w.r1 = 0
    · exact ⟨0, s.w, hn ▸ divisionSteps_pos (remainder_pos hp h), fun hne => absurd hr hne, rfl, hr, h⟩
    · obtain ⟨v, hstep, hv, hlt⟩ := exists_division hp hturns h hr
      obtain ⟨k, w, hk, -, hrun, hw, hinv⟩ := ih _ (hn ▸ hlt) (s := setW v s) hp hturns hv rfl
      exact ⟨k + 1, w, (Nat.succ_le_of_lt hk).trans_lt (hn ▸ hlt), fun _ => Nat.le_add_left 1 k,
        (runSteps_succ hstep k).trans hrun, hw, hinv⟩

/-- From a first division on, at most two a bit of the divisor (R283). -/
theorem runSteps_divisions_of_ne_zero (hp : s.phase ∈ [Phase.xgLoop, .miLoop]) (hturns : s.turns = [])
    (h : phaseInv s) (hr : s.w.r1 ≠ 0) :
    ∃ k w, 1 ≤ k ∧ k ≤ 2 * bitlen s.w.r1 ∧ runSteps k s = .next (setW w s) ∧ w.r1 = 0 ∧
      phaseInv (setW w s) := by
  obtain ⟨k, w, hk, hk1, hrun, hw, hinv⟩ := runSteps_divisions hp hturns h
  exact ⟨k, w, hk1 hr, Nat.lt_succ_iff.1 (hk.trans_le (min_le_left _ _)), hrun, hw, hinv⟩

end Divisions

section Xgcd

/-- The values XGCD ends with: the gcd, and coefficients of bounded size that give it (R110, R115, R116). -/
theorem xgInv_results {s : State} (h : xgInv s) (hr : s.w.r1 = 0) :
    s.w.r0 = Int.gcd s.a0 s.a1 ∧ 0 < s.w.r0 ∧ s.w.r0 ≤ s.a0 ∧ s.w.r0 = s.w.s0 * s.a0 + s.w.t0 * s.a1 ∧
      |s.w.s0| ≤ s.a1 ∧ |s.w.t0| ≤ s.a0 := by
  obtain ⟨-, -, hr0, -, hgcd, hlt, h1, hle, -, -, -, -, hs0, -, ht0, -⟩ := h
  exact ⟨(gcd_of_remainder_zero hr (h1.trans hlt.le) hgcd).symm, h1.trans_lt hlt, hle, hr0, hs0, ht0⟩

/-- The run of XGCD on arguments in order: with remainder 0 after `k` divisions it ends with the other remainder
and its coefficients (R113). -/
theorem xgcd_run {s : State} {k : Nat} {w : Working} (hp : s.phase = .start) (hturns : s.turns = [])
    (hab : s.a1 < s.a0 ∧ 0 < s.a1) (hcmd : s.w.cmd = 0x02#8)
    (hloop : runSteps k (xgcdLatched s) = .next (setW w (xgcdLatched s))) (hr : w.r1 = 0) :
    runSteps (k + 2) s = .next (complete (setR2 w.t0 (setR1 w.s0 (setR0 w.r0 (setW w s))))) := by
  have hlast := (step_xgLoop (s := setW w (xgcdLatched s)) rfl hturns).trans (xgcdLoop_last hr)
  have hunder : Underway s (setW w (xgcdLatched s)) := ⟨s.status, .xgLoop, w, rfl⟩
  rw [hunder.complete_setR2] at hlast
  exact runSteps_command hturns (by rw [hcmd]; rfl) (exec_xgcd_latches hp hab) hloop hlast

/-- Settles O20: the start step meets the invariant of XG_LOOP, the divisions lead to remainder 0, and there
the invariant gives the gcd and the bounds. -/
theorem xgcdComputesBezout : Obligations.XgcdComputesBezout := by
  intro s ⟨hp, hturns⟩ hlt hpos
  have hstart := exec_xgcd_latches hp ⟨hlt, hpos⟩
  obtain ⟨k, w, hk1, hk, hrun, hr, hinv⟩ := runSteps_divisions_of_ne_zero (s := xgcdLatched s)
    (by simp [xgcdLatched]) hturns (execStart_phaseInv hp .xgcd _ hstart) hpos.ne'
  obtain ⟨hgcd, hg0, hga, hbezout, hx, hy⟩ := xgInv_results (s := setW w (xgcdLatched s)) hinv hr
  exact ⟨hstart, k, w.r0, w.s0, w.t0, w, fun hcmd => xgcd_run hp hturns ⟨hlt, hpos⟩ hcmd hrun hr,
    hk1, hk, hgcd, hg0, hbezout, hx, hy,
    fun ha hb => ⟨fits_of_le ha hg0.le hga, fits_of_abs_le hb hx, fits_of_abs_le ha hy⟩⟩

/-- Settles O21: with the arguments in order the step goes to XG_LOOP, and an error would have gone to IDLE. -/
theorem xgcdDomainError : Obligations.XgcdDomainError := by
  intro s hp
  have hexec : exec .xgcd s = xgcdStart s := exec_start hp .xgcd
  rw [hexec]
  exact ⟨xgcdStart_raises, fun hraise hok => xgcdStart_enters hok _ hraise rfl⟩

/-- A division of XGCD whose quotient and remainder are known (R113). -/
theorem exists_xgcd_division {s : State} {q r : Int} (hp : s.phase = .xgLoop) (hturns : s.turns = [])
    (hr1 : s.w.r1 ≠ 0) (hq : s.w.r0 / s.w.r1 = q) (hr : s.w.r0 - q * s.w.r1 = r) :
    ∃ w, step s = .next (setW w s) ∧ w.r0 = s.w.r1 ∧ w.r1 = r ∧ w.s0 = s.w.s1 ∧
      w.s1 = s.w.s0 - q * s.w.s1 ∧ w.t0 = s.w.t1 ∧ w.t1 = s.w.t0 - q * s.w.t1 := by
  subst hq hr
  exact ⟨xgcdDivide s.w, (step_xgLoop hp hturns).trans (xgcdLoop_divides hr1), rfl, rfl, rfl, rfl, rfl, rfl⟩

/-- Settles O22: the one division of a by b leaves remainder 0; the two of b + 1 have quotients 1 and b
and leave 1 and then 0. -/
theorem xgcdCornerCases : Obligations.XgcdCornerCases := by
  intro s ⟨hp, hturns⟩ hcmd hlt hpos
  refine ⟨fun hdvd => ?_, fun hsucc hb => ?_⟩
  · obtain ⟨w, hdiv, hr0, hr1, hs0, -, ht0, -⟩ := exists_xgcd_division (s := xgcdLatched s) rfl hturns
      hpos.ne' rfl (sub_eq_zero.2 (Int.ediv_mul_cancel hdvd).symm)
    have hrun := xgcd_run hp hturns ⟨hlt, hpos⟩ hcmd (runSteps_succ hdiv 0) hr1
    rw [hr0, hs0, ht0] at hrun
    exact ⟨w, hrun⟩
  · have hq : s.a0 / s.a1 = 1 := ((Int.ediv_emod_unique (r := 1) hpos).2 ⟨by omega, by omega, by omega⟩).1
    obtain ⟨v, hdiv, hr0, hr1, -, hs1, -, ht1⟩ := exists_xgcd_division (s := xgcdLatched s) rfl hturns
      hpos.ne' hq (show s.a0 - 1 * s.a1 = 1 by omega)
    obtain ⟨w, hdiv', hr0', hr1', hs0', -, ht0', -⟩ := exists_xgcd_division (s := setW v (xgcdLatched s))
      (q := s.a1) (r := 0) rfl hturns (by simp [hr1]) (by simp [hr0, hr1, xgcdLatched])
      (by simp [hr0, hr1, xgcdLatched])
    have hrun := xgcd_run hp hturns ⟨hlt, hpos⟩ hcmd
      ((runSteps_succ hdiv 1).trans (runSteps_succ hdiv' 0)) hr1'
    simp only [hr0', hs0', ht0', setW_w, hr1, hs1, ht1] at hrun
    exact ⟨w, hrun⟩

end Xgcd

section Modinv

/-- Two inverses of `a` modulo `m` in [0, m) are the same (R120). -/
theorem inverse_unique {a m u v : Int} (hgcd : Int.gcd a m = 1) (hu0 : 0 ≤ u) (hum : u < m) (hv0 : 0 ≤ v)
    (hvm : v < m) (hu : a * u % m = 1) (hv : a * v % m = 1) : v = u := by
  have hmod : v ≡ u [ZMOD m / Int.gcd m a] :=
    Int.ModEq.cancel_left_div_gcd (hu0.trans_lt hum) (hv.trans hu.symm)
  rw [Int.gcd_comm, hgcd, Nat.cast_one, Int.ediv_one] at hmod
  calc v = v % m := (Int.emod_eq_of_lt hv0 hvm).symm
    _ = u % m := hmod
    _ = u := Int.emod_eq_of_lt hu0 hum

/-- The run of MODINV on arguments in order: divisions to remainder 0, then the end that the gcd decides.
`complete` and `raise` set STATUS and phase again, so of the loop only its working registers are left (R14). -/
theorem modinv_run {s : State} (hp : s.phase = .start) (hturns : s.turns = [])
    (ham : s.a0 < s.a1 ∧ 0 < s.a0) :
    ∃ k w t, 1 ≤ k ∧ k ≤ 2 * bitlen s.a0 ∧ ModinvEnd (setW w s) t ∧
      (s.w.cmd = 0x03#8 → runSteps (k + 2) s = .next t) := by
  have hstart := exec_modinv_latches hp ham
  obtain ⟨k, w, hk1, hk, hrun, hr, hinv⟩ := runSteps_divisions_of_ne_zero (s := modinvLatched s)
    (by simp [modinvLatched]) hturns (execStart_phaseInv hp .modinv _ hstart) ham.2.ne'
  obtain ⟨t, hlast, hidle⟩ := modinvLoop_ends (s := setW w (modinvLatched s)) hr
  refine ⟨k, w, t, hk1, hk, modinvLoop_endsWith rfl hinv t ((exec_miLoop rfl .modinv).trans hlast) hidle,
    fun hcmd => ?_⟩
  exact runSteps_command hturns (by rw [hcmd]; rfl) hstart hrun
    ((step_miLoop (s := setW w (modinvLatched s)) rfl hturns).trans hlast)

/-- Settles O23: `modinv_run` with gcd 1, and the inverse is unique. -/
theorem modinvComputesTheInverse : Obligations.ModinvComputesTheInverse := by
  intro s ⟨hp, hturns⟩ hlt hpos hgcd
  obtain ⟨k, w, t, hk1, hk, ⟨hone, -⟩, hrun⟩ := modinv_run hp hturns ⟨hlt, hpos⟩
  obtain ⟨u, hu0, hum, hinv, rfl⟩ := hone hgcd
  exact ⟨exec_modinv_latches hp ⟨hlt, hpos⟩, k, u, w, hrun, hk1, hk, hu0, hum,
    hinv, fun v hv0 hvm hv => inverse_unique hgcd hu0 hum hv0 hvm hinv hv⟩

/-- Settles O24: the check of the start step, and `modinv_run` with another gcd. -/
theorem modinvErrors : Obligations.ModinvErrors := by
  refine ⟨fun s hp hno => (exec_start hp .modinv).trans (modinvStart_raises hno),
    fun s ⟨hp, hturns⟩ hcmd hlt hpos hgcd => ?_⟩
  obtain ⟨k, w, t, hk1, hk, ⟨-, hne⟩, hrun⟩ := modinv_run hp hturns ⟨hlt, hpos⟩
  exact ⟨k, w, hk1, hk, by rw [hrun hcmd, hne hgcd]⟩

end Modinv

end Sys2Proof.Machine
end

section
/-! SUPPORT. One trial against a prime, and against 9 (spec/43_miller_rabin.md R140, R152): Fermat's theorem, and
modulo a prime only 1 and n - 1 have square 1. -/

namespace Sys2Proof.Machine

section Prime

variable {n : Nat}

/-- Modulo a prime the square roots of 1 are 1 and -1. -/
theorem sqrt_one_mod_prime (hn : n.Prime) {b : Int} (h0 : 0 ≤ b) (hlt : b < n) (h : b ^ 2 % n = 1) :
    b = 1 ∨ b = n - 1 := by
  have hb : b ≠ 0 := fun hb => absurd h (by simp [hb])
  have hdvd : (n : Int) ∣ (b - 1) * (b + 1) := by
    convert Int.dvd_self_sub_of_emod_eq h using 1
    ring
  rcases (Nat.prime_iff_prime_int.1 hn).dvd_or_dvd hdvd with hdvd | hdvd
  · have := Int.eq_zero_of_dvd_of_nonneg_of_lt (by omega) (by omega) hdvd
    omega
  · have := Int.le_of_dvd (by omega) hdvd
    omega

theorem squares_eq_pow (n : Int) (a : Int) (j : Nat) : squares n (a % n) j = a ^ 2 ^ j % n := by
  induction j with
  | zero => rw [squares, pow_zero, pow_one]
  | succ j ih =>
    calc squares n (a % n) (j + 1) = (a ^ 2 ^ j % n) ^ 2 % n := by rw [squares, ih]
      _ = (a ^ 2 ^ j) ^ 2 % n := ((Int.mod_modEq _ n).pow 2)
      _ = a ^ 2 ^ (j + 1) % n := by rw [← pow_mul, ← pow_succ]

/-- Squarings that end in 1 start from 1 or pass through n - 1. -/
theorem exists_squares_eq_pred (hn : n.Prime) {a : Int} (k : Nat) (h : squares n (a % n) k = 1) :
    a % n = 1 ∨ ∃ j, j < k ∧ squares n (a % n) j = n - 1 := by
  have hpos : (0 : Int) < n := by exact_mod_cast hn.pos
  induction k with
  | zero => exact .inl h
  | succ k ih =>
    have hroot : squares n (a % n) k = 1 ∨ squares n (a % n) k = n - 1 := by
      refine sqrt_one_mod_prime hn ?_ ?_ h <;> rw [squares_eq_pow]
      · exact Int.emod_nonneg _ hpos.ne'
      · exact Int.emod_lt_of_pos _ hpos
    rcases hroot with hone | hpred
    · exact (ih hone).imp_right fun ⟨j, hj, hsq⟩ => ⟨j, hj.trans k.lt_succ_self, hsq⟩
    · exact .inr ⟨k, k.lt_succ_self, hpred⟩

/-- Fermat's little theorem for a base in [1, n). -/
theorem pow_pred_mod_prime (hn : n.Prime) {a : Int} (h1 : 1 ≤ a) (hlt : a < n) : a ^ (n - 1) % n = 1 := by
  have hndvd : ¬ (n : Int) ∣ a := fun hdvd => absurd (Int.le_of_dvd (by omega) hdvd) (not_le.2 hlt)
  have hcoprime : IsCoprime a n := ((Nat.prime_iff_prime_int.1 hn).coprime_iff_not_dvd.2 hndvd).symm
  have hmod : a ^ (n - 1) % n = 1 % n := Int.ModEq.pow_card_sub_one_eq_one hn hcoprime
  rw [hmod, Int.emod_eq_of_lt Int.one_nonneg (by omega)]

/-- Every base in [1, n) passes the trial of a prime n (R152). -/
theorem trial_of_prime (hn : n.Prime) (h3 : 3 ≤ n) {a : Int} (h1 : 1 ≤ a) (hlt : a < n) :
    trial n a = true := by
  obtain ⟨k, m, hodd, hsplit⟩ := Nat.exists_eq_two_pow_mul_odd (n := n - 1) (by omega)
  have hsplit' : (n : Int) - 1 = 2 ^ k * m := by
    rw [← Nat.cast_one, ← Nat.cast_sub (by omega), hsplit]
    push_cast
    rfl
  have hfermat : squares n (a ^ m % n) k = 1 := by
    rw [squares_eq_pow, ← pow_mul, mul_comm, ← hsplit, pow_pred_mod_prime hn h1 hlt]
  rw [trial_iff (by exact_mod_cast hodd.pos) (by exact_mod_cast Nat.odd_iff.1 hodd) hsplit', Int.toNat_natCast]
  exact exists_squares_eq_pred hn k hfermat

theorem prime_odd (hn : n.Prime) (h3 : 3 ≤ n) : (n : Int) % 2 = 1 := by
  have := hn.eq_two_or_odd
  omega

end Prime

/-- 9 - 1 = 2^3 * 1. -/
theorem trial_nine_iff (a : Int) :
    trial 9 a = true ↔ a % 9 = 1 ∨ ∃ j, j < 3 ∧ squares 9 (a % 9) j = 8 := by
  simpa using trial_iff (n := 9) (m := 1) (a := a) (k := 3) (by decide) (by decide) (by decide)

/-- The bases of 9 strictly between 1 and 8 fail: they are no 1, and their squarings never reach 8 (R152). -/
theorem trial_nine_fails {a : Int} (h1 : 1 < a) (h8 : a < 8) : trial 9 a = false := by
  rw [← Bool.not_eq_true, trial_nine_iff]
  interval_cases a <;> decide

end Sys2Proof.Machine
end

section
/-! SUPPORT. MRWIT and MRTEST step by step, and the verdict in which their whole runs end
(spec/43_miller_rabin.md R141 to R147, R151, R152). -/

namespace Sys2Proof.Machine

section Runs

variable {i : Instr} {s : State}

/-- A running command comes to its last step, and what every step but the last keeps holds before that step. -/
theorem Running.runs_to_lastStep {I : State → Prop}
    (hkeep : ∀ u v, Running i u → I u → exec i u = .next v → v.phase ≠ .idle → I v)
    (h : Running i s) (hI : I s) :
    ∃ k u t, Running i u ∧ I u ∧ exec i u = .next t ∧ t.phase = .idle ∧ runSteps k s = .next t := by
  induction hn : stepsLeft s using Nat.strong_induction_on generalizing s with
  | _ n ih =>
    obtain ⟨t, hstep, hlt, hnext⟩ := h.step
    have hexec : exec i s = .next t := by
      rw [← hstep, step_of_no_turns h.turns, seqStep_eq_exec h.cmd]
    rcases hnext with ⟨hidle, -⟩ | hrun
    · exact ⟨1, s, t, h, hI, hexec, hidle, runSteps_succ hstep 0⟩
    · have hne : t.phase ≠ .idle := fun hidle => idle_notMem_commandPhases i (hidle ▸ hrun.phase_mem)
      obtain ⟨k, u, v, hu, hIu, hv, hidle, hsteps⟩ := ih _ (hn ▸ hlt) hrun (hkeep s t h hI hexec hne) rfl
      exact ⟨k + 1, u, v, hu, hIu, hv, hidle, (runSteps_succ hstep k).trans hsteps⟩

variable {host : Bool} {rounds : Int} {u : State}

/-- From a loop phase a test runs to the verdict of its trials. -/
theorem verdict_of_trialsInPhase (hi : i ∈ [Instr.mrwit, .mrtest]) (hu : Running i u) (hne : u.phase ≠ .start)
    (h : TrialsInPhase host rounds s u) : ∃ k t, Verdict host rounds s t ∧ runSteps k u = .next t := by
  have hmem : ∀ {v}, Running i v → v.phase ≠ .start →
      v.phase ∈ [Phase.mrDecomp, .mrTrial, .mrExp, .mrCheck] :=
    fun hv hne => mr_tail_phases hi ▸ mem_tail_commandPhases hv.phase_mem hne
  have hkeep : ∀ v v', Running i v → v.phase ≠ .start ∧ TrialsInPhase host rounds s v →
      exec i v = .next v' → v'.phase ≠ .idle → v'.phase ≠ .start ∧ TrialsInPhase host rounds s v' := by
    intro v v' hv ⟨hne, h⟩ hexec _
    exact ⟨fun hs => start_notMem_nextPhases i v.phase (hs ▸ (exec_step i hexec).phase_mem),
      (h.exec (hmem hv hne) hv.inv i).1 v' hexec⟩
  obtain ⟨k, v, t, hv, ⟨hne, h⟩, hexec, hidle, hsteps⟩ := hu.runs_to_lastStep hkeep ⟨hne, h⟩
  exact ⟨k, t, (h.exec (hmem hv hne) hv.inv i).2 t hexec hidle, hsteps⟩

/-- A test whose start step goes on to the decomposition runs to the verdict of its trials. -/
theorem trials_run {w : Working} (hi : i ∈ [Instr.mrwit, .mrtest]) (hready : ready s)
    (hcmd : decode s.w.cmd = some i) (hexec : exec i s = .next (setPhase .mrDecomp (setW w s)))
    (hb : w.hostbase = host) (hr : w.rem = rounds) :
    ∃ k t, Verdict host rounds s t ∧ runSteps k s = .next t := by
  obtain ⟨hp, hturns⟩ := hready
  have hrun : Running i s :=
    ⟨hturns, hcmd, hp ▸ start_mem_commandPhases i, by simp [phaseInv, hp],
      fun hi' => absurd (hi' ▸ hi) (by decide)⟩
  have hrun' : Running i (setPhase .mrDecomp (setW w s)) :=
    ((exec_step i hexec).ended_or_running hrun (execStart_phaseInv hp i _ hexec)).resolve_left
      (by simp [Ended])
  have htrials : TrialsInPhase host rounds s (setPhase .mrDecomp (setW w s)) := by
    refine ⟨0, ?_, hb, by simp [hr], fun k hk => absurd hk (Nat.not_lt_zero k)⟩
    rw [show drawsMade host 0 = 0 by cases host <;> rfl]
    exact ⟨s.status, .mrDecomp, w, rfl⟩
  obtain ⟨k, t, hverdict, hsteps⟩ := verdict_of_trialsInPhase hi hrun' (by simp) htrials
  have hstep : step s = .next (setPhase .mrDecomp (setW w s)) := by
    rw [step_of_no_turns hturns, seqStep_eq_exec hcmd, hexec]
  exact ⟨k + 1, t, hverdict, (runSteps_succ hstep k).trans hsteps⟩

end Runs

section Mrwit

variable {s : State}

/-- The one trial of MRWIT is its verdict (R141). -/
theorem Verdict.of_one_trial {t : State} (h : Verdict true 1 s t) :
    ∃ w, t = complete (setR0 (if trial s.a0 s.a1 = true then 1 else 0) (setW w s)) := by
  cases h with
  | fails f w _ hfail => exact ⟨w, by rw [if_neg (by simpa [trialBase] using hfail)]; rfl⟩
  | passes w hpass =>
    have htrial : trial s.a0 s.a1 = true := hpass 0 (by decide)
    exact ⟨w, by rw [if_pos htrial]; rfl⟩

theorem exec_mrwit_latches (hp : s.phase = .start) (h3 : 3 ≤ s.a0) (hodd : s.a0 % 2 = 1)
    (h : 1 ≤ s.a1 ∧ s.a1 < s.a0) :
    exec .mrwit s = .next (setPhase .mrDecomp
      (setW { s.w with n := s.a0, a := s.a1, hostbase := true, rem := 1, m := s.a0 - 1, k := 0 } s)) := by
  rw [exec_start hp .mrwit, mrwitStart, if_neg (by omega), if_neg (by omega), if_neg (not_not.2 h)]

theorem mrwit_run (hready : ready s) (hcmd : s.w.cmd = 0x04#8) (h3 : 3 ≤ s.a0) (hodd : s.a0 % 2 = 1)
    (h : 1 ≤ s.a1 ∧ s.a1 < s.a0) :
    ∃ k w, runSteps k s =
      .next (complete (setR0 (if trial s.a0 s.a1 = true then 1 else 0) (setW w s))) := by
  obtain ⟨k, t, hverdict, hrun⟩ := trials_run (i := .mrwit) (by decide) hready (by rw [hcmd]; rfl)
    (exec_mrwit_latches hready.1 h3 hodd h) rfl rfl
  obtain ⟨w, rfl⟩ := hverdict.of_one_trial
  exact ⟨k, w, hrun⟩

/-- Settles O25: the cases of the start step, and the verdict of one trial with base A1. -/
theorem mrwitRunsOneTrial : Obligations.MrwitRunsOneTrial := by
  intro s hready
  have hexec : exec .mrwit s = mrwitStart s := exec_start hready.1 .mrwit
  refine ⟨fun h2 => hexec.trans (mrwitStart_completes_one h2),
    fun h0 => hexec.trans (mrwitStart_completes_zero h0),
    fun h3 hodd hbad => hexec.trans (mrwitStart_raises h3 hodd hbad),
    fun h3 hodd h1 hlt hcmd => ⟨?_, ?_⟩⟩
  · exact exec_mrwit_latches hready.1 h3 hodd ⟨h1, hlt⟩
  · exact mrwit_run hready hcmd h3 hodd ⟨h1, hlt⟩

end Mrwit

section Mrtest

variable {s : State}

theorem exec_mrtest_latches (hp : s.phase = .start) (h0 : 0 ≤ s.a1) (h3 : 3 ≤ s.a0) (hodd : s.a0 % 2 = 1) :
    exec .mrtest s = .next (setPhase .mrDecomp
      (setW { s.w with n := s.a0, hostbase := false, rem := s.a1, m := s.a0 - 1, k := 0 } s)) := by
  rw [exec_start hp .mrtest, mrtestStart, if_neg (by omega), if_neg (by omega), if_neg (by omega)]

theorem mrtest_run (hready : ready s) (hcmd : s.w.cmd = 0x05#8) (h0 : 0 ≤ s.a1) (h3 : 3 ≤ s.a0)
    (hodd : s.a0 % 2 = 1) : ∃ k t, Verdict false s.a1 s t ∧ runSteps k s = .next t :=
  trials_run (i := .mrtest) (by decide) hready (by rw [hcmd]; rfl)
    (exec_mrtest_latches hready.1 h0 h3 hodd) rfl rfl

theorem mrtest_run_passes (hready : ready s) (hcmd : s.w.cmd = 0x05#8) (h0 : 0 ≤ s.a1) (h3 : 3 ≤ s.a0)
    (hodd : s.a0 % 2 = 1) (hpass : ∀ k : Nat, (k : Int) < s.a1 → trial s.a0 (drawnBase s k) = true) :
    ∃ k w, runSteps k s = .next (complete (setR0 1 (afterDraws s.a1.toNat (setW w s)))) := by
  obtain ⟨k, t, hverdict, hrun⟩ := mrtest_run hready hcmd h0 h3 hodd
  obtain ⟨w, rfl⟩ := hverdict.of_all_pass hpass
  exact ⟨k, w, hrun⟩

/-- Settles O26: the cases of the start step, and the verdict of the trials with the bases drawn. -/
theorem mrtestRunsTheTrials : Obligations.MrtestRunsTheTrials := by
  intro s hready
  have hexec : exec .mrtest s = mrtestStart s := exec_start hready.1 .mrtest
  refine ⟨fun hneg => hexec.trans (mrtestStart_raises hneg),
    fun h0 h2 => hexec.trans (mrtestStart_completes_one h0 h2),
    fun h0 hn => hexec.trans (mrtestStart_completes_zero h0 hn),
    fun h0 h3 hodd hcmd => ⟨exec_mrtest_latches hready.1 h0 h3 hodd, fun f hf hfail hpass => ?_,
      mrtest_run_passes hready hcmd h0 h3 hodd⟩⟩
  obtain ⟨k, t, hverdict, hrun⟩ := mrtest_run hready hcmd h0 h3 hodd
  obtain ⟨w, rfl⟩ := hverdict.of_first_failure hf hfail hpass
  exact ⟨k, w, hrun⟩

/-- Settles O29: with no round every trial that is to pass passes, and none draws. -/
theorem mrtestWithZeroRounds : Obligations.MrtestWithZeroRounds := by
  intro s hready hcmd hrounds h3 hodd
  obtain ⟨k, w, hrun⟩ := mrtest_run_passes hready hcmd hrounds.ge h3 hodd fun k hk => by omega
  rw [hrounds] at hrun
  exact ⟨k, w, hrun⟩

end Mrtest

section Verdicts

/-- Settles O27: Fermat's theorem makes every trial pass, the one of MRWIT and those of MRTEST. -/
theorem noFalseCompositeVerdict : Obligations.NoFalseCompositeVerdict := by
  intro n hn h3
  have h3' : (3 : Int) ≤ n := by exact_mod_cast h3
  refine ⟨fun a => trial_of_prime hn h3, fun s hready ha0 hcmd h1 hlt => ?_,
    fun s hready ha0 hcmd h0 => ?_⟩
  · obtain ⟨k, w, hrun⟩ := mrwit_run hready hcmd (ha0 ▸ h3') (ha0 ▸ prime_odd hn h3) ⟨h1, ha0 ▸ hlt⟩
    rw [ha0, if_pos (trial_of_prime hn h3 h1 hlt)] at hrun
    exact ⟨k, _, hrun, rfl, rfl, by simp⟩
  · have hpass : ∀ k : Nat, (k : Int) < s.a1 → trial s.a0 (drawnBase s k) = true := by
      intro k _
      obtain ⟨hlo, hhi⟩ := drawIn_range (lo := 1) (hi := n) (by omega) (answer s k)
      rw [drawnBase, ha0]
      exact trial_of_prime hn h3 hlo hhi
    obtain ⟨k, w, hrun⟩ := mrtest_run_passes hready hcmd h0 (ha0 ▸ h3') (ha0 ▸ prime_odd hn h3) hpass
    exact ⟨k, _, hrun, rfl, rfl, by simp⟩

/-- Answers that the environment has fixed come before the free values (R143). -/
theorem answer_replicate {v : Int} {rounds k : Nat} (hk : k < rounds) (s : State) :
    answer { s with draws := List.replicate rounds v } k = v := by
  simp [answer, hk]

/-- Settles O28: the bases one by one, and for MRTEST as many answers 1 as there are rounds. -/
theorem nineHasTwoPassingBases : Obligations.NineHasTwoPassingBases := by
  have h1 : trial 9 1 = true := (trial_nine_iff 1).2 (.inl rfl)
  have h8 : trial 9 8 = true := (trial_nine_iff 8).2 (.inr ⟨0, by decide, rfl⟩)
  refine ⟨⟨h1, h8, fun a => trial_nine_fails⟩, fun s hready hcmd ha0 h0 => ?_⟩
  have hpass : ∀ k : Nat, (k : Int) < s.a1 →
      trial s.a0 (drawnBase { s with draws := List.replicate s.a1.toNat 1 } k) = true := by
    intro k hk
    rw [drawnBase, answer_replicate (by omega), ha0, drawIn_of_mem le_rfl (by decide), h1]
  obtain ⟨k, w, hrun⟩ := mrtest_run_passes (s := { s with draws := List.replicate s.a1.toNat 1 })
    hready hcmd h0 (by simp [ha0]) (by simp [ha0]) hpass
  exact ⟨_, k, _, hrun, rfl, rfl, by simp⟩

end Verdicts

section Draws

variable {i : Instr} {s t : State}

theorem exec_mrTrial (hp : s.phase = .mrTrial) (i : Instr) : exec i s = mrTrialStep s := by
  rw [exec_eq_commandStep]
  simp only [commandStep, hp]

theorem mrTrialStep_last (hrem : s.w.rem = 0) : mrTrialStep s = .next (complete (setR0 1 s)) := if_pos hrem

theorem mrTrialStep_hostbase (hrem : s.w.rem ≠ 0) (hb : s.w.hostbase = true) :
    mrTrialStep s = .next (mrBegin s.w.a s) := by
  rw [mrTrialStep, if_neg hrem, if_pos hb]

/-- A trial of MRTEST that begins has drawn its base from a range that is not empty (R147). -/
theorem mrTrialStep_draws (hrem : s.w.rem ≠ 0) (hb : s.w.hostbase = false) (h : mrTrialStep s = .next t) :
    1 < s.w.n ∧ t = mrBegin (drawIn 1 s.w.n (answer s 0)) (afterDraws 1 s) := by
  rw [mrTrialStep, if_neg hrem, if_neg (by simp [hb])] at h
  split_ifs at h with hn
  exact ⟨hn, (Host.Outcome.next.inj h).symm⟩

/-- The end of a command, whatever it writes, leaves the oracle's position (R22). -/
theorem exec_ends_same_draws (hbusy : s.phase ≠ .idle) (h : exec i s = .next t) (hidle : t.phase = .idle) :
    t.draws = s.draws ∧ t.drawCount = s.drawCount := by
  cases exec_outcome hbusy h with
  | goesOn p w d hp => exact absurd hidle hp
  | raises => exact ⟨rfl, rfl⟩
  | oneResult => exact ⟨rfl, rfl⟩
  | threeResults => exact ⟨rfl, rfl⟩
  | textResult => exact ⟨rfl, rfl⟩
  | wipes => exact ⟨rfl, rfl⟩

/-- Outside MR_TRIAL no step moves the oracle (R147). -/
theorem exec_same_draws (hp : s.phase ≠ .mrTrial) (h : exec i s = .next t) :
    t.draws = s.draws ∧ t.drawCount = s.drawCount := by
  cases exec_step i h with
  | stays => exact ⟨rfl, rfl⟩
  | goesOn p w d _ _ _ hd =>
    rw [hd hp]
    exact ⟨rfl, rfl⟩
  | raises => exact ⟨rfl, rfl⟩
  | completes r _ hr =>
    have hbusy : s.phase ≠ .idle := fun hidle => by simp [IsResult, hidle] at hr
    exact exec_ends_same_draws hbusy h rfl

/-- Settles O30: outside MR_TRIAL a step leaves the oracle; in MR_TRIAL the three branches of its step. -/
theorem oneDrawAtEachDrawnTrial : Obligations.OneDrawAtEachDrawnTrial := by
  intro i s t h
  refine ⟨fun hp hrem hb => ?_, fun hno => ?_⟩
  · obtain ⟨hn, rfl⟩ := mrTrialStep_draws hrem hb ((exec_mrTrial hp i).symm.trans h)
    obtain ⟨hlo, hhi⟩ := drawIn_range hn (answer s 0)
    exact ⟨List.drop_one, rfl, rfl, hlo, hhi⟩
  · by_cases hp : s.phase = .mrTrial
    case neg => exact exec_same_draws hp h
    rw [exec_mrTrial hp] at h
    by_cases hrem : s.w.rem = 0
    · rw [mrTrialStep_last hrem] at h
      obtain rfl := Host.Outcome.next.inj h
      exact ⟨rfl, rfl⟩
    · have hb : s.w.hostbase = true := (hno.resolve_left (not_not.2 hp)).resolve_left hrem
      rw [mrTrialStep_hostbase hrem hb] at h
      obtain rfl := Host.Outcome.next.inj h
      exact ⟨rfl, rfl⟩

/-- Settles O31: the range of `drawIn`, and an answer in the range is drawn as it is. -/
theorem drawsCoverTheirRange : Obligations.DrawsCoverTheirRange :=
  fun _ _ hlt => ⟨drawIn_range hlt, fun _ => drawIn_of_mem⟩

end Draws

end Sys2Proof.Machine
end

section
/-! SUPPORT. The base-26 codec as functions: the range of encode(s), and the two round trips
(spec/44_codec.md R170, R172, R184). -/

namespace Sys2Proof.Machine

section Values

variable {v : Int} {str : List Byte} {ch : Byte}

/-- Induction along the base-26 digits: a value follows from the value without its last digit (R170). -/
theorem base26_induction {P : ∀ v : Int, 0 ≤ v → Prop} (zero : P 0 le_rfl)
    (digit : ∀ v (hpos : 0 < v), P (v / 26) (Int.ediv_nonneg hpos.le (by norm_num)) → P v hpos.le)
    (v : Int) (hv : 0 ≤ v) : P v hv := by
  induction hn : bitlen v using Nat.strong_induction_on generalizing v with
  | _ n ih =>
    rcases hv.eq_or_lt with rfl | hpos
    · exact zero
    · exact digit v hpos (ih _ (hn ▸ bitlen_div_lt hpos) _ _ rfl)

theorem all_isLower_append_singleton :
    (str ++ [ch]).all isLower = true ↔ str.all isLower = true ∧ isLower ch = true := by
  simp

/-- The value of L letters has at most L base-26 digits (R172). -/
theorem encodeText_range (hall : str.all isLower = true) :
    0 ≤ encodeText str ∧ encodeText str < 26 ^ str.length := by
  induction str using List.reverseRecOn with
  | nil => simp [encodeText]
  | append_singleton str ch ih =>
    obtain ⟨hstr, hch⟩ := all_isLower_append_singleton.1 hall
    obtain ⟨h0, hlt⟩ := ih hstr
    obtain ⟨hd0, hd⟩ := letterIndex_range hch
    rw [encodeText_append, List.length_append, List.length_singleton, pow_succ]
    constructor <;> omega

theorem encodeText_decodeText (h : 0 ≤ v) : encodeText (decodeText v) = v := by
  induction v, h using base26_induction with
  | zero => rw [decodeText_zero, encodeText]
  | digit v hpos ih =>
    rw [decodeText_pos hpos, encodeText_append, ih,
      letterIndex_chr (Int.emod_nonneg v (by norm_num)) (Int.emod_lt_of_pos v (by norm_num))]
    exact Int.ediv_mul_add_emod v 26

theorem decodeText_ne_nil (h : 0 < v) : decodeText v ≠ [] := by
  rw [decodeText_pos h]
  exact List.concat_ne_nil _ _

/-- The letter of a digit is `a` for 0 only (R171). -/
theorem chr_ne_a {d : Int} (h0 : 0 < d) (h1 : d < 26) : chr d ≠ 0x61#8 := by
  intro h
  have hnat := congrArg BitVec.toNat h
  rw [chr_toNat h0.le h1] at hnat
  simp only [BitVec.toNat_ofNat] at hnat
  omega

/-- The most significant digit of a value is not 0 (R184). -/
theorem decodeText_leading (h : 0 ≤ v) :
    decodeText v = [] ∨ ∃ ch rest, decodeText v = ch :: rest ∧ ch ≠ 0x61#8 := by
  induction v, h using base26_induction with
  | zero => exact .inl decodeText_zero
  | digit v hpos ih =>
    refine .inr ?_
    rw [decodeText_pos hpos]
    rcases ih with hnil | ⟨ch, rest, hcons, hch⟩
    · have hquot : ¬ 0 < v / 26 := fun hquot => decodeText_ne_nil hquot hnil
      rw [hnil]
      exact ⟨_, [], rfl, chr_ne_a (by omega) (by omega)⟩
    · rw [hcons]
      exact ⟨ch, _, rfl, hch⟩

theorem stripText_append_of_nil (h : stripText str = []) : stripText (str ++ [ch]) = stripText [ch] := by
  simp only [stripText] at h ⊢
  rw [List.dropWhile_append, h]
  rfl

theorem stripText_append_of_ne_nil (h : stripText str ≠ []) :
    stripText (str ++ [ch]) = stripText str ++ [ch] := by
  simp only [stripText] at h ⊢
  rw [List.dropWhile_append, if_neg (by simpa using h)]

/-- The digit of a letter, decoded alone: nothing for `a`, else the letter (R184). -/
theorem decodeText_letterIndex (h : isLower ch = true) : decodeText (letterIndex ch) = stripText [ch] := by
  obtain ⟨h0, h1⟩ := letterIndex_range h
  have hchr := chr_letterIndex h
  rcases h0.eq_or_lt with hzero | hpos
  · rw [← hzero] at hchr
    rw [← hzero, decodeText_zero, ← hchr]
    rfl
  · have hne := chr_ne_a hpos h1
    rw [hchr] at hne
    rw [decodeText_pos hpos, Int.ediv_eq_zero_of_lt h0 h1, Int.emod_eq_of_lt h0 h1, hchr, decodeText_zero]
    simp [stripText, hne]

/-- Letters are decoded one by one from the right; what is left of them is 0 exactly when all are `a` (R184). -/
theorem decodeText_encodeText (hall : str.all isLower = true) :
    decodeText (encodeText str) = stripText str := by
  induction str using List.reverseRecOn with
  | nil => rfl
  | append_singleton str ch ih =>
    obtain ⟨hstr, hch⟩ := all_isLower_append_singleton.1 hall
    obtain ⟨hd0, hd⟩ := letterIndex_range hch
    rw [encodeText_append]
    rcases (encodeText_range hstr).1.eq_or_lt with hzero | hpos
    · have hnil : stripText str = [] := by rw [← ih hstr, ← hzero, decodeText_zero]
      rw [← hzero, zero_mul, zero_add, stripText_append_of_nil hnil, decodeText_letterIndex hch]
    · have hne : stripText str ≠ [] := ih hstr ▸ decodeText_ne_nil hpos
      have hquot : (encodeText str * 26 + letterIndex ch) / 26 = encodeText str := by omega
      have hrem : (encodeText str * 26 + letterIndex ch) % 26 = letterIndex ch := by omega
      rw [decodeText_pos (by omega), hquot, hrem, ih hstr, chr_letterIndex hch, stripText_append_of_ne_nil hne]

end Values

/-- Settles O36: the two round trips and the leading digit, each by induction along the digits or letters. -/
theorem codecRoundTrip : Obligations.CodecRoundTrip :=
  ⟨fun _ hv => ⟨encodeText_decodeText hv, decodeText_leading hv⟩, fun _ => decodeText_encodeText⟩

end Sys2Proof.Machine
end

section
/-! SUPPORT. ENCODE and DECODE step by step, and their whole runs counted in steps (spec/44_codec.md R172 to
R182, R184). -/

namespace Sys2Proof.Machine

section CodecSteps

variable {s : State} {ch : Byte}

theorem exec_enScan (hp : s.phase = .enScan) (i : Instr) : exec i s = encodeScan s := by
  rw [exec_eq_commandStep]
  simp only [commandStep, hp]

theorem exec_enAcc (hp : s.phase = .enAcc) (i : Instr) : exec i s = encodeAcc s := by
  rw [exec_eq_commandStep]
  simp only [commandStep, hp]

theorem exec_deLoop (hp : s.phase = .deLoop) (i : Instr) : exec i s = decodeLoop s := by
  rw [exec_eq_commandStep]
  simp only [commandStep, hp]

theorem step_deLoop (hp : s.phase = .deLoop) (hturns : s.turns = []) : step s = decodeLoop s :=
  (step_eq_exec_of_loop hturns (by simp [hp]) .decode).trans (exec_deLoop hp .decode)

theorem encodeScan_last (hi : s.w.i = s.w.l) :
    encodeScan s = .next (setPhase .enAcc (setW { s.w with i := 0, v := 0 } s)) := if_pos hi

theorem encodeScan_letter (hi : s.w.i ≠ s.w.l) (hch : readCell s s.w.i = .ok ch) (hlow : isLower ch = true) :
    encodeScan s = .next (setW { s.w with i := s.w.i + 1 } s) := by
  simp [encodeScan, hi, hch, hlow]

theorem encodeScan_other (hi : s.w.i ≠ s.w.l) (hch : readCell s s.w.i = .ok ch) (hlow : isLower ch = false) :
    encodeScan s = .next (raise .invalidCharacterError s) := by
  simp [encodeScan, hi, hch, hlow]

theorem encodeScan_fault {f : Fault} (hi : s.w.i ≠ s.w.l) (hf : readCell s s.w.i = .error f) :
    encodeScan s = .fault f := by
  simp [encodeScan, hi, hf]

theorem encodeAcc_letter (hi : s.w.i ≠ s.w.l) (hch : readCell s s.w.i = .ok ch) :
    encodeAcc s = .next (setW { s.w with v := s.w.v * 26 + letterIndex ch, i := s.w.i + 1 } s) := by
  simp [encodeAcc, hi, hch]

/-- With no letter left the step ends the command, with the value or the error (R175). -/
theorem encodeAcc_ends (hi : s.w.i = s.w.l) : ∃ t, encodeAcc s = .next t ∧ t.phase = .idle := by
  rw [encodeAcc, if_pos hi]
  split_ifs
  · exact ⟨_, rfl, rfl⟩
  · exact ⟨_, rfl, rfl⟩

theorem decodeLoop_last (hv : s.w.v = 0) : decodeLoop s = .next (decodeEnd s.w.s s) := by
  rw [decodeLoop, if_pos hv, decodeFinish, decodeEnd]
  split_ifs
  · rfl
  · rfl

theorem decodeLoop_digit (hv : s.w.v ≠ 0) :
    decodeLoop s = .next (setW { s.w with s := chr (s.w.v % 26) :: s.w.s, v := s.w.v / 26 } s) := if_neg hv

/-- A cell that exists and that nothing has written cannot be read (log entry 4). -/
theorem readCell_unwritten {i : Nat} (hi : upToLmax s.params i = true) (hnone : s.txt.read i = none) :
    readCell s i = .error (.unwrittenText i) := by
  simp [readCell, hi, hnone]

end CodecSteps

/-- Settles O33: the scan reads the cell, and the read faults. -/
theorem encodeFaultsOnAnUnwrittenCell : Obligations.EncodeFaultsOnAnUnwrittenCell := by
  intro s hp hi hlen hnone
  rw [exec_enScan hp]
  exact encodeScan_fault hi (readCell_unwritten hlen hnone)

/-- Settles O35: the string written is read back, and the cells outside it read as before. -/
theorem decodeCompletionWrite : Obligations.DecodeCompletionWrite := by
  intro s hp hv hwf
  rw [exec_deLoop hp, decodeLoop_last hv, decodeEnd]
  refine ⟨fun hlen => by rw [if_neg (by simp [hlen])], fun hlen => ?_⟩
  rw [if_pos hlen]
  exact ⟨s.txt.writeString 0 s.w.s, rfl, Text.wf_writeString _ hwf 0, cellString_writeString hwf _,
    fun i hi => Text.read_writeString_outside _ _ 0 (.inr ((Nat.zero_add _).trans_le hi))⟩

section Encode

variable {s : State} {str pre : List Byte} {ch : Byte}

/-- ENCODE is in one of its loops, undisturbed, on the text `str` of existing cells. -/
structure EncodeLoop (str : List Byte) (s : State) : Prop where
  phase_mem : s.phase ∈ [Phase.enScan, .enAcc]
  turns : s.turns = []
  len : upToLmax s.params s.len = true
  cells : cellString s.txt.read s.len = some str
  inv : phaseInv s

theorem EncodeLoop.step_eq (h : EncodeLoop str s) : step s = exec .encode s :=
  step_eq_exec_of_loop h.turns (fun hp => absurd (hp ▸ h.phase_mem) (by decide)) .encode

theorem EncodeLoop.length_eq (h : EncodeLoop str s) : s.w.l = str.length := by
  have hinv := h.inv
  rw [cellString_length _ _ h.cells]
  rcases List.mem_pair.1 h.phase_mem with hp | hp <;> simp only [phaseInv, hp] at hinv
  · exact hinv.1
  · exact hinv.1

/-- Before the end of the text either loop reads its next character. -/
theorem EncodeLoop.reads (h : EncodeLoop str s) (hch : str[s.w.i]? = some ch) :
    s.w.i ≠ s.w.l ∧ readCell s s.w.i = .ok ch := by
  obtain ⟨hlt, -⟩ := List.getElem?_eq_some_iff.1 hch
  obtain ⟨hlen, hread⟩ := cellString_eq_some_iff.1 h.cells
  rw [hlen] at hlt
  exact ⟨by rw [h.length_eq, hlen]; exact hlt.ne,
    (readCell_ok_iff s _ ch).2 ⟨upToLmax_mono hlt.le h.len, (hread _ hlt).trans hch⟩⟩

/-- Either loop takes a letter in one step (R174, R175). -/
theorem EncodeLoop.takes_letter (h : EncodeLoop str s) (hch : str[s.w.i]? = some ch)
    (hlow : isLower ch = true) :
    ∃ w, w.i = s.w.i + 1 ∧ step s = .next (setW w s) ∧ EncodeLoop str (setW w s) := by
  obtain ⟨hi, hread⟩ := h.reads hch
  have hexec : ∃ w, w.i = s.w.i + 1 ∧ exec .encode s = .next (setW w s) := by
    rcases List.mem_pair.1 h.phase_mem with hp | hp
    · exact ⟨_, rfl, (exec_enScan hp _).trans (encodeScan_letter hi hread hlow)⟩
    · exact ⟨_, rfl, (exec_enAcc hp _).trans (encodeAcc_letter hi hread)⟩
  obtain ⟨w, hw, hexec⟩ := hexec
  exact ⟨w, hw, h.step_eq.trans hexec, h.phase_mem, h.turns, h.len, h.cells, exec_phaseInv h.inv _ _ hexec⟩

/-- While the text begins with letters `pre`, either loop takes the `n` left of them in `n` steps. -/
theorem EncodeLoop.runSteps_letters (hpre : pre <+: str) (hall : pre.all isLower = true) (n : Nat) :
    ∀ {s : State}, EncodeLoop str s → s.w.i + n = pre.length →
      ∃ w, w.i = pre.length ∧ runSteps n s = .next (setW w s) ∧ EncodeLoop str (setW w s) := by
  induction n with
  | zero => intro s h hi; exact ⟨s.w, hi, rfl, h⟩
  | succ n ih =>
    intro s h hi
    have hlt : s.w.i < pre.length := by omega
    obtain ⟨v, hv, hstep, hnext⟩ := h.takes_letter (List.prefix_iff_getElem?.1 hpre _ hlt)
      (List.all_eq_true.1 hall _ (List.getElem_mem hlt))
    obtain ⟨w, hw, hrun, hloop⟩ := ih hnext (by rw [setW_w, hv]; omega)
    exact ⟨w, hw, (runSteps_succ hstep n).trans hrun, hloop⟩

/-- ENCODE has latched LEN and begun the scan (R173). -/
def encodeLatched (s : State) : State := setPhase .enScan (setW { s.w with l := s.len, i := 0 } s)

theorem exec_encode_latches (hp : s.phase = .start) : exec .encode s = .next (encodeLatched s) :=
  exec_start hp .encode

theorem underway_encodeLatched (s : State) : Underway s (encodeLatched s) :=
  ⟨s.status, .enScan, { s.w with l := s.len, i := 0 }, rfl⟩

theorem encodeLoop_latched (hready : ready s) (hlen : upToLmax s.params s.len = true)
    (hstr : cellString s.txt.read s.len = some str) : EncodeLoop str (encodeLatched s) :=
  ⟨by simp [encodeLatched], hready.2, hlen, hstr,
    execStart_phaseInv hready.1 .encode _ (exec_encode_latches hready.1)⟩

/-- At the end of the text the scan goes over to the accumulation (R174). -/
theorem EncodeLoop.begins_accumulation (h : EncodeLoop str s) (hp : s.phase = .enScan)
    (hi : s.w.i = str.length) :
    ∃ w, w.i = 0 ∧ step s = .next (setPhase .enAcc (setW w s)) ∧
      EncodeLoop str (setPhase .enAcc (setW w s)) := by
  have hexec := (exec_enScan hp .encode).trans (encodeScan_last (hi.trans h.length_eq.symm))
  exact ⟨_, rfl, h.step_eq.trans hexec, by simp, h.turns, h.len, h.cells, exec_phaseInv h.inv _ _ hexec⟩

/-- The step at the end of the accumulation leaves what R172 says. -/
theorem EncodeLoop.last_step (h : EncodeLoop str s) (hp : s.phase = .enAcc) (hi : s.w.i = str.length) :
    step s = .next (encodeEnd str s) := by
  obtain ⟨t, hlast, hidle⟩ := encodeAcc_ends (hi.trans h.length_eq.symm)
  have hexec := (exec_enAcc hp .encode).trans hlast
  rw [h.step_eq, hexec, encodeAcc_endsWith hp h.inv h.cells t hexec hidle]

theorem Underway.encodeEnd_eq {u : State} (h : Underway s u) :
    encodeEnd str u = encodeEnd str (setW u.w s) := by
  rw [encodeEnd, h.params, h.raise_eq, h.raise_eq, h.complete_setR0]
  rfl

/-- ENCODE of a lowercase text: the start step, a scan of LEN letters and its last step, an accumulation of LEN
letters and its last step (R172). -/
theorem encode_run (hready : ready s) (hcmd : s.w.cmd = 0x06#8) (hlen : upToLmax s.params s.len = true)
    (hstr : cellString s.txt.read s.len = some str) (hall : str.all isLower = true) :
    ∃ w, runSteps (2 * s.len + 3) s = .next (encodeEnd str (setW w s)) := by
  have hlength : str.length = s.len := cellString_length _ _ hstr
  obtain ⟨w₁, hw₁, hscan, hloop₁⟩ := (encodeLoop_latched hready hlen hstr).runSteps_letters
    List.prefix_rfl hall str.length (Nat.zero_add _)
  obtain ⟨w₂, hw₂, hturn, hloop₂⟩ := hloop₁.begins_accumulation rfl hw₁
  obtain ⟨w₃, hw₃, hacc, hloop₃⟩ := hloop₂.runSteps_letters List.prefix_rfl hall str.length
    (by rw [setPhase_w, setW_w, hw₂, Nat.zero_add])
  have hrun := runSteps_command hready.2 (by rw [hcmd]; rfl) (exec_encode_latches hready.1)
    ((runSteps_add hscan _).trans ((runSteps_succ hturn _).trans hacc)) (hloop₃.last_step rfl hw₃)
  have hunder := (((underway_encodeLatched s).with_w w₁).with_w w₂).with_phase .enAcc
  rw [(hunder.with_w w₃).encodeEnd_eq] at hrun
  have hcount : 2 * s.len + 3 = str.length + (str.length + 1) + 2 := by omega
  exact ⟨w₃, hcount ▸ hrun⟩

/-- A text that is not all lowercase has a first character that is no letter. -/
theorem exists_first_other (hall : str.all isLower = false) :
    ∃ pre ch, pre ++ [ch] <+: str ∧ pre.all isLower = true ∧ isLower ch = false := by
  induction str with
  | nil => exact absurd hall (by simp)
  | cons c rest ih =>
    rcases hc : isLower c with _ | _
    · exact ⟨[], c, by simp, rfl, hc⟩
    · obtain ⟨pre, ch, hpre, hlow, hch⟩ := ih (by simpa [hc] using hall)
      exact ⟨c :: pre, ch, by simpa using hpre, by simpa [hc] using hlow, hch⟩

/-- ENCODE of another text ends when the scan reads the first character that is no letter (R172, R174). -/
theorem encode_run_other (hready : ready s) (hcmd : s.w.cmd = 0x06#8) (hlen : upToLmax s.params s.len = true)
    (hstr : cellString s.txt.read s.len = some str) (hall : str.all isLower = false) :
    ∃ k w, k ≤ s.len + 1 ∧ runSteps k s = .next (raise .invalidCharacterError (setW w s)) := by
  obtain ⟨pre, ch, hpre, hlow, hch⟩ := exists_first_other hall
  obtain ⟨w, hw, hscan, hloop⟩ := (encodeLoop_latched hready hlen hstr).runSteps_letters
    ((List.prefix_append _ _).trans hpre) hlow pre.length (Nat.zero_add _)
  have hnext : str[w.i]? = some ch := by
    rw [hw, List.prefix_iff_getElem?.1 hpre _ (by simp)]
    simp
  obtain ⟨hi, hread⟩ := hloop.reads hnext
  have hlast := hloop.step_eq.trans ((exec_enScan rfl _).trans (encodeScan_other hi hread hch))
  rw [((underway_encodeLatched s).with_w w).raise_eq] at hlast
  refine ⟨pre.length + 2, w, ?_, runSteps_command hready.2 (by rw [hcmd]; rfl)
    (exec_encode_latches hready.1) hscan hlast⟩
  have hle := hpre.length_le
  rw [cellString_length _ _ hstr, List.length_append, List.length_singleton] at hle
  exact Nat.succ_le_succ hle

/-- Settles O32: `encode_run` and what `encodeEnd` is in the two cases of the width, and `encode_run_other`. -/
theorem encodeComputesTheValue : Obligations.EncodeComputesTheValue := by
  intro s str hready hlen hstr
  refine ⟨exec_encode_latches hready.1, fun hcmd => ⟨fun hall hfit => ?_, fun hall hfit => ?_, fun hall =>
    encode_run_other hready hcmd hlen hstr hall⟩⟩
  · obtain ⟨w, hrun⟩ := encode_run hready hcmd hlen hstr hall
    rw [encodeEnd, if_pos hall, setW_params, if_pos hfit] at hrun
    obtain ⟨h0, hlt⟩ := encodeText_range hall
    exact ⟨h0, cellString_length _ _ hstr ▸ hlt, w, hrun⟩
  · obtain ⟨w, hrun⟩ := encode_run hready hcmd hlen hstr hall
    rw [encodeEnd, if_pos hall, setW_params, if_neg (by simp [hfit])] at hrun
    exact ⟨w, hrun⟩

end Encode

section Decode

variable {s : State}

/-- From DE_LOOP a step takes each digit left, to the state in which none is left (R181). -/
theorem runSteps_deLoop (n : Nat) : ∀ {s : State}, phaseInv s → s.phase = .deLoop → s.turns = [] →
    (decodeText s.w.v).length = n →
    ∃ w, w.v = 0 ∧ w.s = decodeText s.a0 ∧ runSteps n s = .next (setW w s) := by
  induction n with
  | zero =>
    intro s hinv hp _ hn
    simp only [phaseInv, hp] at hinv
    obtain ⟨-, hv0, hdec⟩ := hinv
    have hnil := List.length_eq_zero_iff.1 hn
    have hv : ¬ 0 < s.w.v := fun hpos => decodeText_ne_nil hpos hnil
    exact ⟨s.w, by omega, by rw [hdec, hnil, List.nil_append], rfl⟩
  | succ n ih =>
    intro s hinv hp hturns hn
    have hv : 0 < s.w.v := by
      by_contra hv
      rw [decodeText_of_nonpos (by omega)] at hn
      exact absurd hn (by simp)
    have hdigit := decodeLoop_digit hv.ne'
    have hinv' := exec_phaseInv hinv .decode _ ((exec_deLoop hp _).trans hdigit)
    rw [decodeText_pos hv, List.length_append, List.length_singleton] at hn
    obtain ⟨w, hw, hws, hrun⟩ := ih hinv' hp hturns (Nat.succ.inj hn)
    exact ⟨w, hw, hws, (runSteps_succ ((step_deLoop hp hturns).trans hdigit) n).trans hrun⟩

/-- DECODE has latched its argument (R180). -/
def decodeLatched (s : State) : State := setPhase .deLoop (setW { s.w with v := s.a0, s := [] } s)

theorem exec_decode_latches (hp : s.phase = .start) (h0 : 0 ≤ s.a0) :
    exec .decode s = .next (decodeLatched s) := (exec_start hp .decode).trans (if_neg (not_lt.2 h0))

theorem Underway.decodeEnd_eq {u : State} (h : Underway s u) (str : List Byte) :
    decodeEnd str u = decodeEnd str (setW u.w s) := by
  rw [decodeEnd, h.params, h.txt, h.raise_eq, h.complete_setLen]
  rfl

/-- DECODE: the start step, a step a digit, and the completion write (R179). -/
theorem decode_run (hready : ready s) (h0 : 0 ≤ s.a0) (hcmd : s.w.cmd = 0x07#8) :
    ∃ w, runSteps ((decodeText s.a0).length + 2) s = .next (decodeEnd (decodeText s.a0) (setW w s)) := by
  have hstart := exec_decode_latches hready.1 h0
  obtain ⟨w, hw, hws, hloop⟩ := runSteps_deLoop _ (s := decodeLatched s)
    (execStart_phaseInv hready.1 .decode _ hstart) rfl hready.2 rfl
  have hlast := (step_deLoop (s := setW w (decodeLatched s)) rfl hready.2).trans (decodeLoop_last hw)
  have hunder : Underway s (setW w (decodeLatched s)) := ⟨s.status, .deLoop, w, rfl⟩
  rw [hunder.decodeEnd_eq, setW_w, hws] at hlast
  exact ⟨w, runSteps_command hready.2 (by rw [hcmd]; rfl) hstart hloop hlast⟩

/-- Settles O34: the check of the start step, and `decode_run` in the two cases of the length. -/
theorem decodeWritesTheString : Obligations.DecodeWritesTheString := by
  intro s hready
  refine ⟨fun hneg => (exec_start hready.1 .decode).trans (decodeStart_raises hneg),
    exec_decode_latches hready.1, fun h0 hcmd hlen => ?_, fun h0 hcmd hlen => ?_⟩
  · obtain ⟨w, hrun⟩ := decode_run hready h0 hcmd
    rw [decodeEnd, setW_params, if_neg (by simp [hlen])] at hrun
    exact ⟨w, hrun⟩
  · obtain ⟨w, hrun⟩ := decode_run hready h0 hcmd
    rw [decodeEnd, setW_params, if_pos hlen] at hrun
    exact ⟨w, hrun⟩

theorem length_stripText_le (str : List Byte) : (stripText str).length ≤ str.length :=
  List.length_dropWhile_le _ _

/-- Settles O37: both runs, with `decodeText_encodeText` between them; the stripped text is no longer than the
text, so it fits in TXT. -/
theorem encodeThenDecodeStrips : Obligations.EncodeThenDecodeStrips := by
  intro s str hready hcmd hwf hlen hstr hall hfit
  obtain ⟨-, hencode⟩ := encodeComputesTheValue s str hready hlen hstr
  obtain ⟨h0, -, w, hrun⟩ := (hencode hcmd).1 hall hfit
  refine ⟨_, _, hrun, rfl, rfl, ?_⟩
  obtain ⟨-, -, -, hdecode⟩ := decodeWritesTheString
    (startCommand (encode .decode) (setA0 (encodeText str)
      (complete (setR0 (encodeText str) (setW w s))))) ⟨rfl, hready.2⟩
  have hstrip : (stripText str).length ≤ s.len := cellString_length _ _ hstr ▸ length_stripText_le str
  have hdec := decodeText_encodeText hall
  obtain ⟨w', hrun'⟩ := hdecode h0 rfl (by simpa [hdec] using upToLmax_mono hstrip hlen)
  exact ⟨_, _, hrun', rfl, by simp, by simpa [hdec] using cellString_writeString hwf (stripText str)⟩

end Decode

end Sys2Proof.Machine
end

section
/-! PROOFS. What WIPE leaves (spec/45_system.md R200). -/

namespace Sys2Proof.Machine

theorem sameOutside_complete_wiped (s : State) : sameOutside s (complete (wiped s)) := by
  simp [sameOutside]

/-- Settles O38: the start step completes in the wiped state; TXT then lists no cell and each reads its fill, 0. -/
theorem wipeZeroesEverything : Obligations.WipeZeroesEverything := by
  intro s hp
  have hcells : ∀ i, (complete (wiped s)).txt.read i = some 0#8 := Text.read_zeroed
  exact ⟨_, exec_start hp .wipe, rfl, rfl, rfl, rfl, rfl, rfl, rfl, hcells, rfl, rfl, rfl, rfl,
    sameOutside_complete_wiped s⟩

end Sys2Proof.Machine
end

section
/-! SUPPORT. Modulo a product of two distinct primes the exponents of GENKEY undo each other, and what GENPRIME
makes of a draw (spec/46_host_sequences.md R211, R213, R220). -/

namespace Sys2Proof.Machine

section Candidate

variable {bits : Nat} {v : Int}

/-- The candidate that GENPRIME makes of an answer of its oracle (R211): drawn, then made odd. -/
def candidate (bits : Nat) (d : Int) : Int :=
  let drawn := drawIn (2 ^ (bits - 1)) (2 ^ bits) d
  drawn + 1 - drawn % 2

theorem candidate_odd (bits : Nat) (d : Int) : candidate bits d % 2 = 1 := by
  simp only [candidate]
  omega

/-- The upper bound of the draw is even, so setting the low bit stays below it (R211). -/
theorem candidate_range (hbits : 1 ≤ bits) (d : Int) :
    2 ^ (bits - 1) ≤ candidate bits d ∧ candidate bits d < 2 ^ bits := by
  obtain ⟨L, rfl⟩ := Nat.exists_eq_add_of_le' hbits
  have hpow : (2 : Int) ^ (L + 1) = 2 * 2 ^ L := by ring
  have hpos : (0 : Int) < 2 ^ L := by positivity
  have hdraw := drawIn_range (lo := 2 ^ L) (hi := 2 ^ (L + 1)) (by omega) d
  simp only [candidate, Nat.add_sub_cancel]
  omega

theorem bitlen_candidate (hbits : 1 ≤ bits) (d : Int) : bitlen (candidate bits d) = bits := by
  obtain ⟨hlo, hhi⟩ := candidate_range hbits d
  obtain ⟨L, rfl⟩ := Nat.exists_eq_add_of_le' hbits
  exact bitlen_eq hlo hhi

theorem one_lt_candidate (hbits : 2 ≤ bits) (d : Int) : 1 < candidate bits d :=
  lt_of_lt_of_le (one_lt_pow₀ one_lt_two (by omega)) (candidate_range (by omega) d).1

end Candidate

section Cipher

variable {p q : Nat} {v : Int}

/-- Fermat's theorem for every base: one more than a multiple of p - 1 is an exponent that changes nothing. -/
theorem pow_succ_modEq_of_dvd (hp : p.Prime) {k : Nat} (hk : p - 1 ∣ k) (v : Int) : v ^ (k + 1) ≡ v [ZMOD p] := by
  by_cases hdvd : (p : Int) ∣ v
  · have hzero : v ≡ 0 [ZMOD p] := Int.modEq_zero_iff_dvd.2 hdvd
    exact (Int.modEq_zero_iff_dvd.2 (dvd_pow hdvd k.succ_ne_zero)).trans hzero.symm
  · obtain ⟨m, rfl⟩ := hk
    have hcoprime : IsCoprime v p := ((Nat.prime_iff_prime_int.1 hp).coprime_iff_not_dvd.2 hdvd).symm
    have hone := (Int.ModEq.pow_card_sub_one_eq_one hp hcoprime).pow m
    rw [← pow_mul, one_pow] at hone
    simpa [pow_succ] using hone.mul_right v

/-- An exponent that is 1 modulo (p - 1)(q - 1) changes nothing modulo p * q (R220). -/
theorem pow_succ_modEq_mul (hp : p.Prime) (hq : q.Prime) (hne : p ≠ q) {k : Nat} (hk : (p - 1) * (q - 1) ∣ k)
    (v : Int) : v ^ (k + 1) ≡ v [ZMOD (p * q : Int)] := by
  refine (Int.modEq_and_modEq_iff_modEq_mul (by simpa using (Nat.coprime_primes hp hq).2 hne)).1
    ⟨pow_succ_modEq_of_dvd hp (dvd_of_mul_right_dvd hk) v, pow_succ_modEq_of_dvd hq (dvd_of_mul_left_dvd hk) v⟩

/-- Two naturals whose product is 1 modulo (p - 1)(q - 1), in the host's integers. -/
theorem exists_mul_eq_succ (hp : p.Prime) (hq : q.Prime) {a b : Nat}
    (hab : (a : Int) * b % (((p : Int) - 1) * ((q : Int) - 1)) = 1) : ∃ k, b * a = k + 1 ∧ (p - 1) * (q - 1) ∣ k := by
  have hpos : b * a ≠ 0 := fun h => by
    rw [mul_comm, ← Nat.cast_mul, h] at hab
    simp at hab
  obtain ⟨k, hk⟩ := Nat.exists_eq_succ_of_ne_zero hpos
  refine ⟨k, hk, ?_⟩
  have hdvd := Int.dvd_self_sub_of_emod_eq hab
  rw [← Nat.cast_pred hp.pos, ← Nat.cast_pred hq.pos, mul_comm (a : Int)] at hdvd
  rw [show (b : Int) * a - 1 = k by rw [← Nat.cast_mul, hk]; simp] at hdvd
  exact_mod_cast hdvd

/-- Decryption undoes encryption of a value below the modulus (R220). -/
theorem pow_emod_pow_emod (hp : p.Prime) (hq : q.Prime) (hne : p ≠ q) {a b : Int} (ha : 0 ≤ a) (hb : 0 ≤ b)
    (hab : a * b % (((p : Int) - 1) * ((q : Int) - 1)) = 1) (h0 : 0 ≤ v) (hlt : v < (p * q : Int)) :
    (v ^ b.toNat % (p * q : Int)) ^ a.toNat % (p * q : Int) = v := by
  lift a to Nat using ha
  lift b to Nat using hb
  obtain ⟨k, hk, hdvd⟩ := exists_mul_eq_succ hp hq hab
  calc (v ^ b % (p * q : Int)) ^ a % (p * q : Int)
      = (v ^ b) ^ a % (p * q : Int) := (Int.mod_modEq _ _).pow a
    _ = v ^ (k + 1) % (p * q : Int) := by rw [← pow_mul, hk]
    _ = v % (p * q : Int) := pow_succ_modEq_mul hp hq hne hdvd v
    _ = v := Int.emod_eq_of_lt h0 hlt

theorem eq_of_mul_eq_primes (hq : q.Prime) {P Q : Nat} (hQ : Q ≠ 1) (hp : 0 < p) (h : P * Q = p * q)
    (hdvd : p ∣ P) : P = p ∧ Q = q := by
  obtain ⟨k, rfl⟩ := hdvd
  have hk : k * Q = q := Nat.eq_of_mul_eq_mul_left hp (by rw [← mul_assoc, h])
  have hQq : Q = q := (hq.eq_one_or_self_of_dvd Q (Dvd.intro_left k hk)).resolve_left hQ
  exact ⟨Nat.eq_of_mul_eq_mul_right hq.pos (hQq ▸ h), hQq⟩

/-- A product of two primes splits in one way into factors above 1, which gives (P - 1)(Q - 1). -/
theorem totient_of_mul_eq_primes (hp : p.Prime) (hq : q.Prime) {P Q : Int} (hP : 1 < P) (hQ : 1 < Q)
    (h : P * Q = (p * q : Int)) : (P - 1) * (Q - 1) = ((p : Int) - 1) * ((q : Int) - 1) := by
  lift P to Nat using by omega
  lift Q to Nat using by omega
  norm_cast at hP hQ h
  rcases hp.dvd_mul.1 (Dvd.intro q h.symm) with hdvd | hdvd
  · obtain ⟨rfl, rfl⟩ := eq_of_mul_eq_primes hq hQ.ne' hp.pos h hdvd
    rfl
  · obtain ⟨rfl, rfl⟩ := eq_of_mul_eq_primes hq hP.ne' hp.pos ((mul_comm Q P).trans h) hdvd
    exact mul_comm _ _

end Cipher

end Sys2Proof.Machine
end

section
/-! SUPPORT. What holds of the value a host program returns and of the block after it, by the program's own rule
(spec/30_encoding.md R76, R77): the rules of composition, and that a CALL leaves the block idle. -/

namespace Sys2Proof.Machine

section Composition

variable {α β : Type} {P : α → State → Prop} {Q : β → State → Prop} {s : State}

/-- If the program returns a value, it and the state then satisfy `P`. -/
def Returns (P : α → State → Prop) (x : HostResult α) : Prop := ∀ a t, x = .value a t → P a t

@[simp] theorem returns_value {a : α} : Returns P (.value a s) ↔ P a s := by simp [Returns]

@[simp] theorem returns_failed (k : ErrKind) : Returns P (.failed k s) := by simp [Returns]

@[simp] theorem returns_unfinished : Returns P (.unfinished s) := by simp [Returns]

@[simp] theorem returns_stuck : Returns P (.stuck s) := by simp [Returns]

@[simp] theorem returns_stopped (o : StepOutcome) : Returns P (.stopped o) := by simp [Returns]

theorem returns_any (x : HostResult α) : Returns (fun _ _ => True) x := fun _ _ _ => trivial

theorem Returns.imp {R : α → State → Prop} {x : HostResult α} (h : Returns P x) (himp : ∀ a t, P a t → R a t) :
    Returns R x := fun a t ht => himp a t (h a t ht)

theorem Returns.and {R : α → State → Prop} {x : HostResult α} (hP : Returns P x) (hR : Returns R x) :
    Returns (fun a t => P a t ∧ R a t) x := fun a t ht => ⟨hP a t ht, hR a t ht⟩

theorem Returns.andThen {x : HostResult α} {f : α → State → HostResult β} (hx : Returns P x)
    (hf : ∀ a t, P a t → Returns Q (f a t)) : Returns Q (andThen x f) := by
  intro b u h
  obtain ⟨a, t, hat, hbu⟩ := andThen_eq_value.1 h
  exact hf a t (hx a t hat) b u hbu

theorem returns_afterStep {o : StepOutcome} {f : State → HostResult α} (h : ∀ t, o = .next t → Returns P (f t)) :
    Returns P (afterStep o f) := by
  cases o with
  | next t => exact h t rfl
  | fault => exact returns_stopped _
  | refused => exact returns_stopped _

/-- What a program that returns is known to return. -/
theorem returns_of_eq {x : HostResult α} {a : α} {t : State} (hx : x = .value a t) (h : P a t) : Returns P x :=
  hx ▸ returns_value.2 h

theorem returns_of_failed {x : HostResult α} {k : ErrKind} (hx : ∃ t, x = .failed k t) : Returns P x := by
  obtain ⟨t, rfl⟩ := hx
  exact returns_failed k

end Composition

section Since

/-- What every step keeps of a block that was `o`: STATUS and phase agree (R26), the parameters are the same,
and TXT is still in canonical form. -/
structure Since (o s : State) : Prop where
  status : statusInv s
  params : s.params = o.params
  wf : o.txt.wf = true → s.txt.wf = true

/-- As `Since`, and idle: what the host finds after each CALL. -/
structure IdleSince (o s : State) : Prop extends Since o s where
  phase : s.phase = .idle

variable {o s t : State}

theorem SeqOutcome.params_eq (h : SeqOutcome s t) : t.params = s.params := by
  cases h <;> rfl

theorem SeqOutcome.txt_wf (h : SeqOutcome s t) (hwf : s.txt.wf = true) : t.txt.wf = true := by
  cases h with
  | textResult str => exact Text.wf_writeString str hwf 0
  | wipes => exact Text.wf_zeroed
  | _ => exact hwf

theorem hostStep_params {op : HostOp} (h : hostStep op s = .next t) : t.params = s.params := by
  rcases hostStep_next h with rfl | ⟨r, v, -, -, -, rfl⟩ | ⟨i, v, -, -, -, rfl⟩
  · rfl
  · rcases hostWriteIdle_cases s r v with hw | hw | hw | hw | hw | hw <;> rw [hw] <;> rfl
  · rfl

theorem hostStep_txt_wf {op : HostOp} (h : hostStep op s = .next t) (hwf : s.txt.wf = true) :
    t.txt.wf = true := by
  rcases hostStep_next h with rfl | ⟨r, v, -, -, -, rfl⟩ | ⟨i, v, -, -, -, rfl⟩
  · exact hwf
  · rcases hostWriteIdle_cases s r v with hw | hw | hw | hw | hw | hw <;> rw [hw] <;> exact hwf
  · exact Text.wf_write hwf i _

section Busy

variable (h : Since o s)
include h

theorem Since.without_turns : Since o { s with turns := [] } := ⟨h.status, h.params, h.wf⟩

theorem Since.fits {v : Int} (hv : fits o.params v = true) : fits s.params v = true := h.params.symm ▸ hv

theorem Since.upToLmax {n : Nat} (hn : upToLmax o.params n = true) : upToLmax s.params n = true :=
  h.params.symm ▸ hn

theorem Since.hostStep {op : HostOp} (ht : hostStep op s = .next t) : Since o t :=
  ⟨hostStep_statusInv h.status ht, (hostStep_params ht).trans h.params, fun hwf => hostStep_txt_wf ht (h.wf hwf)⟩

theorem Since.seqStep (ht : seqStep s = .next t) : Since o t := by
  by_cases hp : s.phase = .idle
  · rw [seqStep_idle hp, Host.Outcome.next.injEq] at ht
    exact ht ▸ h
  · have hstep := seqStep_outcome hp ht
    exact ⟨seqStep_statusInv h.status ht, hstep.params_eq.trans h.params, fun hwf => hstep.txt_wf (h.wf hwf)⟩

theorem Since.hostDo {op : HostOp} (ht : hostDo op s = .next t) : Since o t := h.without_turns.hostStep ht

theorem Since.seqDo (ht : seqDo s = .next t) : Since o t := h.without_turns.seqStep ht

/-- DONE is 1 only while idle (R26). -/
theorem Since.idle_of_done (hd : statusDone s.status = true) : IdleSince o s := by
  obtain ⟨-, -, hnot, -⟩ := h.status
  have hbusy : isBusy s = false := Bool.eq_false_iff.2 fun hb => hnot ⟨hb, hd⟩
  exact ⟨h, phase_idle_of_not_busy h.status hbusy⟩

theorem Since.wr (r : RegNum) (v : Int) : Returns (fun _ => Since o) (wr r v s) :=
  returns_afterStep fun _ ht => returns_value.2 (h.hostDo ht)

end Busy

theorem Since.wrCells (str : List Byte) : ∀ (i : Nat) {s : State}, Since o s →
    Returns (fun _ => Since o) (wrCells i str s) := by
  induction str with
  | nil => exact fun _ _ h => returns_value.2 h
  | cons ch rest ih => exact fun i s h => returns_afterStep fun t ht => ih (i + 1) (h.hostDo ht)

theorem Since.wrText (h : Since o s) (str : List Byte) : Returns (fun _ => Since o) (wrText str s) :=
  (Since.wrCells str 0 h).andThen fun _ _ h => h.wr _ _

theorem Since.waitDone (n : Nat) : ∀ {s : State}, Since o s → Returns (fun _ => IdleSince o) (waitDone n s) := by
  induction n with
  | zero =>
    intro s h
    unfold Machine.waitDone
    split_ifs with hd
    · exact returns_value.2 (h.idle_of_done hd)
    · exact returns_unfinished
  | succ n ih =>
    intro s h
    unfold Machine.waitDone
    split_ifs with hd
    · exact returns_value.2 (h.idle_of_done hd)
    · exact returns_afterStep fun t ht => ih (h.seqDo ht)

theorem IdleSince.without_turns (h : IdleSince o s) : IdleSince o { s with turns := [] } :=
  ⟨h.toSince.without_turns, h.phase⟩

theorem IdleSince.atRest (h : IdleSince o s) : AtRest { s with turns := [] } := atRest_of_idle h.status h.phase

theorem IdleSince.rd (h : IdleSince o s) (r : RegNum) : Returns (fun _ => IdleSince o) (rd r s) :=
  returns_value.2 h.without_turns

theorem Since.call (h : Since o s) (i : Instr) : Returns (fun _ => IdleSince o) (call i s) :=
  (h.wr _ _).andThen fun _ _ h => (h.waitDone _).andThen fun _ _ h => (h.rd _).andThen fun _ t h => by
    split
    · exact returns_failed _
    · exact returns_value.2 h

theorem Since.call2 (h : Since o s) (i : Instr) (x y : Int) : Returns (fun _ => IdleSince o) (call2 i x y s) :=
  (h.wr _ _).andThen fun _ _ h => (h.wr _ _).andThen fun _ _ h => h.call i

end Since
end Sys2Proof.Machine
end

section
/-! SUPPORT. CALL of each command the host operations use, from an idle block: what it returns, with the block idle
again (spec/30_encoding.md R77, spec/46_host_sequences.md R210). -/

namespace Sys2Proof.Machine

section Calls

variable {o s : State} (h : IdleSince o s)
include h

theorem IdleSince.callMrtest (n rounds : Int) : Returns (fun _ => IdleSince o) (callMrtest n rounds s) :=
  (h.call2 .mrtest n rounds).andThen fun _ _ h => h.rd _

/-- With b in range XGCD returns the gcd first (R110). -/
theorem IdleSince.callXgcd {a b : Int} (ha : fits o.params a = true) (hb : fits o.params b = true)
    (hab : b < a ∧ 0 < b) :
    Returns (fun (gxy : Int × Int × Int) t => gxy.1 = Int.gcd a b ∧ IdleSince o t) (callXgcd a b s) := by
  obtain ⟨g, x, y, t, hcall, hg, -⟩ := h.atRest.callXgcd_value (h.fits ha) (h.fits hb) hab
  refine (returns_of_eq hcall hg).and ?_
  exact (h.call2 .xgcd a b).andThen fun _ _ h => (h.rd _).andThen fun _ _ h =>
    (h.rd _).andThen fun _ _ h => (h.rd _).andThen fun _ _ h => returns_value.2 h

/-- The inverse of a unit (R120). -/
theorem IdleSince.callModinv {a m : Int} (ha : fits o.params a = true) (hm : fits o.params m = true)
    (ham : a < m ∧ 0 < a) (hgcd : Int.gcd a m = 1) :
    Returns (fun u t => (0 ≤ u ∧ u < m ∧ a * u % m = 1) ∧ IdleSince o t) (callModinv a m s) := by
  obtain ⟨u, t, hcall, hu⟩ := h.atRest.callModinv_value (h.fits ha) (h.fits hm) ham hgcd
  exact (returns_of_eq hcall hu).and ((h.call2 .modinv a m).andThen fun _ _ h => h.rd _)

theorem IdleSince.callPowmod_value {x c n : Int} (hx : fits o.params x = true) (hc : fits o.params c = true)
    (hn : fits o.params n = true) (h1 : 1 < n) (h0 : 0 ≤ c) :
    ∃ t, callPowmod x c n s = .value (x ^ c.toNat % n) t :=
  h.atRest.callPowmod_value (h.fits hx) (h.fits hc) (h.fits hn) h1 h0

theorem IdleSince.callPowmod {x c n : Int} (hx : fits o.params x = true) (hc : fits o.params c = true)
    (hn : fits o.params n = true) (h1 : 1 < n) (h0 : 0 ≤ c) :
    Returns (fun v t => v = x ^ c.toNat % n ∧ IdleSince o t) (callPowmod x c n s) := by
  obtain ⟨t, hcall⟩ := h.callPowmod_value hx hc hn h1 h0
  refine (returns_of_eq hcall rfl).and ?_
  exact (h.wr _ _).andThen fun _ _ h => (h.wr _ _).andThen fun _ _ h => (h.wr _ _).andThen fun _ _ h =>
    (h.call .powmod).andThen fun _ _ h => h.rd _

theorem IdleSince.callEncode_value {text : List Byte} (hwf : o.txt.wf = true)
    (hlen : upToLmax o.params text.length = true) (hfit : fits o.params text.length = true)
    (hall : text.all isLower = true) (hv : fits o.params (encodeText text) = true) :
    ∃ t, callEncode text s = .value (encodeText text) t := by
  rw [callEncode_no_turns]
  exact h.atRest.callEncode_value (h.wf hwf) (h.upToLmax hlen) (h.fits hfit) hall (h.fits hv)

/-- ENCODE returns only the value of a lowercase text: every other text and a value that does not fit fail
(R172). -/
theorem IdleSince.callEncode {text : List Byte} (hwf : o.txt.wf = true)
    (hlen : upToLmax o.params text.length = true) (hfit : fits o.params text.length = true) :
    Returns (fun v t => (text.all isLower = true ∧ v = encodeText text) ∧ IdleSince o t) (callEncode text s) := by
  refine Returns.and ?_ ((h.wrText text).andThen fun _ _ h => (h.call .encode).andThen fun _ _ h => h.rd _)
  obtain ⟨-, -, -, -, -, hfails, -⟩ := callsFailWithTheErrorKind s h.status h.phase (h.wf hwf)
  obtain ⟨hother, hwide⟩ := hfails text (h.upToLmax hlen) (h.fits hfit)
  cases hall : text.all isLower with
  | false => exact returns_of_failed (hother hall)
  | true =>
    cases hv : fits o.params (encodeText text) with
    | false => exact returns_of_failed (hwide hall (h.params.symm ▸ hv))
    | true =>
      obtain ⟨t, hcall⟩ := h.callEncode_value hwf hlen hfit hall hv
      exact returns_of_eq hcall ⟨rfl, rfl⟩

theorem IdleSince.callDecode_value {v : Int} (hwf : o.txt.wf = true) (hv : fits o.params v = true) (h0 : 0 ≤ v)
    (hlen : upToLmax o.params (decodeText v).length = true) :
    ∃ t, callDecode v s = .value (decodeText v) t :=
  h.atRest.callDecode_value (h.wf hwf) (h.fits hv) h0 (h.upToLmax hlen)

/-- DECODE returns only the string of the value: one too long for TXT fails (R179, R183). -/
theorem IdleSince.callDecode {v : Int} (hwf : o.txt.wf = true) (hv : fits o.params v = true) (h0 : 0 ≤ v) :
    Returns (fun text _ => text = decodeText v) (callDecode v s) := by
  cases hlen : upToLmax o.params (decodeText v).length with
  | false =>
    obtain ⟨-, -, -, -, -, -, hfails⟩ := callsFailWithTheErrorKind s h.status h.phase (h.wf hwf)
    exact returns_of_failed ((hfails v (h.fits hv)).2 h0 (h.params.symm ▸ hlen))
  | true =>
    obtain ⟨t, hcall⟩ := h.callDecode_value hwf hv h0 hlen
    exact returns_of_eq hcall rfl

end Calls

end Sys2Proof.Machine
end

section
/-! PROOFS. GENPRIME and GENKEY (spec/46_host_sequences.md R211 to R216). -/

namespace Sys2Proof.Machine

section GenPrime

variable {o s : State}

/-- GENPRIME returns one of its candidates (R211), and keeps what CALL MRTEST keeps. -/
theorem returns_genPrimeLoop {I : State → Prop}
    (hI : ∀ n rounds {s}, I s → Returns (fun _ => I) (callMrtest n rounds s))
    (bits : Nat) (rounds : Int) (draws : List Int) : ∀ {s : State}, I s →
    Returns (fun v t => (∃ d, v = candidate bits d) ∧ I t) (genPrimeLoop bits rounds draws s) := by
  induction draws with
  | nil => exact fun _ => returns_unfinished
  | cons d rest ih =>
    refine fun h => (hI (candidate bits d) rounds h).andThen fun r t ht => ?_
    split_ifs
    · exact returns_value.2 ⟨⟨d, rfl⟩, ht⟩
    · exact ih ht

theorem returns_genPrime {I : State → Prop}
    (hI : ∀ n rounds {s}, I s → Returns (fun _ => I) (callMrtest n rounds s))
    (bitLength rounds : Int) (draws : List Int) (h : I s) :
    Returns (fun v t => 2 ≤ bitLength ∧ (∃ d, v = candidate bitLength.toNat d) ∧ I t)
      (genPrime bitLength rounds draws s) := by
  unfold genPrime
  split_ifs with hdomain
  · exact returns_failed _
  · exact (returns_genPrimeLoop hI _ _ _ h).imp fun v t hv => ⟨by omega, hv⟩
  · exact returns_failed _

theorem IdleSince.genPrime (h : IdleSince o s) (bitLength rounds : Int) (draws : List Int) :
    Returns (fun v t => 1 < v ∧ IdleSince o t) (genPrime bitLength rounds draws s) := by
  refine (returns_genPrime (fun n rounds _ h => h.callMrtest n rounds) bitLength rounds draws h).imp ?_
  rintro v t ⟨hlen, ⟨d, rfl⟩, ht⟩
  exact ⟨one_lt_candidate (by omega) d, ht⟩

/-- Settles O51: the value returned is a candidate, and a candidate is odd and has the length asked for. -/
theorem genPrimeIsOddOfExactLength : Obligations.GenPrimeIsOddOfExactLength := by
  intro bitLength rounds draws s t v h
  obtain ⟨hlen, ⟨d, rfl⟩, -⟩ :=
    returns_genPrime (fun _ _ _ _ => returns_any _) bitLength rounds draws trivial v t h
  refine ⟨candidate_odd _ d, ?_⟩
  rw [bitlen_candidate (by omega), Int.toNat_of_nonneg (by omega)]

theorem IdleSince.genPrimeOther (p bitLength rounds : Int) (draws : List (List Int)) : ∀ {s : State},
    IdleSince o s → Returns (fun v t => 1 < v ∧ IdleSince o t) (genPrimeOther p bitLength rounds draws s) := by
  induction draws with
  | nil => exact fun _ => returns_unfinished
  | cons ds rest ih =>
    refine fun h => (h.genPrime _ _ ds).andThen fun q t hq => ?_
    split_ifs
    · exact ih hq.2
    · exact returns_value.2 hq

end GenPrime

section GenKey

/-- What R215 asks of ((n, b), (n', a)), for the modulus n and phi. -/
structure IsKeyPair (n phi : Int) (keys : (Int × Int) × (Int × Int)) : Prop where
  publicModulus : keys.1.1 = n
  privateModulus : keys.2.1 = n
  two_le_public : 2 ≤ keys.1.2
  public_le : keys.1.2 ≤ phi - 2
  coprime : Int.gcd keys.1.2 phi = 1
  inverse : keys.2.2 * keys.1.2 % phi = 1
  private_pos : 0 < keys.2.2
  private_lt : keys.2.2 < phi

/-- No register of the block holds an operand, a result or an intermediate value (R200). -/
structure Cleared (s : State) : Prop where
  a0 : s.a0 = 0
  a1 : s.a1 = 0
  a2 : s.a2 = 0
  r0 : s.r0 = 0
  r1 : s.r1 = 0
  r2 : s.r2 = 0
  w : s.w = Working.zero

variable {o s : State}

theorem IdleSince.callWipe (h : IdleSince o s) : Returns (fun _ t => Cleared t ∧ IdleSince o t) (callWipe s) := by
  have hends : EndsIn .wipe { s with turns := [] }
      (complete (wiped (startCommand (encode .wipe) { s with turns := [] }))) :=
    endsIn_of_start rfl rfl (by simp)
  exact (returns_of_eq (h.atRest.call_completes hends) ⟨rfl, rfl, rfl, rfl, rfl, rfl, rfl⟩).and (h.call .wipe)

/-- From a unit b of the range the loop ends with the inverse of b, which is not 0 (R214, R215). -/
theorem IdleSince.genKeyLoop {n phi : Int} (hfit : fits o.params phi = true) (hphi : 3 < phi)
    (draws : List Int) : ∀ {s : State}, IdleSince o s →
    Returns (fun keys t => IsKeyPair n phi keys ∧ Cleared t ∧ IdleSince o t) (genKeyLoop n phi draws s) := by
  induction draws with
  | nil => exact fun _ => returns_unfinished
  | cons d rest ih =>
    intro s h
    obtain ⟨hlo, hhi⟩ := drawIn_range (lo := 2) (hi := phi - 1) (by omega) d
    generalize hb : drawIn 2 (phi - 1) d = b at hlo hhi
    have hle : b ≤ phi - 2 := by omega
    have hbfit : fits o.params b = true := fits_of_le hfit (by omega) (by omega)
    simp only [Machine.genKeyLoop, hb]
    refine (h.callXgcd hfit hbfit (by omega)).andThen fun gxy t ⟨hg, ht⟩ => ?_
    split_ifs with hone
    · have hgcd : Int.gcd b phi = 1 := by
        rw [Int.gcd_comm]
        omega
      refine (ht.callModinv hbfit hfit (by omega) hgcd).andThen fun a u ⟨⟨h0, hlt, hinv⟩, hu⟩ => ?_
      refine hu.callWipe.andThen fun _ v hv => returns_value.2 ⟨?_, hv⟩
      have hne : a ≠ 0 := fun hzero => by simp [hzero] at hinv
      exact { publicModulus := rfl, privateModulus := rfl, two_le_public := hlo, public_le := hle, coprime := hgcd,
              inverse := mul_comm b a ▸ hinv, private_pos := lt_of_le_of_ne h0 hne.symm, private_lt := hlt }
    · exact ih ht

theorem IdleSince.genKey (h : IdleSince o s) (p q : Int) (draws : List Int) :
    Returns (fun keys t => IsKeyPair (p * q) ((p - 1) * (q - 1)) keys ∧ Cleared t ∧ IdleSince o t)
      (genKey p q draws s) := by
  simp only [Machine.genKey]
  split_ifs with hfit hphi
  · exact returns_stuck
  · exact h.genKeyLoop (h.params ▸ hfit) (by omega) draws
  · exact returns_failed _

/-- An idle block, taken as the origin. -/
theorem idleSince_self {s : State} (hs : statusInv s) (hp : s.phase = .idle) : IdleSince s s :=
  ⟨⟨hs, rfl, id⟩, hp⟩

/-- Settles O52: the loop of GENKEY from the idle block. -/
theorem genKeyReturnsInverseExponents : Obligations.GenKeyReturnsInverseExponents := by
  intro p q draws s t n b n' a hs hp h
  obtain ⟨hkeys, hclear, -⟩ := (idleSince_self hs hp).genKey p q draws _ t h
  exact ⟨hkeys.publicModulus, hkeys.privateModulus, hkeys.two_le_public, hkeys.public_le, hkeys.coprime,
    hkeys.inverse, hkeys.private_pos, hkeys.private_lt, hclear.a0, hclear.a1, hclear.a2, hclear.r0, hclear.r1,
    hclear.r2, hclear.w⟩

end GenKey

end Sys2Proof.Machine
end

section
/-! PROOFS. ENCRYPT, DECRYPT and the whole flow (spec/46_host_sequences.md R217 to R221): what they return when they
return, that they return when their values fit, and that DECRYPT undoes ENCRYPT. -/

namespace Sys2Proof.Machine

section Returning

variable {o s : State}

/-- A ciphertext that ENCRYPT returns: the power of the value of a lowercase text that is below the modulus. -/
structure IsCiphertext (n b : Int) (text : List Byte) (c : Int) : Prop where
  lower : text.all isLower = true
  value_lt : encodeText text < n
  eq_power : c = encodeText text ^ b.toNat % n

variable (h : IdleSince o s)
include h

theorem IdleSince.encrypt {n b : Int} (text : List Byte) (hwf : o.txt.wf = true) (h1 : 1 < n) (hb : 0 ≤ b) :
    Returns (fun c t => IsCiphertext n b text c ∧ IdleSince o t) (encrypt n b text s) := by
  unfold Machine.encrypt
  rw [h.params]
  split_ifs with hguard
  · obtain ⟨hlen, hfit, hn, hbfit⟩ := hguard
    refine (h.callEncode hwf hlen hfit).andThen fun v t ⟨⟨hall, hv⟩, ht⟩ => ?_
    split_ifs with hlt
    · exact returns_failed _
    · have hvfit : fits o.params v = true := fits_of_le hn (hv ▸ (encodeText_range hall).1) (by omega)
      exact (ht.callPowmod hvfit hbfit hn h1 hb).imp fun c u ⟨hc, hu⟩ => ⟨⟨hall, by omega, hv ▸ hc⟩, hu⟩
  · exact returns_failed _

theorem IdleSince.decrypt {n a : Int} (c : Int) (hwf : o.txt.wf = true) (h1 : 1 < n) (ha : 0 ≤ a) :
    Returns (fun text _ => text = decodeText (c ^ a.toNat % n)) (decrypt n a c s) := by
  unfold Machine.decrypt
  rw [h.params]
  split_ifs with hguard
  · obtain ⟨hn, hafit, hc⟩ := hguard
    refine (h.callPowmod hc hafit hn h1 ha).andThen fun m t ⟨hm, ht⟩ => ?_
    rw [← hm]
    have hpos : 0 < n := by omega
    exact ht.callDecode hwf (hm ▸ fits_emod _ hn hpos) (hm ▸ Int.emod_nonneg _ hpos.ne')
  · exact returns_failed _

end Returning

theorem IsCiphertext.range {n b c : Int} {text : List Byte} (h : IsCiphertext n b text c) (hn : 0 < n) :
    0 ≤ c ∧ c < n :=
  h.eq_power ▸ ⟨Int.emod_nonneg _ hn.ne', Int.emod_lt_of_pos _ hn⟩

/-- What DECRYPT computes from a ciphertext is the value of the text, so its string is strip(text) (R184, R220). -/
theorem IsCiphertext.decodeText_power {p q : Nat} {a b c : Int} {text : List Byte}
    (h : IsCiphertext (p * q) b text c) (hp : p.Prime) (hq : q.Prime) (hne : p ≠ q) (ha : 0 ≤ a) (hb : 0 ≤ b)
    (hab : a * b % (((p : Int) - 1) * ((q : Int) - 1)) = 1) :
    decodeText (c ^ a.toNat % (p * q : Int)) = stripText text := by
  rw [h.eq_power, pow_emod_pow_emod hp hq hne ha hb hab (encodeText_range h.lower).1 h.value_lt,
    decodeText_encodeText h.lower]

section Halting

variable {α β : Type}

/-- The program returns a value. -/
def Halts (x : HostResult α) : Prop := ∃ a t, x = .value a t

theorem Halts.exists_value {P : α → State → Prop} {x : HostResult α} (hx : Halts x) (hP : Returns P x) :
    ∃ a t, x = .value a t ∧ P a t := by
  obtain ⟨a, t, hat⟩ := hx
  exact ⟨a, t, hat, hP a t hat⟩

theorem Halts.andThen {P : α → State → Prop} {x : HostResult α} {f : α → State → HostResult β} (hx : Halts x)
    (hP : Returns P x) (hf : ∀ a t, P a t → Halts (f a t)) : Halts (andThen x f) := by
  obtain ⟨a, t, hat, hPat⟩ := hx.exists_value hP
  rw [hat, andThen_value]
  exact hf a t hPat

variable {o s : State} (h : IdleSince o s)
include h

/-- ENCRYPT of a text whose value is below the modulus returns. -/
theorem halts_encrypt {n b : Int} {text : List Byte} (hwf : o.txt.wf = true) (h1 : 1 < n)
    (hb : 0 ≤ b) (hall : text.all isLower = true) (hlt : encodeText text < n)
    (hlen : upToLmax o.params text.length = true) (hfit : fits o.params text.length = true)
    (hn : fits o.params n = true) (hbfit : fits o.params b = true) : Halts (encrypt n b text s) := by
  have hv : fits o.params (encodeText text) = true := fits_of_le hn (encodeText_range hall).1 hlt.le
  have hencode : Halts (callEncode text s) := ⟨_, h.callEncode_value hwf hlen hfit hall hv⟩
  unfold encrypt
  rw [h.params, if_neg (not_not.2 ⟨hlen, hfit, hn, hbfit⟩)]
  refine hencode.andThen (h.callEncode hwf hlen hfit) fun v t ⟨⟨_, hveq⟩, ht⟩ => ?_
  rw [hveq, if_neg (not_le.2 hlt)]
  exact ⟨_, ht.callPowmod_value hv hbfit hn h1 hb⟩

/-- DECRYPT returns when its string has a length up to LMAX. -/
theorem halts_decrypt {n a c : Int} (hwf : o.txt.wf = true) (h1 : 1 < n) (ha : 0 ≤ a)
    (hn : fits o.params n = true) (hafit : fits o.params a = true) (hc : fits o.params c = true)
    (hlen : upToLmax o.params (decodeText (c ^ a.toNat % n)).length = true) : Halts (decrypt n a c s) := by
  have hpos : 0 < n := by omega
  have hpower : Halts (callPowmod c a n s) := ⟨_, h.callPowmod_value hc hafit hn h1 ha⟩
  unfold decrypt
  rw [h.params, if_neg (not_not.2 ⟨hn, hafit, hc⟩)]
  refine hpower.andThen (h.callPowmod hc hafit hn h1 ha) fun m t ⟨hm, ht⟩ => ?_
  exact ⟨_, ht.callDecode_value hwf (hm ▸ fits_emod _ hn hpos) (hm ▸ Int.emod_nonneg _ hpos.ne') (hm ▸ hlen)⟩

end Halting

/-- Settles O53: both operations halt, and DECRYPT is given what ENCRYPT returns. -/
theorem encryptThenDecryptStrips : Obligations.EncryptThenDecryptStrips := by
  intro p q a b text s hp hq hne _ _ ha hb hab hall hlt hlen hfit hn hafit hbfit hs hphase hwf
  have h := idleSince_self hs hphase
  have h1 : (1 : Int) < p * q := by exact_mod_cast Nat.one_lt_mul_iff.2 ⟨hp.pos, hq.pos, .inl hp.one_lt⟩
  obtain ⟨c, t, henc, hcipher, ht⟩ :=
    (halts_encrypt h hwf h1 hb hall hlt hlen hfit hn hbfit).exists_value (h.encrypt text hwf h1 hb)
  obtain ⟨h0, hclt⟩ := hcipher.range (by omega)
  have htext := hcipher.decodeText_power hp hq hne ha hb hab
  have hdec := halts_decrypt ht hwf h1 ha hn hafit (fits_of_le hn h0 hclt.le)
    (htext ▸ upToLmax_mono (length_stripText_le text) hlen)
  obtain ⟨text', u, hdec, htext'⟩ := hdec.exists_value (ht.decrypt c hwf h1 ha)
  exact ⟨c, t, henc, h0, hclt, u, by rw [hdec, htext', htext]⟩

section Flow

/-- What R221 asks of the keys, the ciphertext and the text that the flow returns. -/
def IsFlowResult (text : List Byte) (r : ((Int × Int) × (Int × Int)) × Int × List Byte) : Prop :=
  r.1.2.1 = r.1.1.1 ∧ 0 ≤ r.2.1 ∧ r.2.1 < r.1.1.1 ∧
  ∀ p q : Nat, p.Prime → q.Prime → p ≠ q → r.1.1.1 = (p * q : Int) → r.2.2 = stripText text

/-- The exponents belong to the factors P and Q that GENPRIME found; if their product is one of two primes,
those are the factors. -/
theorem isFlowResult_of_keys {P Q : Int} {keys : (Int × Int) × (Int × Int)} {text : List Byte} {c : Int}
    (hP : 1 < P) (hQ : 1 < Q) (hkeys : IsKeyPair (P * Q) ((P - 1) * (Q - 1)) keys)
    (hcipher : IsCiphertext keys.1.1 keys.1.2 text c) :
    IsFlowResult text (keys, c, decodeText (c ^ keys.2.2.toNat % keys.2.1)) := by
  obtain ⟨⟨n, b⟩, n', a⟩ := keys
  obtain ⟨hn, hn', hb, -, -, hab, ha, -⟩ := hkeys
  simp only at hn hn' hb hab ha hcipher
  have hpos : 0 < P * Q := by positivity
  obtain ⟨h0, hlt⟩ := hcipher.range (hn ▸ hpos)
  refine ⟨hn'.trans hn.symm, h0, hlt, fun p q hp hq hne hpq => ?_⟩
  simp only at hpq
  subst hpq
  rw [totient_of_mul_eq_primes hp hq hP hQ hn.symm] at hab
  simp only [hn', ← hn]
  exact hcipher.decodeText_power hp hq hne ha.le (by omega) hab

theorem IdleSince.flow {o s : State} (h : IdleSince o s) (hwf : o.txt.wf = true) (bitLength rounds : Int)
    (d : FlowDraws) (text : List Byte) :
    Returns (fun r _ => IsFlowResult text r) (flow bitLength rounds d text s) := by
  refine (h.genPrime _ _ _).andThen fun P s₁ ⟨hP, h₁⟩ => ?_
  refine (h₁.genPrimeOther _ _ _ _).andThen fun Q s₂ ⟨hQ, h₂⟩ => ?_
  refine (h₂.genKey P Q _).andThen fun keys s₃ ⟨hkeys, _, h₃⟩ => ?_
  have h1 : 1 < P * Q := one_lt_mul_of_le_of_lt hP.le hQ
  refine (h₃.encrypt text hwf (hkeys.publicModulus ▸ h1) (by have := hkeys.two_le_public; omega)).andThen
    fun c s₄ ⟨hcipher, h₄⟩ => ?_
  refine (h₄.decrypt c hwf (hkeys.privateModulus ▸ h1) hkeys.private_pos.le).andThen fun text' s₅ htext => ?_
  exact returns_value.2 (htext ▸ isFlowResult_of_keys hP hQ hkeys hcipher)

/-- Settles O54: the flow from the idle block. -/
theorem flowReturnsTheStrippedText : Obligations.FlowReturnsTheStrippedText :=
  fun bitLength rounds d text _ t _ _ _ _ _ _ hs hp hwf hflow =>
    (idleSince_self hs hp).flow hwf bitLength rounds d text _ t hflow

end Flow

end Sys2Proof.Machine
end

section
/-! PROOFS. Errors are precise (spec/60_exceptions.md R247): the step that raises one, and the whole run of a
command that ends in one. -/

namespace Sys2Proof.Machine

section Errors

variable {s t : State}

theorem SeqOutcome.turns_eq (h : SeqOutcome s t) : t.turns = s.turns := by
  cases h <;> rfl

/-- The one way a SEQ step ends a command with ERR not 0 (R247). -/
theorem SeqOutcome.eq_raise (h : SeqOutcome s t) (hidle : t.phase = .idle) (herr : statusErr t.status ≠ 0#3) :
    ∃ k, t = raise k s := by
  cases h with
  | goesOn p w d hp => exact absurd hidle hp
  | raises k => exact ⟨k, rfl⟩
  | oneResult | threeResults | textResult | wipes => exact absurd (by simp) herr

/-- Only a step that ends a command without error writes what the host reads (R22, R247). -/
theorem SeqOutcome.sameVisible (h : SeqOutcome s t) (hcase : t.phase ≠ .idle ∨ statusErr t.status ≠ 0#3) :
    sameVisible s t := by
  cases h with
  | goesOn | raises => exact ⟨rfl, rfl, rfl, rfl, rfl, rfl, rfl, rfl⟩
  | oneResult | threeResults | textResult | wipes => simp at hcase

theorem sameVisible.trans {u : State} (h : sameVisible s u) (h' : sameVisible u t) : sameVisible s t := by
  simp_all [sameVisible]

/-- Left alone, an idle block stays as it is (R34). -/
theorem runSteps_idle (hidle : s.phase = .idle) (hturns : s.turns = []) (k : Nat) :
    runSteps k s = .next s := by
  induction k with
  | zero => exact runSteps_zero s
  | succ k ih => rw [runSteps_succ ((step_of_no_turns hturns).trans (seqStep_idle hidle)), ih]

/-- A run of one step more begins with a step that answers a state. -/
theorem exists_step_of_runSteps_succ {k : Nat} (h : runSteps (k + 1) s = .next t) :
    ∃ u, step s = .next u ∧ runSteps k u = .next t := by
  rcases hs : step s with u | r | r <;> simp only [runSteps, hs] at h
  · exact ⟨u, rfl, h⟩
  all_goals cases h

/-- The run of a command, from any of its steps: the steps that go on keep what the host reads, and so does the
error that ends it. -/
theorem sameVisible_of_runSteps_failed (hidle : t.phase = .idle) (herr : statusErr t.status ≠ 0#3) (k : Nat) :
    ∀ {s : State}, s.phase ≠ .idle → s.turns = [] → runSteps k s = .next t → sameVisible s t := by
  induction k with
  | zero =>
    intro s hbusy _ hrun
    obtain rfl := Host.Outcome.next.inj hrun
    exact absurd hidle hbusy
  | succ k ih =>
    intro s hbusy hturns hrun
    obtain ⟨u, hstep, hrest⟩ := exists_step_of_runSteps_succ hrun
    have hout : SeqOutcome s u := seqStep_outcome hbusy ((step_of_no_turns hturns).symm.trans hstep)
    have huturns : u.turns = [] := hout.turns_eq.trans hturns
    by_cases hu : u.phase = .idle
    · obtain rfl := Host.Outcome.next.inj ((runSteps_idle hu huturns k).symm.trans hrest)
      exact hout.sameVisible (.inr herr)
    · exact (hout.sameVisible (.inl hu)).trans (ih hu huturns hrest)

end Errors

/-- Settles O39: an ending with ERR not 0 is `raise`, and the steps before it show the host nothing. -/
theorem errorsArePrecise : Obligations.ErrorsArePrecise := by
  refine ⟨fun s t h hbusy hidle herr => ?_, fun s t k hready hrun hidle herr => ?_⟩
  · obtain ⟨e, rfl⟩ := (seqStep_outcome hbusy h).eq_raise hidle herr
    have hcode : statusErr (raise e s).status = errCode e := statusErr_statusOf false true (errCode e)
    exact ⟨⟨e, hcode⟩, by rw [hcode]; rfl⟩
  · have hbusy : s.phase ≠ .idle := by simp [hready.1]
    exact sameVisible_of_runSteps_failed hidle herr k hbusy hready.2 hrun

end Sys2Proof.Machine
end
